-- ==== Sys2Proof/Word.lean ====
section
/-! DEFINITION. The words, bytes and sequences of the block (spec 00_scope.md R9, R10). -/

namespace Sys2Proof

/-- A byte: a bit vector of width 8, also the number 0 to 255 it spells (R9). A symbol is a byte
value (R6, SYM_BITS = 8). -/
abbrev Byte := BitVec 8

/-- A command word (R7, CMD_BITS = 32). -/
abbrev Word32 := BitVec 32

/-- A 64-bit register value, an IN or OUT address (R28, R48). -/
abbrev Word64 := BitVec 64

/-- A frequency count or a tree weight (R7, FREQ_W = 64): unsigned, its sums wrap at 2^64 and never do
in a state a run reaches (48_arithmetic.md R196). -/
abbrev Weight := BitVec 64

/-- A bit sequence: the head is element 0, the earliest appended (R10); `true` is the bit 1. -/
abbrev BitSeq := List Bool

/-- A byte sequence (R10). -/
abbrev ByteSeq := List Byte

end Sys2Proof
end

