-- ==== Sys2Proof/Config.lean ====
section
/-! DEFINITION. The parameters of the block: those the source or the spec fixes (00_scope.md R6, R7),
those left open (R8, plain data of type `Platform`), and the free values. -/

namespace Sys2Proof

namespace Config

/-- HDR_BYTES, length of the fixed header (R6). -/
def hdrBytes : Nat := 14

/-- MIN_LEAVES, the fewest distinct byte values a tree is built from (R6). -/
def minLeaves : Nat := 2

/-- MAX_LEAVES, capacity of the tree store in leaves (R7). -/
def maxLeaves : Nat := 256

/-- MAX_NODES, capacity of the tree store in nodes (R7). -/
def maxNodes : Nat := 511

/-- MAX_SHAPE_BITS, one shape bit per node (R7). -/
def maxShapeBits : Nat := 511

/-- MAX_CODE_LEN, the longest code (R7). -/
def maxCodeLen : Nat := 255

/-- ACC_BITS, capacity of the bit accumulator: 7 bits carried over and one code (R7). -/
def accBits : Nat := 262

/-- CHUNK_BITS, the drain unit of the bit accumulator (R6). -/
def chunkBits : Nat := 8

/-- FREE VALUE (assumption 6). The n-th draw: what a host read of state that holds no meaning returns
(10_state.md R45, R46; 93 U1, U2, U7). It has no body, so nothing can be proved about it. -/
opaque freeValue : Nat → Word64

/-- FREE VALUE (assumption 7). The byte the platform's IN memory holds at an address nothing has
stored to ("whatever the platform holds", R49). -/
opaque inInit : Nat → Byte

/-- FREE VALUE (assumption 7). The byte the platform's OUT memory holds at an address nothing has
stored to ("whatever the platform holds", R49). -/
opaque outInit : Nat → Byte

/-- FREE VALUE (assumption 11). What reading SHAPE[k] with k at least 64, or LEAVES[k] with k at
least 256, would give: no such register exists, and no reachable state makes the engine read one. -/
opaque beyondBuffer : Nat → Byte

end Config

/-- The open parameters of 00_scope.md R8 but BUS: what the platform fixes. No step changes them.
The oracles in_fault and out_fault are the finite lists of the addresses where they are true
(assumption 4): an address has 64 bits, so every oracle is such a list. -/
structure Platform where
  /-- IN_CAP: how many bytes IN holds, at most 2^64 - 1. -/
  inCap : Word64
  /-- OUT_CAP: how many bytes OUT holds, at most 2^64 - 1. -/
  outCap : Word64
  /-- The IN addresses where in_fault is true. -/
  inFault : List Nat
  /-- The OUT addresses where out_fault is true. -/
  outFault : List Nat
  deriving DecidableEq, Repr

/-- The platform of `State.reset` (assumption 3, DESIGN CHOICE): the largest capacities R8 allows and
no failing address. -/
def Platform.unbounded : Platform where
  inCap := BitVec.allOnes 64
  outCap := BitVec.allOnes 64
  inFault := []
  outFault := []

end Sys2Proof
end

