-- ==== Sys2Proof/Syntax.lean ====
section
/-! DEFINITION. The thirteen commands (30_encoding.md R87, opcode_table.json), one constructor a row.
A command has no operands (R85, R88). -/

namespace Sys2Proof

/-- A command of command set revision 1 (R2, R87). -/
inductive Instr where
  /-- NOP, 0x00000000: nothing (47_control.md R188). -/
  | nop
  /-- CLR, 0x00000001: clear the fault record, the flags and OUT_LEN (R189). -/
  | clr
  /-- FSCAN, 0x00000010: frequency analysis of IN (40_frequency.md R116). -/
  | fscan
  /-- TBUILD, 0x00000011: frequency table to Huffman tree (41_tree_builder.md R121). -/
  | tbuild
  /-- CBUILD, 0x00000012: tree to code table (42_code_table.md R131). -/
  | cbuild
  /-- TSER, 0x00000013: tree to shape bits and leaf bytes (43_tree_serdes.md R139). -/
  | tser
  /-- HEMIT, 0x00000014: header, shape and leaves to OUT (46_container.md R171). -/
  | hemit
  /-- PACK, 0x00000015: source bytes to packed payload, appended to OUT (44_packer.md R153). -/
  | pack
  /-- COMPRESS, 0x0000001F: FSCAN to PACK as one command (R176). -/
  | compress
  /-- HPARSE, 0x00000020: container header, shape and leaves from IN (R173). -/
  | hparse
  /-- TDES, 0x00000021: shape bits and leaf bytes to tree (R142). -/
  | tdes
  /-- UNPACK, 0x00000022: payload to decoded bytes by tree walk (45_unpacker.md R162). -/
  | unpack
  /-- DECOMPRESS, 0x0000002F: HPARSE, TDES, UNPACK as one command (R180). -/
  | decompress
  deriving DecidableEq, Repr

/-- Every command, in the table's order. -/
def Instr.all : List Instr :=
  [.nop, .clr, .fscan, .tbuild, .cbuild, .tser, .hemit, .pack, .compress, .hparse, .tdes, .unpack, .decompress]

/-- The fields of a command word, format C, the only format (R85): bits 31:8, bits 7:4, bits 3:0. -/
structure CmdFields where
  /-- bits 31:8, must be 0 -/
  zero : BitVec 24
  /-- bits 7:4: 0 control, 1 encoder path, 2 decoder path -/
  group : BitVec 4
  /-- bits 3:0, the operation within the group -/
  op : BitVec 4
  deriving DecidableEq, Repr

/-- The fields of a command's word (opcode_table.json, source_fields). -/
def Instr.fields : Instr → CmdFields
  | .nop => ⟨0, 0, 0⟩
  | .clr => ⟨0, 0, 1⟩
  | .fscan => ⟨0, 1, 0⟩
  | .tbuild => ⟨0, 1, 1⟩
  | .cbuild => ⟨0, 1, 2⟩
  | .tser => ⟨0, 1, 3⟩
  | .hemit => ⟨0, 1, 4⟩
  | .pack => ⟨0, 1, 5⟩
  | .compress => ⟨0, 1, 15⟩
  | .hparse => ⟨0, 2, 0⟩
  | .tdes => ⟨0, 2, 1⟩
  | .unpack => ⟨0, 2, 2⟩
  | .decompress => ⟨0, 2, 15⟩

end Sys2Proof
end

