-- ==== Sys2Proof/WellFormed.lean ====
section
/-! DEFINITION. Which command words are well formed (30_encoding.md R85, R89). A command carries no
operand, so the checks are about the three fields of format C; every `Instr` passes them. -/

namespace Sys2Proof

/-- R85: bits 31:8 must be 0. -/
def CmdFields.zeroOk (f : CmdFields) : Bool := f.zero == 0

/-- R85: group 0 is control, 1 the encoder path, 2 the decoder path; no other group is assigned. -/
def CmdFields.groupOk (f : CmdFields) : Bool := f.group.toNat ≤ 2

/-- R87, R89: the operations assigned in each group. -/
def CmdFields.opOk (f : CmdFields) : Bool :=
  match f.group.toNat with
  | 0 => f.op.toNat ≤ 1
  | 1 => f.op.toNat ≤ 5 || f.op.toNat == 15
  | 2 => f.op.toNat ≤ 2 || f.op.toNat == 15
  | _ => false

/-- The fields are those of one of the thirteen commands (R87); everything else is illegal (R89). -/
def CmdFields.wellFormed (f : CmdFields) : Bool := f.zeroOk && f.groupOk && f.opOk

/-- A command is well formed when its fields are. -/
def Instr.wellFormed (i : Instr) : Bool := i.fields.wellFormed

end Sys2Proof
end

