-- ==== Sys2Proof/Decode.lean ====
section
/-! DEFINITION. The decoder of command words, total on every 32-bit word and rejecting by name
(30_encoding.md R85, R86, R89), and after it the encoder, written from the same table (R87). -/

namespace Sys2Proof

/-- Why a word is no command (R89). -/
inductive Illegal where
  /-- a non-zero bit in 31:8 -/
  | highBits
  /-- bits 31:8 are zero and the opcode is 0x02 to 0x0F, 0x16 to 0x1E, 0x23 to 0x2E or 0x30 to 0xFF -/
  | reservedOpcode
  deriving DecidableEq, Repr

/-- The opcode map (R87, opcode_table.json): the whole word of each command. -/
def opcodeTable : List (Word32 × Instr) :=
  [(0x00000000, .nop), (0x00000001, .clr),
   (0x00000010, .fscan), (0x00000011, .tbuild), (0x00000012, .cbuild), (0x00000013, .tser),
   (0x00000014, .hemit), (0x00000015, .pack), (0x0000001F, .compress),
   (0x00000020, .hparse), (0x00000021, .tdes), (0x00000022, .unpack), (0x0000002F, .decompress)]

/-- Decoding (R86): "the whole word is compared"; a word that matches no row is illegal (R89). -/
def decode (w : Word32) : Except Illegal Instr :=
  match opcodeTable.find? (fun row => row.1 == w) with
  | some row => .ok row.2
  | none => .error (if w.extractLsb 31 8 == 0 then .reservedOpcode else .highBits)

/-- The command a written word stands for, if it is one. -/
def decode? (w : Word32) : Option Instr := (decode w).toOption

/-- The word whose fields are `f` (R85). -/
def CmdFields.toWord (f : CmdFields) : Word32 := f.zero ++ f.group ++ f.op

/-- Encoding: the word of a command (R87). -/
def encode : Instr → Word32
  | .nop => 0x00000000
  | .clr => 0x00000001
  | .fscan => 0x00000010
  | .tbuild => 0x00000011
  | .cbuild => 0x00000012
  | .tser => 0x00000013
  | .hemit => 0x00000014
  | .pack => 0x00000015
  | .compress => 0x0000001F
  | .hparse => 0x00000020
  | .tdes => 0x00000021
  | .unpack => 0x00000022
  | .decompress => 0x0000002F

/-- The decoder on an instruction numbered as opcode_table.json numbers it: every row is one 32-bit
word, bits at and above `nbits` are 0 (assumption 16). -/
def decodeTableWord (nbits w : Nat) : Option Instr := decode? (BitVec.ofNat 32 (w % 2 ^ nbits))

end Sys2Proof
end

