-- ==== Sys2Proof/Machine/State.lean ====
section
/-! DEFINITION. The state of the block (10_state.md), its reset value, and the reasons a step can stop. -/

namespace Sys2Proof.Machine

/-- A byte memory (R48): (address, byte) pairs at strictly rising addresses (`Memory.wf` in Ops.lean).
An unlisted address is one nothing has stored to. -/
abbrev Memory := List Host.Cell

/-- A strict binary tree (00_scope.md R17): "every internal node has exactly two children". -/
inductive Tree where
  /-- a leaf, with its symbol -/
  | leaf (sym : Byte)
  /-- an internal node: left (branch label 0) and right (branch label 1) -/
  | node (left right : Tree)
  deriving DecidableEq, Repr

/-- One entry of the CODE file (R23). -/
structure CodeEntry where
  /-- the symbol has a code -/
  present : Bool
  /-- the code's length, 0 to 255 -/
  len : BitVec 8
  /-- the code, first bit leftmost (bit 255), zero beyond `len` (assumption 15) -/
  bits : BitVec 256
  deriving DecidableEq, Repr

/-- `present = 0`; then `len = 0` and `bits = []` (R23). -/
def CodeEntry.absent : CodeEntry := ⟨false, 0, 0⟩

/-- STATUS (R30), by field; bits 3 and 31:14 are reserved, read 0 and are not stored (assumption 14).
`Status.toWord` (Flags.lean) is the 32-bit word. -/
structure Status where
  /-- bit 0 -/
  busy : Bool
  /-- bit 1 -/
  done : Bool
  /-- bit 2, sticky -/
  err : Bool
  /-- bits 7:4: the stage running, or the stage that faulted (R41) -/
  phase : BitVec 4
  /-- bit 8, FREQ_V -/
  freqV : Bool
  /-- bit 9, TREE_V -/
  treeV : Bool
  /-- bit 10, CODE_V -/
  codeV : Bool
  /-- bit 11, SER_V -/
  serV : Bool
  /-- bit 12, HDRW -/
  hdrw : Bool
  /-- bit 13, PARSED -/
  parsed : Bool
  deriving DecidableEq, Repr

/-- STATUS after reset and after CLR: 0 (R49, R189). -/
def Status.zero : Status := ⟨false, false, false, 0, false, false, false, false, false, false⟩

/-- The nine stages (R41). -/
inductive Stage where
  | fscan | tbuild | cbuild | tser | hemit | pack | hparse | tdes | unpack
  deriving DecidableEq, Repr

/-- The fifteen fault causes (60_exceptions.md R207). They are not `Fault`s of this model: fault
entry (R225) is a next state. -/
inductive Cause where
  | insufficientAlphabet | hdrEof | hdrField | treeCapacity | shapeUnderrun | leafUnderrun
  | treeLeftover | absentChild | payloadEof | ioRead | ioWrite | illegalCmd | sequence | noCode
  | inputChanged
  deriving DecidableEq, Repr

/-- What the world outside the block does (R20, R28, R48, R91, R246, R247): the inputs of the machine. -/
inductive HostAction where
  /-- a register write: number and value (R28) -/
  | writeReg (n : Nat) (v : Word64)
  /-- a register read (R28) -/
  | readReg (n : Nat)
  /-- the host stores a byte in IN memory (R48) -/
  | storeIn (a : Word64) (b : Byte)
  /-- the host reads a byte of IN memory (R48) -/
  | loadIn (a : Word64)
  /-- something outside the block stores a byte in OUT memory; the host can, "and must not" (R251) -/
  | storeOut (a : Word64) (b : Byte)
  /-- the host reads a byte of OUT memory (R48) -/
  | loadOut (a : Word64)
  /-- reset while no command runs (R246) -/
  | reset
  /-- the host writes `v` to CMD and the block is reset while the command runs, when it has appended
  `k` bytes to OUT (R247) -/
  | resetDuring (v : Word64) (k : Nat)
  deriving DecidableEq, Repr

/-- The whole state of the machine (R21). -/
structure State where
  /-- STATUS, register 0x001 (R30) -/
  status : Status
  /-- ERRCODE, register 0x002 (R33) -/
  errCode : BitVec 8
  /-- ERRINFO, register 0x003 (R34) -/
  errInfo : Word64
  /-- IN_LEN, register 0x004 (R31) -/
  inLen : Word64
  /-- OUT_LEN, register 0x005 (R32) -/
  outLen : Word64
  /-- ORIG_SIZE, register 0x006 (R35) -/
  origSize : Word64
  /-- SHAPE_BITLEN, register 0x007 (R36) -/
  shapeBitLen : BitVec 16
  /-- SHAPE_BYTELEN, register 0x008 (R37) -/
  shapeByteLen : BitVec 16
  /-- LEAF_COUNT, register 0x009 (R38) -/
  leafCount : BitVec 16
  /-- PAYLOAD_OFF, register 0x00A (R39) -/
  payloadOff : Word64
  /-- FREQ[0..255] (R22) -/
  freq : Vector Word64 256
  /-- CODE[0..255] (R23) -/
  code : Vector CodeEntry 256
  /-- SHAPE[0..63] (R24) -/
  shape : Vector Byte 64
  /-- LEAVES[0..255] (R25) -/
  leaves : Vector Byte 256
  /-- the hidden tree store, TREE (R43) -/
  tree : Tree
  /-- IN memory (R48) -/
  inMem : Memory
  /-- OUT memory (R48) -/
  outMem : Memory
  /-- the open parameters (R8); fixed (assumption 3) -/
  platform : Platform
  /-- MODEL'S OWN (assumption 1): what the outside world does next, first action first -/
  host : List HostAction
  /-- MODEL'S OWN (assumption 19): what the host's last read returned -/
  hostRead : Option Word64
  /-- MODEL'S OWN (assumption 6): how many draws have been made -/
  draws : Nat
  deriving DecidableEq, Repr

/-- Why a step stops without a next state. No command raises one: the block's own faults (R207) are
next states. -/
inductive Fault where
  /-- SAFE (assumption 9). Raised by the host actions `storeIn` and `loadIn` at or above IN_CAP: IN has
  no such byte (R48). -/
  | noInByte
  /-- SAFE (assumption 9). Raised by the host actions `storeOut` and `loadOut` at or above OUT_CAP: OUT
  has no such byte (R48). -/
  | noOutByte
  deriving DecidableEq, Repr

/-- Why a step is refused. -/
inductive Refusal where
  /-- SAFE. Raised by `exec` for a command that has no meaning yet; no arm of this model raises it. -/
  | notModelled (mnemonic : String)
  deriving DecidableEq, Repr

/-- The machine right after reset (R49, R246). STATUS, ERRCODE, ERRINFO, IN_LEN and OUT_LEN are 0 by
R49; the registers R49 leaves unspecified hold the values of assumption 5 (DESIGN CHOICE: zero, and
a leaf of symbol 0 in the tree store); nothing is listed in the memories, which the block does not
reset; no host action is pending (assumption 1). -/
def State.reset : State where
  status := Status.zero
  errCode := 0
  errInfo := 0
  inLen := 0
  outLen := 0
  origSize := 0
  shapeBitLen := 0
  shapeByteLen := 0
  leafCount := 0
  payloadOff := 0
  freq := Vector.replicate 256 0
  code := Vector.replicate 256 CodeEntry.absent
  shape := Vector.replicate 64 0
  leaves := Vector.replicate 256 0
  tree := .leaf 0
  inMem := []
  outMem := []
  platform := Platform.unbounded
  host := []
  hostRead := none
  draws := 0

end Sys2Proof.Machine
end

