-- ==== Sys2Proof/Machine/Flags.lean ====
section
/-! DEFINITION. STATUS as a word, the stage numbers, the flag table of 10_state.md R40, and the codes of
the fault causes (60_exceptions.md R207). -/

namespace Sys2Proof.Machine

/-- STATUS as the host reads it (R30): the reserved bits 3 and 31:14 read 0. -/
def Status.toWord (st : Status) : Word32 :=
  (0 : BitVec 18) ++ BitVec.ofBool st.parsed ++ BitVec.ofBool st.hdrw ++ BitVec.ofBool st.serV
    ++ BitVec.ofBool st.codeV ++ BitVec.ofBool st.treeV ++ BitVec.ofBool st.freqV ++ st.phase
    ++ (0 : BitVec 1) ++ BitVec.ofBool st.err ++ BitVec.ofBool st.done ++ BitVec.ofBool st.busy

/-- The stage numbers (R41). -/
def Stage.number : Stage → BitVec 4
  | .fscan => 1
  | .tbuild => 2
  | .cbuild => 3
  | .tser => 4
  | .hemit => 5
  | .pack => 6
  | .hparse => 7
  | .tdes => 8
  | .unpack => 9

/-- The stage command of a stage (R87). -/
def Stage.command : Stage → Instr
  | .fscan => .fscan
  | .tbuild => .tbuild
  | .cbuild => .cbuild
  | .tser => .tser
  | .hemit => .hemit
  | .pack => .pack
  | .hparse => .hparse
  | .tdes => .tdes
  | .unpack => .unpack

/-- R40, column "requires". -/
def Stage.requires : Stage → Status → Bool
  | .fscan, _ => true
  | .tbuild, st => st.freqV
  | .cbuild, st => st.treeV
  | .tser, st => st.treeV
  | .hemit, st => st.serV && st.freqV
  | .pack, st => st.codeV && st.hdrw
  | .hparse, _ => true
  | .tdes, st => st.serV
  | .unpack, st => st.treeV && st.parsed

/-- R40, column "clears at start". -/
def Stage.clears : Stage → Status → Status
  | .fscan, st =>
    { st with freqV := false, treeV := false, codeV := false, serV := false, hdrw := false, parsed := false }
  | .tbuild, st => { st with treeV := false, codeV := false, serV := false, hdrw := false, parsed := false }
  | .cbuild, st => { st with codeV := false }
  | .tser, st => { st with serV := false, hdrw := false }
  | .hemit, st => { st with hdrw := false }
  | .pack, st => { st with hdrw := false }
  | .hparse, st =>
    { st with freqV := false, treeV := false, codeV := false, serV := false, hdrw := false, parsed := false }
  | .tdes, st => { st with treeV := false, codeV := false }
  | .unpack, st => st

/-- R40, column "sets at completion". -/
def Stage.sets : Stage → Status → Status
  | .fscan, st => { st with freqV := true }
  | .tbuild, st => { st with treeV := true }
  | .cbuild, st => { st with codeV := true }
  | .tser, st => { st with serV := true }
  | .hemit, st => { st with hdrw := true }
  | .pack, st => st
  | .hparse, st => { st with serV := true, parsed := true }
  | .tdes, st => { st with treeV := true }
  | .unpack, st => st

/-- ERRCODE of a cause (R207): the kind in bits 7 to 4, the cause in bits 3 to 0 (R206). -/
def Cause.code : Cause → BitVec 8
  | .insufficientAlphabet => 0x10
  | .hdrEof => 0x20
  | .hdrField => 0x21
  | .treeCapacity => 0x22
  | .shapeUnderrun => 0x23
  | .leafUnderrun => 0x24
  | .treeLeftover => 0x25
  | .absentChild => 0x26
  | .payloadEof => 0x27
  | .ioRead => 0x30
  | .ioWrite => 0x31
  | .illegalCmd => 0x40
  | .sequence => 0x41
  | .noCode => 0x42
  | .inputChanged => 0x43

end Sys2Proof.Machine
end

