-- ==== Sys2Proof/Machine/Operands.lean ====
section
/-! DEFINITION. Bits to bytes and back, big-endian integers, and the reads of the fixed operands a
command has (00_scope.md R11, R12; 30_encoding.md R88, R90). -/

namespace Sys2Proof.Machine

/-- `ceil8(n) = (n + 7) div 8` (R9). -/
def ceil8 (n : Nat) : Nat := (n + 7) / 8

/-- The number a bit sequence spells, its first bit the most significant. -/
def natOfBits (q : BitSeq) : Nat := q.foldl (fun n b => 2 * n + b.toNat) 0

/-- `bits8(B)`: most significant bit first (R11). -/
def bits8 (b : Byte) : BitSeq :=
  [b.getLsbD 7, b.getLsbD 6, b.getLsbD 5, b.getLsbD 4, b.getLsbD 3, b.getLsbD 2, b.getLsbD 1, b.getLsbD 0]

/-- `byte8(q)` for a bit sequence of length 8: `B[7-j] = q[j]` (R11). -/
def byte8 (q : BitSeq) : Byte := BitVec.ofNat 8 (natOfBits q)

/-- The first `n` whole bytes of a bit sequence, in order. -/
def wholeBytes : Nat → BitSeq → ByteSeq
  | 0, _ => []
  | n + 1, q => byte8 (q.take Config.chunkBits) :: wholeBytes n (q.drop Config.chunkBits)

/-- `zeros(n)` (R10). -/
def zeros (n : Nat) : BitSeq := List.replicate n false

/-- `pack(s)`: "the bits in order, eight to a byte, first bit in bit 7, the last byte padded with `0`
bits" (R11). -/
def pack (q : BitSeq) : ByteSeq := wholeBytes (ceil8 q.length) (q ++ zeros (8 * ceil8 q.length - q.length))

/-- `be(n, v)`: the n-byte big-endian sequence of v (R12). -/
def be (n v : Nat) : ByteSeq := (List.range n).map fun k => BitVec.ofNat 8 (v / 256 ^ (n - 1 - k))

/-- `ube(b)`: the unsigned number a big-endian byte sequence spells (R12). -/
def ube (b : ByteSeq) : Nat := b.foldl (fun n x => 256 * n + x.toNat) 0

/-- SHAPE[k] (R24). There is no register SHAPE[k] for k at least 64 (assumption 11). -/
def State.shapeByte (s : State) (k : Nat) : Byte := (s.shape[k]?).getD (Config.beyondBuffer k)

/-- LEAVES[k] (R25). There is no register LEAVES[k] for k at least 256 (assumption 11). -/
def State.leafByte (s : State) (k : Nat) : Byte := (s.leaves[k]?).getD (Config.beyondBuffer k)

/-- `bit_at(SHAPE, i)` (R11, R24). -/
def State.shapeBit (s : State) (i : Nat) : Bool := (s.shapeByte (i / 8)).getLsbD (7 - i % 8)

/-- FREQ[b] (R22). -/
def State.freqOf (s : State) (b : Byte) : Word64 := s.freq[b.toNat]'(by have := b.isLt; omega)

/-- CODE[b] (R23). -/
def State.codeOf (s : State) (b : Byte) : CodeEntry := s.code[b.toNat]'(by have := b.isLt; omega)

/-- The entry of a symbol whose code is the bit sequence `path`: present, its length, its bits left
justified in the 256-bit field (R23, R131). -/
def CodeEntry.ofPath (path : BitSeq) : CodeEntry where
  present := true
  len := BitVec.ofNat 8 path.length
  bits := BitVec.ofNat 256 (natOfBits path * 2 ^ (256 - path.length))

/-- The bit sequence of an entry, of length `len` (R23): code bit i is bit 255 - i of the field. -/
def CodeEntry.seq (e : CodeEntry) : BitSeq := (List.range e.len.toNat).map fun i => e.bits.getLsbD (255 - i)

/-- `leaves(t)`: the symbols in pre-order (R17). -/
def Tree.leaves : Tree → ByteSeq
  | .leaf s => [s]
  | .node l r => l.leaves ++ r.leaves

/-- `nodes(t)` (R17). -/
def Tree.nodes : Tree → Nat
  | .leaf _ => 1
  | .node l r => 1 + l.nodes + r.nodes

/-- `depth(t)` (R17). -/
def Tree.depth : Tree → Nat
  | .leaf _ => 0
  | .node l r => 1 + max l.depth r.depth

/-- `weight(t)`, given the frequency table (R44), FREQ_W bits wide (R7, R196). -/
def State.weight (s : State) : Tree → Weight
  | .leaf b => s.freqOf b
  | .node l r => s.weight l + s.weight r

end Sys2Proof.Machine
end

