-- ==== Sys2Proof/Machine/Ops.lean ====
section
/-! DEFINITION. The shared operations: byte memories, runs that may end in a fault, fault entry and the
return from it (60_exceptions.md R225, R228), MemRead, MemWrite and emit (20_memory.md R66 to R68),
and the frame every stage and macro command runs in (47_control.md R187). -/

namespace Sys2Proof.Machine

/-! ### Byte memories (R48, R65) -/

/-- Strictly rising from `lo` upward. -/
def Memory.risingFrom : Nat → Memory → Bool
  | _, [] => true
  | lo, (a, _) :: m => decide (lo ≤ a) && Memory.risingFrom (a + 1) m

/-- The canonical form: addresses strictly rising. An unlisted address holds no byte known to the
model (`read?` answers none), so no entry equals what an unlisted address reads as. -/
def Memory.wf (m : Memory) : Bool := Memory.risingFrom 0 m

/-- The byte last stored at an address, if any was. -/
def Memory.read? : Memory → Nat → Option Byte
  | [], _ => none
  | (a, b) :: m, x => if a = x then some b else Memory.read? m x

/-- Store one byte (R62, R64), keeping the canonical form. -/
def Memory.write : Memory → Nat → Byte → Memory
  | [], x, v => [(x, v)]
  | (a, b) :: m, x, v =>
    if x < a then (x, v) :: (a, b) :: m
    else if x = a then (a, v) :: m
    else (a, b) :: Memory.write m x v

/-- Copy the bytes of `src` at addresses `at'` to `at' + n - 1` that `src` holds. -/
def Memory.copyFrom (src : Memory) : Nat → Nat → Memory → Memory
  | 0, _, m => m
  | n + 1, at', m =>
    Memory.copyFrom src n (at' + 1) (match src.read? at' with | some b => m.write at' b | none => m)

/-- IN[a]: the byte last stored there (R66), or the platform's own (assumption 7). -/
def State.inByte (s : State) (a : Nat) : Byte := (s.inMem.read? a).getD (Config.inInit a)

/-- OUT[a]: the byte last stored there (R67), or the platform's own (assumption 7). -/
def State.outByte (s : State) (a : Nat) : Byte := (s.outMem.read? a).getD (Config.outInit a)

/-! ### Runs -/

/-- The end of a piece of a command: it completed with a value, or a `raise` ended the command, and
the state is the one fault entry left (R15). -/
inductive Run (α : Type) where
  | ok (a : α) (s : State)
  | raised (s : State)
  deriving DecidableEq, Repr

/-- "Nothing after a `raise` in the pseudocode is executed" (R15). -/
def Run.andThen {α β : Type} : Run α → (α → State → Run β) → Run β
  | .ok a s, k => k a s
  | .raised s, _ => .raised s

/-- Fault entry, the block's taking of an exception (R225): the record is written, ERR is set, BUSY and
DONE are cleared; PHASE and the validity flags keep their values. -/
def faultEntry (c : Cause) (info : Word64) (s : State) : State :=
  { s with
    errCode := c.code
    errInfo := info
    status := { s.status with err := true, busy := false, done := false } }

/-- `raise X(info)` (R15, R225); every info is a number below 2^64. -/
def raise {α : Type} (c : Cause) (info : Nat) (s : State) : Run α :=
  .raised (faultEntry c (BitVec.ofNat 64 info) s)

/-- do_CLR, the block's return from the faulted state (R189, R228): STATUS, ERRCODE, ERRINFO and OUT_LEN
become 0. -/
def clearRecord (s : State) : State :=
  { s with status := Status.zero, errCode := 0, errInfo := 0, outLen := 0 }

/-! ### The access primitives -/

/-- MemRead(a, 1) (R66). -/
def memRead (a : Nat) (s : State) : Run Byte :=
  if s.platform.inCap.toNat ≤ a ∨ a ∈ s.platform.inFault then raise .ioRead a s
  else .ok (s.inByte a) s

/-- MemWrite(a, 1, [b]) (R67): "a faulting write stores nothing". -/
def memWrite (a : Nat) (b : Byte) (s : State) : Run Unit :=
  if s.platform.outCap.toNat ≤ a ∨ a ∈ s.platform.outFault then raise .ioWrite a s
  else .ok () { s with outMem := s.outMem.write a b }

/-- `emit(b)` (R68): store at OUT_LEN, then count it. -/
def emit (b : Byte) (s : State) : Run Unit :=
  (memWrite s.outLen.toNat b s).andThen fun _ s => .ok () { s with outLen := s.outLen + 1 }

/-- `emit_all(bs)` (R68). -/
def emitAll : ByteSeq → State → Run Unit
  | [], s => .ok () s
  | b :: bs, s => (emit b s).andThen fun _ s => emitAll bs s

/-- The bytes IN[a], IN[a + 1], ... of `n` reads in ascending order (R69, R71). -/
def readBytes : Nat → Nat → State → Run ByteSeq
  | 0, _, s => .ok [] s
  | n + 1, a, s =>
    (memRead a s).andThen fun b s => (readBytes n (a + 1) s).andThen fun bs s => .ok (b :: bs) s

/-! ### Stages and the frame of a command -/

/-- The start of a stage body: the precondition check, "its first action", raising Sequence with the
word of the stage command, then the flag clears (R40, R220). -/
def openStage (g : Stage) (s : State) : Run Unit :=
  if g.requires s.status then .ok () { s with status := g.clears s.status }
  else raise .sequence (encode g.command).toNat s

/-- The end of a stage body: the flags it sets at completion (R40). -/
def closeStage (g : Stage) (s : State) : Run Unit := .ok () { s with status := g.sets s.status }

/-- `STATUS.PHASE <- stage` (R16, R41), then the stage body. -/
def runStage (g : Stage) (body : State → Run Unit) (s : State) : Run Unit :=
  body { s with status := { s.status with phase := g.number } }

/-- The frame of a stage or macro command (R187): DONE is cleared and BUSY set; at completion PHASE and
BUSY are cleared and DONE is set; after a fault the state is the one fault entry left. -/
def runCommand (body : State → Run Unit) (s : State) : Host.Outcome State Fault Refusal :=
  match body { s with status := { s.status with done := false, busy := true } } with
  | .ok _ s' => .next { s' with status := { s'.status with phase := 0, busy := false, done := true } }
  | .raised s' => .next s'

end Sys2Proof.Machine
end

