-- ==== Sys2Proof/Machine/CodeTable.lean ====
section
/-! DEFINITION. The code table builder, CBUILD (42_code_table.md R131). -/

namespace Sys2Proof.Machine

/-- walk(t, path) (R131): left child first, a leaf visited later overwriting (92 D27). -/
def walk : Tree → BitSeq → Vector CodeEntry 256 → Vector CodeEntry 256
  | .leaf b, path, c => c.set b.toNat (CodeEntry.ofPath path) (by have := b.isLt; omega)
  | .node l r, path, c => walk r (path ++ [true]) (walk l (path ++ [false]) c)

/-- The code table of a tree: every entry cleared, then the walk from the root (R131). -/
def codeTable (t : Tree) : Vector CodeEntry 256 := walk t [] (Vector.replicate 256 CodeEntry.absent)

/-- stage_CBUILD (R131). -/
def stageCbuild (s : State) : Run Unit :=
  (openStage .cbuild s).andThen fun _ s => closeStage .cbuild { s with code := codeTable s.tree }

/-- CBUILD, 0x00000012. -/
def execCbuild (s : State) : Host.Outcome State Fault Refusal := runCommand (runStage .cbuild stageCbuild) s

end Sys2Proof.Machine
end

