-- ==== Sys2Proof/Machine/Frequency.lean ====
section
/-! DEFINITION. Frequency analysis, FSCAN (40_frequency.md R116). -/

namespace Sys2Proof.Machine

/-- `FREQ[b] <- FREQ[b] + 1`. -/
def countByte (b : Byte) (s : State) : State :=
  { s with freq := s.freq.set b.toNat (s.freqOf b + 1) (by have := b.isLt; omega) }

/-- The scan of `n` bytes from address `i`. -/
def scanBytes : Nat → Nat → State → Run Unit
  | 0, _, s => .ok () s
  | n + 1, i, s => (memRead i s).andThen fun b s => scanBytes n (i + 1) (countByte b s)

/-- stage_FSCAN (R116). -/
def stageFscan (s : State) : Run Unit :=
  (openStage .fscan s).andThen fun _ s =>
  (scanBytes s.inLen.toNat 0 { s with freq := Vector.replicate 256 0 }).andThen fun _ s =>
  closeStage .fscan { s with origSize := s.inLen }

/-- FSCAN, 0x00000010. -/
def execFscan (s : State) : Host.Outcome State Fault Refusal := runCommand (runStage .fscan stageFscan) s

end Sys2Proof.Machine
end

