-- ==== Sys2Proof/Machine/Packer.lean ====
section
/-! DEFINITION. The bitstream packer, PACK (44_packer.md R151, R153). -/

namespace Sys2Proof.Machine

/-- append_bits(q) (R151). The accumulator holds ACC_BITS bits (R7); PACK appends one code to at most 7
carried bits, so the capacity is never exceeded (R152). -/
def appendBits (acc q : BitSeq) : BitSeq := (acc ++ q).take Config.accBits

/-- The bytes drain() emits: `|acc| div 8` whole bytes from the front (R151). -/
def drained (acc : BitSeq) : ByteSeq := wholeBytes (acc.length / Config.chunkBits) acc

/-- What drain() leaves in the accumulator, at most 7 bits (R151, R152). -/
def carried (acc : BitSeq) : BitSeq := acc.drop (Config.chunkBits * (acc.length / Config.chunkBits))

/-- flush() (R151): the remaining partial chunk, if any, padded with `0` bits. -/
def flush (acc : BitSeq) (s : State) : Run Unit :=
  if acc.length = 0 then .ok () s
  else emit (byte8 (acc ++ zeros (Config.chunkBits - acc.length))) s

/-- The pack of `n` source bytes from address `i`, `acc` being the accumulator (R153). -/
def packBytes : Nat → Nat → BitSeq → State → Run Unit
  | 0, _, acc, s => flush acc s
  | n + 1, i, acc, s =>
    (memRead i s).andThen fun b s =>
    if ¬ (s.codeOf b).present then raise .noCode i s
    else
      (emitAll (drained (appendBits acc (s.codeOf b).seq)) s).andThen fun _ s =>
      packBytes n (i + 1) (carried (appendBits acc (s.codeOf b).seq)) s

/-- stage_PACK (R153). -/
def stagePack (s : State) : Run Unit :=
  (openStage .pack s).andThen fun _ s =>
  if s.inLen ≠ s.origSize then raise .inputChanged s.inLen.toNat s
  else (packBytes s.inLen.toNat 0 [] s).andThen fun _ s => closeStage .pack s

/-- PACK, 0x00000015. -/
def execPack (s : State) : Host.Outcome State Fault Refusal := runCommand (runStage .pack stagePack) s

end Sys2Proof.Machine
end

