-- ==== Sys2Proof/Machine/TreeBuilder.lean ====
section
/-! DEFINITION. The tree builder, TBUILD (41_tree_builder.md R121 to R123). -/

namespace Sys2Proof.Machine

/-- An entry of the priority queue (R122). -/
structure Entry where
  /-- "a 64-bit unsigned weight" -/
  w : Weight
  /-- the sequence number, 0 to 510 -/
  seq : Nat
  /-- the tree -/
  t : Tree
  deriving DecidableEq, Repr

/-- The order of the queue (R123): x is before y. "Comparison of weights is unsigned 64-bit" (R197). -/
def Entry.before (x y : Entry) : Bool := decide (x.w < y.w) || (decide (x.w = y.w) && decide (x.seq < y.seq))

/-- The queue is a list in the order of R123 ("a model may use a sorted list", R122); insertion keeps
it so, and `extract_min` takes the head. -/
def enqueue (x : Entry) : List Entry → List Entry
  | [] => [x]
  | y :: q => if x.before y then x :: y :: q else y :: enqueue x q

/-- S: the byte values with a non-zero count, ascending (R121). -/
def State.symbols (s : State) : ByteSeq :=
  ((List.range 256).map (BitVec.ofNat 8)).filter fun b => decide (0 < (s.freqOf b).toNat)

/-- Step 1: one leaf per symbol, numbered from `k` in ascending byte value (R121, R123). -/
def enqueueLeaves (s : State) : Nat → ByteSeq → List Entry → List Entry
  | _, [], q => q
  | k, b :: bs, q => enqueueLeaves s (k + 1) bs (enqueue ⟨s.freqOf b, k, .leaf b⟩ q)

/-- Step 2: at most `fuel` merges, the next sequence number being `next`; the first-removed entry
becomes the left child (R121, R125). A queue of n entries takes n - 1 merges. -/
def mergeQueue : Nat → Nat → List Entry → List Entry
  | 0, _, q => q
  | fuel + 1, next, a :: b :: q =>
    mergeQueue fuel (next + 1) (enqueue ⟨a.w + b.w, next, .node a.t b.t⟩ q)
  | _ + 1, _, q => q

/-- Steps 1 to 3: the queue's last entry holds the root; none when no symbol occurs (R121). -/
def State.builtTree (s : State) : Option Tree :=
  (mergeQueue (s.symbols.length - 1) s.symbols.length (enqueueLeaves s 0 s.symbols [])).head?.map Entry.t

/-- stage_TBUILD (R121). -/
def stageTbuild (s : State) : Run Unit :=
  (openStage .tbuild s).andThen fun _ s =>
  if s.symbols.length < Config.minLeaves then raise .insufficientAlphabet s.symbols.length s
  else
    match s.builtTree with
    | some t => closeStage .tbuild { s with tree := t }
    | none => raise .insufficientAlphabet s.symbols.length s

/-- TBUILD, 0x00000011. -/
def execTbuild (s : State) : Host.Outcome State Fault Refusal := runCommand (runStage .tbuild stageTbuild) s

end Sys2Proof.Machine
end

