-- ==== Sys2Proof/Machine/TreeSerdes.lean ====
section
/-! DEFINITION. The tree serializer and deserializer, TSER and TDES (43_tree_serdes.md R138 to R142). -/

namespace Sys2Proof.Machine

/-- `sh(t)` (30_encoding.md R104), which is `ser(t).shape` (R138): internal = 1, leaf = 0, pre-order. -/
def Tree.shapeBits : Tree → BitSeq
  | .leaf _ => [false]
  | .node l r => true :: (l.shapeBits ++ r.shapeBits)

/-- `X[k] <- bs[0], X[k+1] <- bs[1], ...`; there is no element past the buffer's end to write
(assumption 11). -/
def overwrite {n : Nat} : Nat → ByteSeq → Vector Byte n → Vector Byte n
  | _, [], v => v
  | k, b :: bs, v => overwrite (k + 1) bs (v.setIfInBounds k b)

/-- stage_TSER (R139): elements past the end of the sequences "are left as they were". -/
def stageTser (s : State) : Run Unit :=
  (openStage .tser s).andThen fun _ s =>
  let shape := s.tree.shapeBits
  let bytes := pack shape
  let lv := s.tree.leaves
  closeStage .tser
    { s with
      shape := overwrite 0 bytes s.shape
      leaves := overwrite 0 lv s.leaves
      shapeBitLen := BitVec.ofNat 16 shape.length
      shapeByteLen := BitVec.ofNat 16 bytes.length
      leafCount := BitVec.ofNat 16 lv.length }

/-- TSER, 0x00000013. -/
def execTser (s : State) : Host.Outcome State Fault Refusal := runCommand (runStage .tser stageTser) s

/-- What des() gives (R141): a tree with the next positions sp and lp, or a cause and its info. -/
inductive Parsed where
  | tree (t : Tree) (sp lp : Nat)
  | bad (c : Cause) (info : Nat)
  deriving DecidableEq, Repr

/-- des() at positions `sp` and `lp` (R141). Each call takes one shape bit or raises, so a fuel of
SHAPE_BITLEN - sp is enough: a call whose fuel is used up has no bit left and raises ShapeUnderrun. -/
def des (s : State) : Nat → Nat → Nat → Parsed
  | 0, sp, _ => .bad .shapeUnderrun sp
  | fuel + 1, sp, lp =>
    if ¬ sp < s.shapeBitLen.toNat then .bad .shapeUnderrun sp
    else if s.shapeBit sp then
      match des s fuel (sp + 1) lp with
      | .bad c info => .bad c info
      | .tree l sp' lp' =>
        match des s fuel sp' lp' with
        | .bad c info => .bad c info
        | .tree r sp'' lp'' => .tree (.node l r) sp'' lp''
    else if ¬ lp < s.leafCount.toNat then .bad .leafUnderrun lp
    else .tree (.leaf (s.leafByte lp)) (sp + 1) (lp + 1)

/-- stage_TDES (R142). -/
def stageTdes (s : State) : Run Unit :=
  (openStage .tdes s).andThen fun _ s =>
  if ¬ (s.shapeBitLen.toNat ≤ Config.maxShapeBits ∧ s.leafCount.toNat ≤ Config.maxLeaves) then
    raise .treeCapacity 0 s
  else
    match des s s.shapeBitLen.toNat 0 0 with
    | .bad c info => raise c info s
    | .tree t sp lp =>
      if ¬ (sp = s.shapeBitLen.toNat ∧ lp = s.leafCount.toNat) then raise .treeLeftover sp s
      else closeStage .tdes { s with tree := t }

/-- TDES, 0x00000021. -/
def execTdes (s : State) : Host.Outcome State Fault Refusal := runCommand (runStage .tdes stageTdes) s

end Sys2Proof.Machine
end

