-- ==== Sys2Proof/Machine/Unpacker.lean ====
section
/-! DEFINITION. The bitstream unpacker, the huffman_decoder, UNPACK (45_unpacker.md R161, R162). -/

namespace Sys2Proof.Machine

/-- step(cur, bit) (R161), `at'` being the IN address of the byte being expanded; the next cursor. -/
def walkBit (at' : Nat) (cur : Tree) (bit : Bool) (s : State) : Run Tree :=
  match cur with
  | .leaf _ => raise .absentChild at' s
  | .node l r =>
    match if bit then r else l with
    | .leaf b => (emit b s).andThen fun _ s => .ok s.tree s
    | .node l' r' => .ok (.node l' r') s

/-- The bits of one payload byte, stopping "the instant" OUT_LEN equals ORIG_SIZE (R162). -/
def walkBits (at' : Nat) : BitSeq → Tree → State → Run Tree
  | [], cur, s => .ok cur s
  | bit :: bits, cur, s =>
    if s.outLen = s.origSize then .ok cur s
    else (walkBit at' cur bit s).andThen fun cur s => walkBits at' bits cur s

/-- The loop of R162 from IN address `pos`. The fuel is IN_LEN - pos, one payload byte each, so a loop
whose fuel is used up has `pos` at or above IN_LEN and raises PayloadEof if a byte is still needed. -/
def unpackBytes : Nat → Nat → Tree → State → Run Unit
  | 0, pos, _, s => if s.outLen.toNat < s.origSize.toNat then raise .payloadEof pos s else .ok () s
  | fuel + 1, pos, cur, s =>
    if ¬ s.outLen.toNat < s.origSize.toNat then .ok () s
    else if ¬ pos < s.inLen.toNat then raise .payloadEof pos s
    else
      (memRead pos s).andThen fun b s =>
      (walkBits pos (bits8 b) cur s).andThen fun cur s => unpackBytes fuel (pos + 1) cur s

/-- stage_UNPACK (R162). -/
def stageUnpack (s : State) : Run Unit :=
  (openStage .unpack s).andThen fun _ s =>
  (unpackBytes (s.inLen.toNat - s.payloadOff.toNat) s.payloadOff.toNat s.tree { s with outLen := 0 }).andThen
    fun _ s => closeStage .unpack s

/-- UNPACK, 0x00000022. -/
def execUnpack (s : State) : Host.Outcome State Fault Refusal := runCommand (runStage .unpack stageUnpack) s

end Sys2Proof.Machine
end

