-- ==== Sys2Proof/Machine/Container.lean ====
section
/-! DEFINITION. The container format commands HEMIT and HPARSE (46_container.md R171, R173) and the macro
commands COMPRESS and DECOMPRESS (R175, R176, R180). -/

namespace Sys2Proof.Machine

/-- The header of R95: four big-endian fields of 8, 2, 2 and 2 bytes (R96 to R99). -/
def State.header (s : State) : ByteSeq :=
  be 8 s.origSize.toNat ++ be 2 s.shapeBitLen.toNat ++ be 2 s.shapeByteLen.toNat ++ be 2 s.leafCount.toNat

/-- The bytes HEMIT emits, in order: header, shape bytes, leaf bytes (R171). -/
def State.headerAndTree (s : State) : ByteSeq :=
  s.header ++ (List.range s.shapeByteLen.toNat).map s.shapeByte ++ (List.range s.leafCount.toNat).map s.leafByte

/-- stage_HEMIT (R171). -/
def stageHemit (s : State) : Run Unit :=
  (openStage .hemit s).andThen fun _ s =>
  (emitAll s.headerAndTree { s with outLen := 0 }).andThen fun _ s => closeStage .hemit s

/-- HEMIT, 0x00000014. -/
def execHemit (s : State) : Host.Outcome State Fault Refusal := runCommand (runStage .hemit stageHemit) s

/-- `[SHAPE[k + j]] <- MemRead(a + j, 1)` for j from 0 to n - 1 (R173). -/
def loadShape : Nat → Nat → Nat → State → Run Unit
  | 0, _, _, s => .ok () s
  | n + 1, k, a, s =>
    (memRead a s).andThen fun b s => loadShape n (k + 1) (a + 1) { s with shape := s.shape.setIfInBounds k b }

/-- `[LEAVES[k + j]] <- MemRead(a + j, 1)` for j from 0 to n - 1 (R173). -/
def loadLeaves : Nat → Nat → Nat → State → Run Unit
  | 0, _, _, s => .ok () s
  | n + 1, k, a, s =>
    (memRead a s).andThen fun b s => loadLeaves n (k + 1) (a + 1) { s with leaves := s.leaves.setIfInBounds k b }

/-- The four header registers from the fixed header's bytes (R173, R96 to R99). -/
def setHeader (h : ByteSeq) (s : State) : State :=
  { s with
    origSize := BitVec.ofNat 64 (ube (h.take 8))
    shapeBitLen := BitVec.ofNat 16 (ube ((h.drop 8).take 2))
    shapeByteLen := BitVec.ofNat 16 (ube ((h.drop 10).take 2))
    leafCount := BitVec.ofNat 16 (ube ((h.drop 12).take 2)) }

/-- `need`, the length of header and serialized tree (R173); the payload starts there (R39). -/
def State.treeEnd (s : State) : Nat := Config.hdrBytes + s.shapeByteLen.toNat + s.leafCount.toNat

/-- HPARSE after the fixed header has been read: the checks in order, then the copies (R173). -/
def parseTree (s : State) : Run Unit :=
  if ¬ s.shapeBitLen.toNat ≤ 8 * s.shapeByteLen.toNat then raise .hdrField s.shapeBitLen.toNat s
  else if ¬ (s.shapeBitLen.toNat ≤ Config.maxShapeBits ∧ s.leafCount.toNat ≤ Config.maxLeaves) then
    raise .treeCapacity 0 s
  else if ¬ s.treeEnd ≤ s.inLen.toNat then raise .hdrEof s.treeEnd s
  else
    (loadShape (ceil8 s.shapeBitLen.toNat) 0 Config.hdrBytes s).andThen fun _ s =>
    (loadLeaves s.leafCount.toNat 0 (Config.hdrBytes + s.shapeByteLen.toNat) s).andThen fun _ s =>
    closeStage .hparse { s with payloadOff := BitVec.ofNat 64 s.treeEnd }

/-- stage_HPARSE (R173). -/
def stageHparse (s : State) : Run Unit :=
  (openStage .hparse s).andThen fun _ s =>
  if ¬ Config.hdrBytes ≤ s.inLen.toNat then raise .hdrEof Config.hdrBytes s
  else (readBytes Config.hdrBytes 0 s).andThen fun h s => parseTree (setHeader h s)

/-- HPARSE, 0x00000020. -/
def execHparse (s : State) : Host.Outcome State Fault Refusal := runCommand (runStage .hparse stageHparse) s

/-- macro_COMPRESS (R176). -/
def macroCompress (s : State) : Run Unit :=
  (runStage .fscan stageFscan s).andThen fun _ s =>
  (runStage .tbuild stageTbuild s).andThen fun _ s =>
  (runStage .cbuild stageCbuild s).andThen fun _ s =>
  (runStage .tser stageTser s).andThen fun _ s =>
  (runStage .hemit stageHemit s).andThen fun _ s =>
  runStage .pack stagePack s

/-- COMPRESS, 0x0000001F. -/
def execCompress (s : State) : Host.Outcome State Fault Refusal := runCommand macroCompress s

/-- macro_DECOMPRESS (R180). -/
def macroDecompress (s : State) : Run Unit :=
  (runStage .hparse stageHparse s).andThen fun _ s =>
  (runStage .tdes stageTdes s).andThen fun _ s =>
  runStage .unpack stageUnpack s

/-- DECOMPRESS, 0x0000002F. -/
def execDecompress (s : State) : Host.Outcome State Fault Refusal := runCommand macroDecompress s

end Sys2Proof.Machine
end

