-- ==== Sys2Proof/Machine/Control.lean ====
section
/-! DEFINITION. The control commands NOP and CLR (47_control.md R188, R189), once accepted (assumption 17). -/

namespace Sys2Proof.Machine

/-- NOP (R188): "No register, flag or memory changes". -/
def execNop (s : State) : Host.Outcome State Fault Refusal := .next s

/-- CLR (R189). -/
def execClr (s : State) : Host.Outcome State Fault Refusal := .next (clearRecord s)

end Sys2Proof.Machine
end

