-- ==== Sys2Proof/Machine/Dispatch.lean ====
section
/-! DEFINITION. One arm per command: what the engine does with the command once it has been accepted
(47_control.md R186; acceptance is in Accept.lean). -/

namespace Sys2Proof.Machine

def exec (i : Instr) (s : State) : Host.Outcome State Fault Refusal :=
  match i with
  | .nop => Sys2Proof.Machine.execNop s
  | .clr => Sys2Proof.Machine.execClr s
  | .fscan => Sys2Proof.Machine.execFscan s
  | .tbuild => Sys2Proof.Machine.execTbuild s
  | .cbuild => Sys2Proof.Machine.execCbuild s
  | .tser => Sys2Proof.Machine.execTser s
  | .hemit => Sys2Proof.Machine.execHemit s
  | .pack => Sys2Proof.Machine.execPack s
  | .compress => Sys2Proof.Machine.execCompress s
  | .hparse => Sys2Proof.Machine.execHparse s
  | .tdes => Sys2Proof.Machine.execTdes s
  | .unpack => Sys2Proof.Machine.execUnpack s
  | .decompress => Sys2Proof.Machine.execDecompress s

end Sys2Proof.Machine
end

