-- ==== Sys2Proof/Machine/Accept.lean ====
section
/-! DEFINITION. Command acceptance (47_control.md R186). -/

namespace Sys2Proof.Machine

/-- accept(w) (R186). "The order of the tests is the priority: busy, then CLR, then the sticky fault,
then decoding"; an illegal word raises IllegalCmd with the word as info (R89, R219). -/
def accept (w : Word32) (s : State) : Host.Outcome State Fault Refusal :=
  if s.status.busy then .next s
  else if w = encode .clr then exec .clr s
  else if s.status.err then .next s
  else
    match decode w with
    | .ok i => exec i s
    | .error _ => .next (faultEntry .illegalCmd (w.setWidth 64) s)

end Sys2Proof.Machine
end

