-- ==== Sys2Proof/Machine/HostPort.lean ====
section
/-! DEFINITION. What the outside world does to the block: register reads and writes by number (10_state.md
R28, R42, R45, R46, R53), accesses to the memories (R48), reset (70_reset_and_hazards.md R246, R247). -/

namespace Sys2Proof.Machine

/-- A register as a read sees it (R28): its width, whether it holds a meaning now (R45), its value
zero-extended to 64 bits. -/
structure RegView where
  width : Nat
  meaningful : Bool
  value : Word64
  deriving DecidableEq, Repr

/-- CODE_LEN[b]: `present` in bit 8, `len` in bits 7 to 0 (R42). -/
def CodeEntry.lenWord (e : CodeEntry) : BitVec 9 := BitVec.ofBool e.present ++ e.len

/-- CODE_BITS[b][w]: code bit i is bit `63 - (i mod 64)` of word `i div 64`; "bits at positions
`i >= CODE[b].len` read 0" (R42). -/
def CodeEntry.bitsWord (e : CodeEntry) (w : Nat) : Word64 :=
  (e.bits &&& (BitVec.allOnes 256 <<< (256 - e.len.toNat))).extractLsb' (192 - 64 * w) 64

/-- The register map (R28, R42): none for a reserved number (R53). -/
def regView (n : Nat) (s : State) : Option RegView :=
  if n < 0x100 then
    match n with
    | 0x000 => some ⟨32, true, 0⟩
    | 0x001 => some ⟨32, true, s.status.toWord.setWidth 64⟩
    | 0x002 => some ⟨8, true, s.errCode.setWidth 64⟩
    | 0x003 => some ⟨64, true, s.errInfo⟩
    | 0x004 => some ⟨64, true, s.inLen⟩
    | 0x005 => some ⟨64, true, s.outLen⟩
    | 0x006 => some ⟨64, s.status.freqV || s.status.parsed, s.origSize⟩
    | 0x007 => some ⟨16, s.status.serV, s.shapeBitLen.setWidth 64⟩
    | 0x008 => some ⟨16, s.status.serV, s.shapeByteLen.setWidth 64⟩
    | 0x009 => some ⟨16, s.status.serV, s.leafCount.setWidth 64⟩
    | 0x00A => some ⟨64, s.status.parsed, s.payloadOff⟩
    | _ => none
  else if n < 0x200 then some ⟨64, s.status.freqV, s.freqOf (BitVec.ofNat 8 (n - 0x100))⟩
  else if n < 0x300 then
    some ⟨9, s.status.codeV, (s.codeOf (BitVec.ofNat 8 (n - 0x200))).lenWord.setWidth 64⟩
  else if n < 0x400 then none
  else if n < 0x800 then
    some ⟨64, s.status.codeV, (s.codeOf (BitVec.ofNat 8 ((n - 0x400) / 4))).bitsWord ((n - 0x400) % 4)⟩
  else if n < 0x840 then
    some ⟨8, s.status.serV && decide (n - 0x800 < ceil8 s.shapeBitLen.toNat),
      (s.shapeByte (n - 0x800)).setWidth 64⟩
  else if n < 0x900 then none
  else if n < 0xA00 then
    some ⟨8, s.status.serV && decide (n - 0x900 < s.leafCount.toNat), (s.leafByte (n - 0x900)).setWidth 64⟩
  else none

/-- Hand a value to the host. -/
def answer (v : Word64) (s : State) : State := { s with hostRead := some v }

/-- Hand the host a draw: any value of the width, another one at each draw (R45). -/
def answerDraw (width : Nat) (s : State) : State :=
  { s with hostRead := some (((Config.freeValue s.draws).setWidth width).setWidth 64), draws := s.draws + 1 }

/-- A read of STATUS while BUSY = 1 (R46): BUSY = 1, ERR = 0, DONE = 0, the current PHASE, and draws in
bits 13 to 8. -/
def busyStatus (d : Word64) (st : Status) : Status where
  busy := true
  done := false
  err := false
  phase := st.phase
  freqV := d.getLsbD 8
  treeV := d.getLsbD 9
  codeV := d.getLsbD 10
  serV := d.getLsbD 11
  hdrw := d.getLsbD 12
  parsed := d.getLsbD 13

/-- A register read (R28): reserved numbers read 0 (R53); what holds no meaning reads as a draw (R45);
while BUSY = 1 every register but STATUS reads as a draw (R46). No read has a side effect (R64). -/
def readReg (n : Nat) (s : State) : State :=
  match regView n s with
  | none => answer 0 s
  | some r =>
    if s.status.busy then
      if n = 0x001 then
        { answer ((busyStatus (Config.freeValue s.draws) s.status).toWord.setWidth 64) s with
          draws := s.draws + 1 }
      else answerDraw r.width s
    else if r.meaningful then answer r.value s
    else answerDraw r.width s

/-- A register write (R28): CMD presents bits 31 to 0 to the engine (R29), IN_LEN keeps the value (R31),
every other number ignores it (R53); while BUSY = 1 every write is ignored (R46). -/
def writeReg (n : Nat) (v : Word64) (s : State) : Host.Outcome State Fault Refusal :=
  if s.status.busy then .next s
  else if n = 0x000 then accept (v.setWidth 32) s
  else if n = 0x004 then .next { s with inLen := v }
  else .next s

/-- Reset (R49, R246): every register takes its reset value; the memories are not the block's to reset,
and what is outside the block stays (assumption 13). -/
def resetBlock (s : State) : State :=
  { State.reset with
    inMem := s.inMem
    outMem := s.outMem
    platform := s.platform
    host := s.host
    hostRead := s.hostRead
    draws := s.draws }

/-- Where the command of word `w` starts to append: PACK at OUT_LEN, every other one at OUT address 0. -/
def appendStart (w : Word32) (s : State) : Nat := if w = encode .pack then s.outLen.toNat else 0

/-- Reset while the command of word `w` runs, when it has appended `k` bytes (R247): "Bytes the command
had already appended to OUT stay in OUT memory, but OUT_LEN is 0". `s'` is where the command would
have ended; the bytes it appends first are the first ones from `appendStart` on. -/
def abandon (w : Word32) (k : Nat) (s s' : State) : State :=
  { resetBlock s with
    outMem := Memory.copyFrom s'.outMem (min k (s'.outLen.toNat - appendStart w s)) (appendStart w s) s.outMem }

/-- One action of the outside world. -/
def perform (a : HostAction) (s : State) : Host.Outcome State Fault Refusal :=
  match a with
  | .writeReg n v => writeReg n v s
  | .readReg n => .next (readReg n s)
  | .storeIn a b =>
    if s.platform.inCap.toNat ≤ a.toNat then .fault .noInByte
    else .next { s with inMem := s.inMem.write a.toNat b }
  | .loadIn a =>
    if s.platform.inCap.toNat ≤ a.toNat then .fault .noInByte
    else if s.status.busy then .next (answerDraw 8 s)
    else .next (answer ((s.inByte a.toNat).setWidth 64) s)
  | .storeOut a b =>
    if s.platform.outCap.toNat ≤ a.toNat then .fault .noOutByte
    else .next { s with outMem := s.outMem.write a.toNat b }
  | .loadOut a =>
    if s.platform.outCap.toNat ≤ a.toNat then .fault .noOutByte
    else if s.status.busy ∨ s.outLen.toNat ≤ a.toNat then .next (answerDraw 8 s)
    else .next (answer ((s.outByte a.toNat).setWidth 64) s)
  | .reset => .next (resetBlock s)
  | .resetDuring v k =>
    match accept (v.setWidth 32) s with
    | .next s' => .next (abandon (v.setWidth 32) k s s')
    | .fault f => .fault f
    | .refused r => .refused r

end Sys2Proof.Machine
end

