-- ==== Sys2Proof/Machine/Step.lean ====
section
/-! DEFINITION. One step of the machine: one action of the outside world, the engine running a command
it starts to its end (10_state.md R20). -/

namespace Sys2Proof.Machine

/-- One step (assumption 1): the first pending host action is consumed and performed. With none
pending the block "holds its state until the next command or reset" (60_exceptions.md R240). -/
def step (s : State) : Host.Outcome State Fault Refusal :=
  match s.host with
  | [] => .next s
  | a :: rest => perform a { s with host := rest }

/-- `s` with a write of the command word to CMD as the next thing the host does: the block fetches no
instructions (R27, R75), and "the host supplies one command at a time". -/
def State.withFetchWord (s : State) (nbits w : Nat) : State :=
  { s with host := .writeReg 0x000 (BitVec.ofNat 64 (w % 2 ^ nbits)) :: s.host }

end Sys2Proof.Machine
end

