-- ==== Sys2Proof/Safety.lean ====
section
/-! DEFINITION. The terms claims use: sequences in the memories, when accesses succeed, the parts of the
state and which of them a command may write, the merges of TBUILD, codes of a tree, and the invariants of
a safe run. -/

namespace Sys2Proof.Machine

/-! ### Sequences in the memories -/

/-- `IN[a .. a + n)` (R13). -/
def State.inSeq (s : State) (a n : Nat) : ByteSeq := (List.range n).map fun k => s.inByte (a + k)

/-- `OUT[a .. a + n)` (R13). -/
def State.outSeq (s : State) (a n : Nat) : ByteSeq := (List.range n).map fun k => s.outByte (a + k)

/-- The source data, or the container: `IN[0 .. IN_LEN)` (R65). -/
def State.source (s : State) : ByteSeq := s.inSeq 0 s.inLen.toNat

/-- The result: `OUT[0 .. OUT_LEN)` (R77). -/
def State.result (s : State) : ByteSeq := s.outSeq 0 s.outLen.toNat

/-- MemRead succeeds at every IN address below n (R66). -/
abbrev State.inReadable (s : State) (n : Nat) : Prop :=
  ∀ a < n, a < s.platform.inCap.toNat ∧ a ∉ s.platform.inFault

/-- MemWrite succeeds at every OUT address from `lo` up to but not including `hi` (R67). -/
abbrev State.outWritable (s : State) (lo hi : Nat) : Prop :=
  ∀ a < hi, lo ≤ a → a < s.platform.outCap.toNat ∧ a ∉ s.platform.outFault

/-- The SHAPE bits (R24): bit i is `bit_at(SHAPE, i)` for i below SHAPE_BITLEN. -/
def State.shapeSeq (s : State) : BitSeq := (List.range s.shapeBitLen.toNat).map s.shapeBit

/-- `LEAVES[0 .. LEAF_COUNT)` (R25). -/
def State.leafSeq (s : State) : ByteSeq := (List.range s.leafCount.toNat).map s.leafByte

/-- The code bits of a byte sequence: the concatenation of the codes of its bytes (R102). -/
def State.codeBits (s : State) (d : ByteSeq) : BitSeq := d.flatMap fun b => (s.codeOf b).seq

/-- The number of distinct byte values a frequency table counts (R117). -/
def State.distinct (s : State) : Nat :=
  ((List.range 256).filter fun k => decide (0 < (s.freqOf (BitVec.ofNat 8 k)).toNat)).length

/-- The sum of the counts of a frequency table (R117). -/
def State.total (s : State) : Nat := ((List.range 256).map fun k => (s.freqOf (BitVec.ofNat 8 k)).toNat).sum

/-! ### The merges of TBUILD -/

/-- What step 1 of R121 inserts: a leaf for the k-th counted byte value in ascending order, with its count
and the sequence number k (R123). -/
def State.leafEntries (s : State) : List Entry := s.symbols.zipIdx.map fun x => ⟨s.freqOf x.1, x.2, .leaf x.1⟩

/-- Steps 2 and 3 of R121 on a queue that is a finite set of entries (R122), whatever its list order:
`ms` holds the removed pairs, first-removed first, each the two least entries in the order of R123;
`next` is the next sequence number; the last entry's tree is the root. -/
inductive MergeRun : Nat → List Entry → List (Entry × Entry) → Tree → Prop where
  /-- one entry is left -/
  | root (next : Nat) (e : Entry) : MergeRun next [e] [] e.t
  /-- the two least entries are merged -/
  | merge {next : Nat} {q rest : List Entry} {a b : Entry} {ms : List (Entry × Entry)} {t : Tree} :
    q.Perm (a :: b :: rest) → (∀ x ∈ b :: rest, a.before x = true) → (∀ x ∈ rest, b.before x = true) →
    MergeRun (next + 1) (⟨a.w + b.w, next, .node a.t b.t⟩ :: rest) ms t → MergeRun next q ((a, b) :: ms) t

/-! ### Codes of a tree -/

/-- The leaves of a tree in pre-order, each with the labels on the path from the root, left = 0 and
right = 1 (R105), after `pre`. -/
def Tree.pathsFrom : BitSeq → Tree → List (Byte × BitSeq)
  | pre, .leaf b => [(b, pre)]
  | pre, .node l r => l.pathsFrom (pre ++ [false]) ++ r.pathsFrom (pre ++ [true])

/-- The leaves of a tree in pre-order, each with its code (R105). -/
def Tree.paths (t : Tree) : List (Byte × BitSeq) := t.pathsFrom []

/-- Every internal node of a tree satisfies `p`. -/
def Tree.everyNode (p : Tree → Tree → Prop) : Tree → Prop
  | .leaf _ => True
  | .node l r => p l r ∧ l.everyNode p ∧ r.everyNode p

/-- The code of a symbol in a tree, of its first leaf if it has several; empty if it has none (R105). -/
def Tree.code (t : Tree) (b : Byte) : BitSeq := ((t.paths.find? fun x => x.1 == b).map Prod.snd).getD []

/-- The payload bits of source bytes `d` (R102). -/
def Tree.payloadBits (t : Tree) (d : ByteSeq) : BitSeq := d.flatMap t.code

/-- The container of source bytes `d` with the tree `t`: header, tree shape, leaf bytes, payload
(R95 to R102). -/
def container (t : Tree) (d : ByteSeq) : ByteSeq :=
  be 8 d.length ++ be 2 t.shapeBits.length ++ be 2 (ceil8 t.shapeBits.length) ++ be 2 t.leaves.length
    ++ Sys2Proof.Machine.pack t.shapeBits ++ t.leaves ++ Sys2Proof.Machine.pack (t.payloadBits d)

/-- `s` with FREQ holding the counts of the source data (R117): what TBUILD reads inside COMPRESS. -/
def State.counted (s : State) : State :=
  { s with freq := Vector.ofFn fun k => BitVec.ofNat 64 (s.source.count (BitVec.ofNat 8 k.val)) }

/-- Commands issued one after another, stopping where one gives no next state (R177). -/
def runCommands : List Instr → State → Host.Outcome State Fault Refusal
  | [], s => .next s
  | i :: is, s =>
    match exec i s with
    | .next t => runCommands is t
    | .fault f => .fault f
    | .refused r => .refused r

/-! ### The parts of the state, and which of them a command may write -/

/-- The parts of the state: the fields of STATUS, and the other fields of `State`. -/
inductive Part where
  | busy | done | err | phase | freqV | treeV | codeV | serV | hdrw | parsed
  | errCode | errInfo | inLen | outLen | origSize | shapeBitLen | shapeByteLen | leafCount | payloadOff
  | freq | code | shape | leaves | tree | inMem | outMem | platform | host | hostRead | draws
  deriving DecidableEq, Repr

/-- The part holds in `t` what it holds in `s`; for a memory, every byte reads as before. -/
def Part.same (s t : State) : Part → Prop
  | .busy => t.status.busy = s.status.busy
  | .done => t.status.done = s.status.done
  | .err => t.status.err = s.status.err
  | .phase => t.status.phase = s.status.phase
  | .freqV => t.status.freqV = s.status.freqV
  | .treeV => t.status.treeV = s.status.treeV
  | .codeV => t.status.codeV = s.status.codeV
  | .serV => t.status.serV = s.status.serV
  | .hdrw => t.status.hdrw = s.status.hdrw
  | .parsed => t.status.parsed = s.status.parsed
  | .errCode => t.errCode = s.errCode
  | .errInfo => t.errInfo = s.errInfo
  | .inLen => t.inLen = s.inLen
  | .outLen => t.outLen = s.outLen
  | .origSize => t.origSize = s.origSize
  | .shapeBitLen => t.shapeBitLen = s.shapeBitLen
  | .shapeByteLen => t.shapeByteLen = s.shapeByteLen
  | .leafCount => t.leafCount = s.leafCount
  | .payloadOff => t.payloadOff = s.payloadOff
  | .freq => ∀ b, t.freqOf b = s.freqOf b
  | .code => ∀ b, t.codeOf b = s.codeOf b
  | .shape => ∀ k, t.shapeByte k = s.shapeByte k
  | .leaves => ∀ k, t.leafByte k = s.leafByte k
  | .tree => t.tree = s.tree
  | .inMem => ∀ a, t.inByte a = s.inByte a
  | .outMem => ∀ a, t.outByte a = s.outByte a
  | .platform => t.platform = s.platform
  | .host => t.host = s.host
  | .hostRead => t.hostRead = s.hostRead
  | .draws => t.draws = s.draws

/-- What every stage or macro command writes: BUSY, DONE, PHASE (R187) and, at fault entry, ERR and the
record (R225). -/
def frameParts : List Part := [.busy, .done, .err, .phase, .errCode, .errInfo]

/-- What a stage writes besides (R26, and the flags it clears or sets by R40). -/
def Stage.parts : Stage → List Part
  | .fscan => [.freq, .origSize, .freqV, .treeV, .codeV, .serV, .hdrw, .parsed]
  | .tbuild => [.tree, .treeV, .codeV, .serV, .hdrw, .parsed]
  | .cbuild => [.code, .codeV]
  | .tser => [.shape, .leaves, .shapeBitLen, .shapeByteLen, .leafCount, .serV, .hdrw]
  | .hemit => [.outMem, .outLen, .hdrw]
  | .pack => [.outMem, .outLen, .hdrw]
  | .hparse =>
    [.origSize, .shapeBitLen, .shapeByteLen, .leafCount, .shape, .leaves, .payloadOff,
      .freqV, .treeV, .codeV, .serV, .hdrw, .parsed]
  | .tdes => [.tree, .treeV, .codeV]
  | .unpack => [.outMem, .outLen]

/-- What a command may write; a macro command what its stages write (R26). -/
def commandParts : Instr → List Part
  | .nop => []
  | .clr =>
    [.busy, .done, .err, .phase, .freqV, .treeV, .codeV, .serV, .hdrw, .parsed, .errCode, .errInfo, .outLen]
  | .fscan => frameParts ++ Stage.parts .fscan
  | .tbuild => frameParts ++ Stage.parts .tbuild
  | .cbuild => frameParts ++ Stage.parts .cbuild
  | .tser => frameParts ++ Stage.parts .tser
  | .hemit => frameParts ++ Stage.parts .hemit
  | .pack => frameParts ++ Stage.parts .pack
  | .compress =>
    frameParts ++ Stage.parts .fscan ++ Stage.parts .tbuild ++ Stage.parts .cbuild ++ Stage.parts .tser
      ++ Stage.parts .hemit ++ Stage.parts .pack
  | .hparse => frameParts ++ Stage.parts .hparse
  | .tdes => frameParts ++ Stage.parts .tdes
  | .unpack => frameParts ++ Stage.parts .unpack
  | .decompress => frameParts ++ Stage.parts .hparse ++ Stage.parts .tdes ++ Stage.parts .unpack

/-- Only the parts listed may differ between `s` and `t`. -/
def Frame (written : List Part) (s t : State) : Prop := ∀ p : Part, p ∉ written → p.same s t

/-- The state a run ends in, completed or not. -/
def Run.final {α : Type} : Run α → State
  | .ok _ s => s
  | .raised s => s

/-! ### Invariants -/

/-- The fault record agrees with STATUS (R30, R33, R41, R207, R225): no command is running between
steps, ERR says whether ERRCODE holds a cause, DONE and ERR are never both 1, ERRINFO and PHASE are
0 when no fault is recorded, and PHASE is a stage number or 0. -/
structure RecordInv (s : State) : Prop where
  idle : s.status.busy = false
  code : if s.status.err then ∃ c : Cause, s.errCode = c.code else s.errCode = 0
  notBoth : ¬ (s.status.done = true ∧ s.status.err = true)
  info : s.status.err = false → s.errInfo = 0 ∧ s.status.phase = 0
  phase : s.status.phase.toNat ≤ 9

/-- The flag invariants of R52 (a) and (b), and that a code table is a tree's (R40, CODE_V). -/
structure FlagInv (s : State) : Prop where
  notBoth : ¬ (s.status.freqV = true ∧ s.status.parsed = true)
  header : s.status.hdrw = true → s.status.freqV = true ∧ s.status.serV = true
  table : s.status.codeV = true → s.status.treeV = true

/-- The memories keep their canonical form; OUT_LEN stays within OUT_CAP (R199), and every OUT byte below
OUT_LEN has been written (R32, R48). -/
structure MemoryInv (s : State) : Prop where
  inWf : s.inMem.wf = true
  outWf : s.outMem.wf = true
  outCap : s.outLen.toNat ≤ s.platform.outCap.toNat
  written : ∀ a < s.outLen.toNat, (s.outMem.read? a).isSome = true

/-- SHAPE, LEAVES and the lengths are the serialization TSER writes of the tree `t` (R51, R139). -/
structure Serialized (s : State) (t : Tree) : Prop where
  shape : s.shapeSeq = t.shapeBits
  leaves : s.leafSeq = t.leaves
  byteLen : s.shapeByteLen.toNat = ceil8 s.shapeBitLen.toNat
  pad : ∀ i, s.shapeBitLen.toNat ≤ i → i < 8 * s.shapeByteLen.toNat → s.shapeBit i = false

/-- What the validity flags promise (R36 to R39, R43, R51, R52 (c) and (d), R117). -/
structure DataInv (s : State) : Prop where
  flags : FlagInv s
  capacity : s.tree.leaves.length ≤ Config.maxLeaves
  lengths : s.status.serV = true →
    s.shapeBitLen.toNat ≤ Config.maxShapeBits ∧ s.leafCount.toNat ≤ Config.maxLeaves ∧
      s.shapeBitLen.toNat ≤ 8 * s.shapeByteLen.toNat
  counted : s.status.freqV = true → s.total = s.origSize.toNat
  built : s.status.freqV = true → s.status.treeV = true → s.builtTree = some s.tree
  table : s.status.codeV = true → s.code = codeTable s.tree
  serialized : s.status.freqV = true → s.status.serV = true → ∃ t, s.builtTree = some t ∧ Serialized s t
  payload : s.status.parsed = true → 14 ≤ s.payloadOff.toNat ∧ s.payloadOff.toNat ≤ 65805

end Sys2Proof.Machine
end

