-- ==== Sys2Proof/Certificates/Slice0/Obligations.lean ====
section
/-! DEFINITION. The statements for the provers. "Completes" below always means the next state the rules
give, with DONE = 1; every status is written out. -/

open Sys2Proof Sys2Proof.Machine

/-! ### Encoding and acceptance -/

/-- 30_encoding.md R86: a word selects the command whose whole word it equals, and no other. -/
def Obligations.DecodeComparesWholeWord : Prop :=
  ∀ (w : Word32) (i : Instr), decode w = .ok i ↔ w = encode i

/-- 30_encoding.md section 2, the table of R87: each of the thirteen words, written out, decodes to its
command. -/
def Obligations.TableWordsDecode : Prop :=
  decode 0x00000000 = .ok .nop ∧ decode 0x00000001 = .ok .clr ∧ decode 0x00000010 = .ok .fscan ∧
  decode 0x00000011 = .ok .tbuild ∧ decode 0x00000012 = .ok .cbuild ∧ decode 0x00000013 = .ok .tser ∧
  decode 0x00000014 = .ok .hemit ∧ decode 0x00000015 = .ok .pack ∧ decode 0x0000001F = .ok .compress ∧
  decode 0x00000020 = .ok .hparse ∧ decode 0x00000021 = .ok .tdes ∧ decode 0x00000022 = .ok .unpack ∧
  decode 0x0000002F = .ok .decompress

/-- 30_encoding.md R89 and 60_exceptions.md R219: which words are illegal, and that one written to CMD
while BUSY = 0 and ERR = 0 raises IllegalCmd with the word as info and changes nothing else. -/
def Obligations.IllegalWordRaisesIllegalCmd : Prop :=
  (∀ w : Word32, (∀ i, encode i ≠ w) ↔
    ((0x02 ≤ w.toNat ∧ w.toNat ≤ 0x0F) ∨ (0x16 ≤ w.toNat ∧ w.toNat ≤ 0x1E) ∨
      (0x23 ≤ w.toNat ∧ w.toNat ≤ 0x2E) ∨ (0x30 ≤ w.toNat ∧ w.toNat ≤ 0xFF) ∨ w.extractLsb 31 8 ≠ 0)) ∧
  ∀ (s : State) (v : Word64) (rest : List HostAction), s.host = .writeReg 0x000 v :: rest →
    s.status.busy = false → s.status.err = false → (∀ i, encode i ≠ v.setWidth 32) →
    step s = .next
      { s with
        host := rest
        errCode := 0x40
        errInfo := (v.setWidth 32).setWidth 64
        status := { s.status with err := true, busy := false, done := false } }

/-- 47_control.md R186, the accepted case: a word that decodes to `i`, written to CMD while BUSY = 0 and,
unless `i` is CLR, ERR = 0, makes the step `exec i` of the state with the write consumed. -/
def Obligations.StepRunsAcceptedCommand : Prop :=
  ∀ (s : State) (v : Word64) (rest : List HostAction) (i : Instr), s.host = .writeReg 0x000 v :: rest →
    decode (v.setWidth 32) = .ok i → s.status.busy = false → (s.status.err = false ∨ i = .clr) →
    step s = exec i { s with host := rest }

/-- 60_exceptions.md R228: while ERR = 1 the engine accepts only CLR; every other word, legal or not, is
ignored and the record kept; CLR clears the record and every validity flag and restores nothing. -/
def Obligations.FaultedBlockAcceptsOnlyClr : Prop :=
  ∀ (s : State) (v : Word64) (rest : List HostAction), s.host = .writeReg 0x000 v :: rest →
    s.status.busy = false → s.status.err = true →
    (v.setWidth 32 ≠ (0x00000001 : Word32) → step s = .next { s with host := rest }) ∧
    (v.setWidth 32 = (0x00000001 : Word32) →
      step s = .next
        { s with
          host := rest
          errCode := 0
          errInfo := 0
          outLen := 0
          status := ⟨false, false, false, 0, false, false, false, false, false, false⟩ })

/-- Rests on 10_state.md R46: while BUSY = 1 a host write to any register is ignored; a read of STATUS returns
BUSY = 1, ERR = 0, DONE = 0, the current PHASE and draws in bits 13 to 8, the reserved bits 0 (R30); a
read of any other register returns a draw of its width. That CMD is among them, where R29 says a read
returns 0, is assumption 12 (DEDUCED); that the draw is `Config.freeValue s.draws` is assumption 6. -/
def Obligations.BusyBlockIgnoresWritesAndReadsDraws : Prop :=
  ∀ (s : State) (rest : List HostAction), s.status.busy = true →
    (∀ n v, step { s with host := .writeReg n v :: rest } = .next { s with host := rest }) ∧
    (∃ (t : State) (r : Word64), step { s with host := .readReg 0x001 :: rest } = .next t ∧ t.hostRead = some r ∧
      r.getLsbD 0 = true ∧ r.getLsbD 1 = false ∧ r.getLsbD 2 = false ∧ r.extractLsb' 4 4 = s.status.phase ∧
      (∀ i, 8 ≤ i → i ≤ 13 → r.getLsbD i = (Config.freeValue s.draws).getLsbD i) ∧
      (∀ i, i = 3 ∨ 14 ≤ i → r.getLsbD i = false)) ∧
    (∀ n r, n ≠ 0x001 → regView n s = some r →
      ∃ t, step { s with host := .readReg n :: rest } = .next t ∧
        t.hostRead = some (((Config.freeValue s.draws).setWidth r.width).setWidth 64))

/-! ### The register map -/

/-- 10_state.md R42: the read windows, while their validity flags are 1. -/
def Obligations.WindowsShowTheRegisterFiles : Prop :=
  ∀ (s : State) (rest : List HostAction), s.status.busy = false →
    (s.status.freqV = true → ∀ b : Byte, ∃ t, step { s with host := .readReg (0x100 + b.toNat) :: rest } = .next t ∧
      t.hostRead = some (s.freqOf b)) ∧
    (s.status.codeV = true → ∀ b : Byte, ∃ (t : State) (r : Word64),
      step { s with host := .readReg (0x200 + b.toNat) :: rest } = .next t ∧ t.hostRead = some r ∧
      r.getLsbD 8 = (s.codeOf b).present ∧ r.setWidth 8 = (s.codeOf b).len ∧ r.toNat < 512) ∧
    (s.status.codeV = true → ∀ (b : Byte) (w : Nat), w < 4 → ∃ (t : State) (r : Word64),
      step { s with host := .readReg (0x400 + 4 * b.toNat + w) :: rest } = .next t ∧ t.hostRead = some r ∧
      ∀ i, i / 64 = w → r.getLsbD (63 - i % 64) = (s.codeOf b).seq.getD i false) ∧
    (s.status.serV = true → ∀ k < 64, k < ceil8 s.shapeBitLen.toNat → ∃ t,
      step { s with host := .readReg (0x800 + k) :: rest } = .next t ∧
      t.hostRead = some ((s.shapeByte k).setWidth 64)) ∧
    (s.status.serV = true → ∀ k < 256, k < s.leafCount.toNat → ∃ t,
      step { s with host := .readReg (0x900 + k) :: rest } = .next t ∧
      t.hostRead = some ((s.leafByte k).setWidth 64))

/-- 10_state.md section 4 (R28 to R39): what a read of each scalar register returns while BUSY = 0, STATUS bit
by bit (R30); the header registers while they hold a meaning. -/
def Obligations.ScalarRegistersRead : Prop :=
  ∀ (s : State) (rest : List HostAction), s.status.busy = false →
    let reads := fun (n : Nat) (r : Word64) =>
      ∃ t, step { s with host := .readReg n :: rest } = .next t ∧ t.hostRead = some r
    (∃ r : Word64, reads 0x001 r ∧ r = s.status.toWord.setWidth 64 ∧
      r.getLsbD 0 = false ∧ r.getLsbD 1 = s.status.done ∧ r.getLsbD 2 = s.status.err ∧ r.getLsbD 3 = false ∧
      r.extractLsb' 4 4 = s.status.phase ∧ r.getLsbD 8 = s.status.freqV ∧ r.getLsbD 9 = s.status.treeV ∧
      r.getLsbD 10 = s.status.codeV ∧ r.getLsbD 11 = s.status.serV ∧ r.getLsbD 12 = s.status.hdrw ∧
      r.getLsbD 13 = s.status.parsed ∧ ∀ i, 14 ≤ i → r.getLsbD i = false) ∧
    reads 0x000 0 ∧ reads 0x002 (s.errCode.setWidth 64) ∧
    reads 0x003 s.errInfo ∧ reads 0x004 s.inLen ∧ reads 0x005 s.outLen ∧
    (s.status.freqV = true ∨ s.status.parsed = true → reads 0x006 s.origSize) ∧
    (s.status.serV = true → reads 0x007 (s.shapeBitLen.setWidth 64) ∧
      reads 0x008 (s.shapeByteLen.setWidth 64) ∧ reads 0x009 (s.leafCount.setWidth 64)) ∧
    (s.status.parsed = true → reads 0x00A s.payloadOff)

/-- 10_state.md R45: a read of state that holds no meaning returns a draw of the register's width, and
every draw is another one. -/
def Obligations.MeaninglessReadsAreDraws : Prop :=
  ∀ (s : State) (rest : List HostAction) (n width : Nat), s.status.busy = false →
    (s.status.freqV = false ∧ 0x100 ≤ n ∧ n < 0x200 ∧ width = 64) ∨
    (s.status.codeV = false ∧ 0x200 ≤ n ∧ n < 0x300 ∧ width = 9) ∨
    (s.status.codeV = false ∧ 0x400 ≤ n ∧ n < 0x800 ∧ width = 64) ∨
    (s.status.serV = false ∧ 0x800 ≤ n ∧ n < 0x840 ∧ width = 8) ∨
    (s.status.serV = false ∧ 0x900 ≤ n ∧ n < 0xA00 ∧ width = 8) ∨
    (s.status.serV = false ∧ 0x007 ≤ n ∧ n ≤ 0x009 ∧ width = 16) ∨
    (0x800 + ceil8 s.shapeBitLen.toNat ≤ n ∧ n < 0x840 ∧ width = 8) ∨
    (0x900 + s.leafCount.toNat ≤ n ∧ n < 0xA00 ∧ width = 8) ∨
    (s.status.freqV = false ∧ s.status.parsed = false ∧ n = 0x006 ∧ width = 64) ∨
    (s.status.parsed = false ∧ n = 0x00A ∧ width = 64) →
    step { s with host := .readReg n :: rest } = .next
      { s with
        host := rest
        hostRead := some (((Config.freeValue s.draws).setWidth width).setWidth 64)
        draws := s.draws + 1 }

/-- Rests on 10_state.md R53: a register number not listed in R28 reads 0, ignores writes, and raises no fault.
That it reads 0 while BUSY = 1 too, where R46 says that a read of any register but STATUS is a draw, is
the model's resolution (assumption 12, DEDUCED). -/
def Obligations.ReservedRegistersReadZero : Prop :=
  ∀ (s : State) (rest : List HostAction) (n : Nat),
    (0x00B ≤ n ∧ n < 0x100) ∨ (0x300 ≤ n ∧ n < 0x400) ∨ (0x840 ≤ n ∧ n < 0x900) ∨ 0xA00 ≤ n →
    step { s with host := .readReg n :: rest } = .next { s with host := rest, hostRead := some 0 } ∧
    ∀ v, step { s with host := .writeReg n v :: rest } = .next { s with host := rest }

/-- 10_state.md section 4 (R28, R31): while BUSY = 0 a write to IN_LEN keeps the value, and a write to any
register but CMD and IN_LEN changes nothing. -/
def Obligations.HostWritesOnlyInLen : Prop :=
  ∀ (s : State) (rest : List HostAction) (v : Word64), s.status.busy = false →
    step { s with host := .writeReg 0x004 v :: rest } = .next { s with host := rest, inLen := v } ∧
    ∀ n, n ≠ 0x000 → n ≠ 0x004 → step { s with host := .writeReg n v :: rest } = .next { s with host := rest }

/-! ### Reset -/

/-- 10_state.md R49: after reset STATUS, ERRCODE, ERRINFO, IN_LEN and OUT_LEN are 0, and every register
whose value R49 leaves unspecified holds no meaning, so a read of it is a draw. -/
def Obligations.ResetValues : Prop :=
  State.reset.status.toWord = 0 ∧ State.reset.errCode = 0 ∧ State.reset.errInfo = 0 ∧
  State.reset.inLen = 0 ∧ State.reset.outLen = 0 ∧
  ∀ n r, (0x006 ≤ n ∧ n ≤ 0x00A) ∨ 0x100 ≤ n → regView n State.reset = some r → r.meaningful = false

/-- 70_reset_and_hazards.md R246: reset at any time between commands puts 0 in STATUS, ERRCODE, ERRINFO,
IN_LEN and OUT_LEN, leaves every unspecified register without a meaning, and leaves IN and OUT
memory alone. -/
def Obligations.ResetClearsTheBlock : Prop :=
  ∀ (s : State) (rest : List HostAction), s.host = .reset :: rest →
    ∃ t, step s = .next t ∧ t.status.toWord = 0 ∧ t.errCode = 0 ∧ t.errInfo = 0 ∧ t.inLen = 0 ∧ t.outLen = 0 ∧
      (∀ n r, (0x006 ≤ n ∧ n ≤ 0x00A) ∨ 0x100 ≤ n → regView n t = some r → r.meaningful = false) ∧
      (∀ a, t.inByte a = s.inByte a) ∧ (∀ a, t.outByte a = s.outByte a) ∧
      t.platform = s.platform ∧ t.host = rest

/-- 70_reset_and_hazards.md R247: reset while a command runs leaves no record and OUT_LEN = 0; the bytes
the command had appended (the first `k` of them, from where it starts to append) stay in OUT. That
`k` is an input of the model is assumption 13. -/
def Obligations.ResetDuringACommandAbandonsIt : Prop :=
  ∀ (s s' : State) (v : Word64) (k : Nat) (rest : List HostAction), s.host = .resetDuring v k :: rest →
    accept (v.setWidth 32) { s with host := rest } = .next s' →
    ∃ t, step s = .next t ∧ t.status.toWord = 0 ∧ t.errCode = 0 ∧ t.errInfo = 0 ∧ t.inLen = 0 ∧ t.outLen = 0 ∧
      (∀ a, t.inByte a = s.inByte a) ∧
      ∀ a, t.outByte a =
        if appendStart (v.setWidth 32) s ≤ a ∧ a < appendStart (v.setWidth 32) s + k ∧ a < s'.outLen.toNat
        then s'.outByte a else s.outByte a

/-! ### Memory accesses and fault entry -/

/-- 20_memory.md R66: MemRead raises IoRead(addr) at or above IN_CAP or where in_fault is true, and else
returns the byte last stored there and changes nothing. The host's side of the memories (10_state.md
R48, 20_memory.md R72, 70_reset_and_hazards.md R264): a step that stores a byte in IN makes it what IN
holds there; while BUSY = 0 a load of IN answers that byte, a load of OUT below OUT_LEN the byte OUT
holds. The model's choices are: a load of OUT at or above OUT_LEN is a draw (assumptions 8, 6), the
answer stands in `hostRead` (19), a byte past a capacity is a fault of the model (9). -/
def Obligations.MemoriesReturnTheStoredByte : Prop :=
  (∀ (a : Nat) (s : State),
    (s.platform.inCap.toNat ≤ a ∨ a ∈ s.platform.inFault →
      memRead a s = .raised (faultEntry .ioRead (BitVec.ofNat 64 a) s)) ∧
    (a < s.platform.inCap.toNat → a ∉ s.platform.inFault → memRead a s = .ok (s.inByte a) s ∧
      ∀ b, memRead a { s with inMem := s.inMem.write a b } = .ok b { s with inMem := s.inMem.write a b })) ∧
  (∀ (s : State) (a : Word64) (b : Byte) (rest : List HostAction), a.toNat < s.platform.inCap.toNat →
    ∃ t, step { s with host := .storeIn a b :: rest } = .next t ∧ t.inByte a.toNat = b ∧
      (∀ x, x ≠ a.toNat → t.inByte x = s.inByte x) ∧ t = { s with host := rest, inMem := t.inMem }) ∧
  (∀ (s : State) (a : Word64) (b : Byte) (rest : List HostAction), a.toNat < s.platform.outCap.toNat →
    ∃ t, step { s with host := .storeOut a b :: rest } = .next t ∧ t.outByte a.toNat = b ∧
      (∀ x, x ≠ a.toNat → t.outByte x = s.outByte x) ∧ t = { s with host := rest, outMem := t.outMem }) ∧
  (∀ (s : State) (a : Word64) (rest : List HostAction), s.status.busy = false →
    (a.toNat < s.platform.inCap.toNat → step { s with host := .loadIn a :: rest } = .next
      { s with host := rest, hostRead := some ((s.inByte a.toNat).setWidth 64) }) ∧
    (a.toNat < s.platform.outCap.toNat → a.toNat < s.outLen.toNat → step { s with host := .loadOut a :: rest } = .next
      { s with host := rest, hostRead := some ((s.outByte a.toNat).setWidth 64) }) ∧
    (a.toNat < s.platform.outCap.toNat → s.outLen.toNat ≤ a.toNat → step { s with host := .loadOut a :: rest } = .next
      { s with
        host := rest
        hostRead := some (((Config.freeValue s.draws).setWidth 8).setWidth 64)
        draws := s.draws + 1 })) ∧
  ∀ (s : State) (a : Word64) (b : Byte) (rest : List HostAction),
    (s.platform.inCap.toNat ≤ a.toNat → step { s with host := .storeIn a b :: rest } = .fault .noInByte ∧
      step { s with host := .loadIn a :: rest } = .fault .noInByte) ∧
    (s.platform.outCap.toNat ≤ a.toNat → step { s with host := .storeOut a b :: rest } = .fault .noOutByte ∧
      step { s with host := .loadOut a :: rest } = .fault .noOutByte)

/-- 20_memory.md R67, R68: emit stores the byte at OUT_LEN and adds 1 to OUT_LEN; where the write fails it
raises IoWrite(OUT_LEN), stores nothing and counts nothing. -/
def Obligations.EmitAppendsOneByte : Prop :=
  ∀ (b : Byte) (s : State),
    (s.platform.outCap.toNat ≤ s.outLen.toNat ∨ s.outLen.toNat ∈ s.platform.outFault →
      emit b s = .raised (faultEntry .ioWrite s.outLen s)) ∧
    (s.outLen.toNat < s.platform.outCap.toNat → s.outLen.toNat ∉ s.platform.outFault →
      ∃ t, emit b s = .ok () t ∧ t.outLen.toNat = s.outLen.toNat + 1 ∧ t.outByte s.outLen.toNat = b ∧
        (∀ a, a ≠ s.outLen.toNat → t.outByte a = s.outByte a) ∧ Frame [.outMem, .outLen] s t)

/-- 60_exceptions.md R225: fault entry writes ERRCODE, ERRINFO, ERR, BUSY and DONE; PHASE, the validity
flags and everything else keep their values. -/
def Obligations.FaultEntryWritesTheRecord : Prop :=
  ∀ (c : Cause) (info : Nat) (s : State), info < 2 ^ 64 →
    ∃ t, raise (α := Unit) c info s = .raised t ∧ t.errCode = c.code ∧ t.errInfo.toNat = info ∧
      t.status.err = true ∧ t.status.busy = false ∧ t.status.done = false ∧
      Frame [.errCode, .errInfo, .err, .busy, .done] s t

/-- 60_exceptions.md section 2 (R206, R207): the fifteen codes. -/
def Obligations.CauseCodes : Prop :=
  Cause.code .insufficientAlphabet = 0x10 ∧ Cause.code .hdrEof = 0x20 ∧ Cause.code .hdrField = 0x21 ∧
  Cause.code .treeCapacity = 0x22 ∧ Cause.code .shapeUnderrun = 0x23 ∧ Cause.code .leafUnderrun = 0x24 ∧
  Cause.code .treeLeftover = 0x25 ∧ Cause.code .absentChild = 0x26 ∧ Cause.code .payloadEof = 0x27 ∧
  Cause.code .ioRead = 0x30 ∧ Cause.code .ioWrite = 0x31 ∧ Cause.code .illegalCmd = 0x40 ∧
  Cause.code .sequence = 0x41 ∧ Cause.code .noCode = 0x42 ∧ Cause.code .inputChanged = 0x43

/-- 60_exceptions.md R220: a stage command whose required flags (R40) are not all 1 records Sequence, the
word of the stage command and the stage's number, and changes nothing else; a macro command never
raises it. -/
def Obligations.StageOutOfOrderRaisesSequence : Prop :=
  (∀ s : State,
    let refuses := fun (i : Instr) (w : Word64) (phase : BitVec 4) =>
      exec i s = .next
        { s with
          errCode := 0x41
          errInfo := w
          status := { s.status with err := true, busy := false, done := false, phase := phase } }
    (s.status.freqV = false → refuses .tbuild 0x11 2) ∧
    (s.status.treeV = false → refuses .cbuild 0x12 3) ∧
    (s.status.treeV = false → refuses .tser 0x13 4) ∧
    (s.status.serV = false ∨ s.status.freqV = false → refuses .hemit 0x14 5) ∧
    (s.status.codeV = false ∨ s.status.hdrw = false → refuses .pack 0x15 6) ∧
    (s.status.serV = false → refuses .tdes 0x21 8) ∧
    (s.status.treeV = false ∨ s.status.parsed = false → refuses .unpack 0x22 9)) ∧
  ∀ (s t : State) (i : Instr), i = .compress ∨ i = .decompress → exec i s = .next t →
    t.status.err = true → s.errCode = 0 → t.errCode ≠ 0x41

/-! ### Control commands -/

/-- 47_control.md R188: NOP changes nothing. -/
def Obligations.NopChangesNothing : Prop := ∀ s : State, exec .nop s = .next s

/-- 47_control.md R189: CLR puts 0 in STATUS, ERRCODE, ERRINFO and OUT_LEN, and changes nothing else. -/
def Obligations.ClrClearsTheRecord : Prop :=
  ∀ s : State, exec .clr s = .next
    { s with
      errCode := 0
      errInfo := 0
      outLen := 0
      status := ⟨false, false, false, 0, false, false, false, false, false, false⟩ }

/-! ### FSCAN -/

/-- 40_frequency.md R116, R117: where every byte of the source can be read, FSCAN completes: FREQ[b] is the
number of addresses below IN_LEN that hold b, their sum is ORIG_SIZE = IN_LEN, FREQ_V is the only
validity flag set, and nothing else changes. -/
def Obligations.FscanCountsTheSource : Prop :=
  ∀ s : State, s.inReadable s.inLen.toNat →
    ∃ t, exec .fscan s = .next t ∧
      (∀ b, (t.freqOf b).toNat = s.source.count b) ∧
      ((List.range 256).map fun k => (t.freqOf (BitVec.ofNat 8 k)).toNat).sum = s.inLen.toNat ∧
      t = { s with
        freq := t.freq
        origSize := s.inLen
        status := { s.status with
          busy := false, done := true, phase := 0, freqV := true, treeV := false, codeV := false,
          serV := false, hdrw := false, parsed := false } }

/-- 60_exceptions.md R217 in FSCAN (R116): the first source address that cannot be read is recorded as
IoRead, and FREQ_V stays 0. -/
def Obligations.FscanRecordsTheUnreadableAddress : Prop :=
  ∀ (s : State) (a : Nat), s.inReadable a → a < s.inLen.toNat →
    (s.platform.inCap.toNat ≤ a ∨ a ∈ s.platform.inFault) →
    ∃ t, exec .fscan s = .next t ∧
      t = { s with
        freq := t.freq
        errCode := 0x30
        errInfo := BitVec.ofNat 64 a
        status := { s.status with
          busy := false, done := false, err := true, phase := 1, freqV := false, treeV := false,
          codeV := false, serV := false, hdrw := false, parsed := false } }

/-! ### TBUILD -/

/-- 41_tree_builder.md R121, R124 (a), (b), (e): with FREQ_V = 1 and at least two counted byte values TBUILD
completes: the tree has each counted byte value on exactly one leaf, n leaves and n - 1 internal
nodes; TREE_V is set; nothing else changes; the same table gives the same tree. -/
def Obligations.TbuildBuildsATreeOfTheAlphabet : Prop :=
  (∀ s : State, s.status.freqV = true → 2 ≤ s.distinct →
    ∃ t, exec .tbuild s = .next t ∧
      (∀ b, t.tree.leaves.count b = if 0 < (s.freqOf b).toNat then 1 else 0) ∧
      t.tree.leaves.length = s.distinct ∧ t.tree.nodes = 2 * s.distinct - 1 ∧
      t = { s with
        tree := t.tree
        status := { s.status with
          busy := false, done := true, phase := 0, treeV := true, codeV := false, serV := false,
          hdrw := false, parsed := false } }) ∧
  ∀ s s' t t' : State, s.status.freqV = true → s'.status.freqV = true → 2 ≤ s.distinct → s.freq = s'.freq →
    exec .tbuild s = .next t → exec .tbuild s' = .next t' → t.tree = t'.tree

/-- 60_exceptions.md R208: with fewer than two counted byte values TBUILD records InsufficientAlphabet(n);
the flags stay as cleared, no byte of OUT is written and OUT_LEN is unchanged. -/
def Obligations.TbuildRejectsASmallAlphabet : Prop :=
  ∀ s : State, s.status.freqV = true → s.distinct < 2 →
    exec .tbuild s = .next
      { s with
        errCode := 0x10
        errInfo := BitVec.ofNat 64 s.distinct
        status := { s.status with
          busy := false, done := false, err := true, phase := 2, treeV := false, codeV := false,
          serV := false, hdrw := false, parsed := false } }

/-- 41_tree_builder.md R121 to R123: an entry is before another when it is lighter (unsigned), or as light and
older; insertion keeps the queue in that order and holds exactly the entries inserted, so that the head
is the entry extract_min returns; step 1 inserts exactly one leaf for each counted byte value, with
its count, numbered 0, 1, ... in ascending byte value: a leaf's number is the number of counted byte
values below its own. (The numbers of merged nodes: BuiltTreesPutTheLighterChildLeft.) -/
def Obligations.QueueKeepsTheOrder : Prop :=
  (∀ x y : Entry, x.before y = true ↔ (x.w.toNat < y.w.toNat ∨ (x.w = y.w ∧ x.seq < y.seq))) ∧
  (∀ (x : Entry) (q : List Entry), q.Pairwise (fun a b => a.before b = true) → (∀ y ∈ q, y.seq ≠ x.seq) →
    (enqueue x q).Pairwise (fun a b => a.before b = true) ∧ (enqueue x q).Perm (x :: q)) ∧
  ∀ s : State,
    (enqueueLeaves s 0 s.symbols []).Pairwise (fun a b => a.before b = true) ∧
    (enqueueLeaves s 0 s.symbols []).Perm s.leafEntries ∧ s.leafEntries.length = s.distinct ∧
    ∀ e, e ∈ s.leafEntries ↔ ∃ b, 0 < (s.freqOf b).toNat ∧
      e = ⟨s.freqOf b, ((List.range b.toNat).filter fun k => decide (0 < (s.freqOf (BitVec.ofNat 8 k)).toNat)).length,
        .leaf b⟩

/-- 41_tree_builder.md R121, R123, R125: the tree TBUILD leaves is the root the merges make from the leaf
entries, merged nodes numbered from n on, the first-removed of each pair on the left (`MergeRun`). So
every internal node comes from one merge, its left child is no heavier than the right one, and on equal
weights the left child has the smaller number. Where the counts sum to less than 2^64 (DataInv.counted)
no node's weight wraps (48_arithmetic.md R196). -/
def Obligations.BuiltTreesPutTheLighterChildLeft : Prop :=
  ∀ s t : State, s.status.freqV = true → 2 ≤ s.distinct → exec .tbuild s = .next t →
    (t.tree.everyNode fun l r => s.weight l ≤ s.weight r) ∧
    (∃ ms, MergeRun s.distinct s.leafEntries ms t.tree ∧
      t.tree.everyNode fun l r => ∃ m ∈ ms, m.1.t = l ∧ m.2.t = r ∧ m.1.w = s.weight l ∧ m.2.w = s.weight r ∧
        (s.weight l = s.weight r → m.1.seq < m.2.seq)) ∧
    (s.total < 2 ^ 64 → t.tree.everyNode fun l r =>
      (s.weight (.node l r)).toNat = (s.weight l).toNat + (s.weight r).toNat)

/-- 41_tree_builder.md R124 (d), Huffman optimality: no prefix code `c` for the counted byte values has a smaller
sum of FREQ[b] times code length than the codes of the tree TBUILD leaves. The premise that the counts
sum to less than 2^64 holds of what FSCAN leaves (48_arithmetic.md R196; DataInv.counted, which
StepKeepsWhatTheFlagsPromise states of every step): past it the 64-bit weights wrap. -/
def Obligations.BuiltTreesAreOptimal : Prop :=
  ∀ (s t : State) (c : Byte → BitSeq), s.status.freqV = true → s.total < 2 ^ 64 → 2 ≤ s.distinct →
    exec .tbuild s = .next t →
    (∀ b b', b ≠ b' → 0 < (s.freqOf b).toNat → 0 < (s.freqOf b').toNat → ¬ c b <+: c b') →
    ((List.range 256).map fun k =>
      (s.freqOf (BitVec.ofNat 8 k)).toNat * (t.tree.code (BitVec.ofNat 8 k)).length).sum ≤
    ((List.range 256).map fun k => (s.freqOf (BitVec.ofNat 8 k)).toNat * (c (BitVec.ofNat 8 k)).length).sum

/-! ### CBUILD -/

/-- 42_code_table.md R131: with TREE_V = 1 and a tree within the store's capacity CBUILD completes: a symbol
that is no leaf has no code; the entry of any other is the path to its last leaf in pre-order, left
justified, zero beyond its length; CODE_V is set; nothing else changes. -/
def Obligations.CbuildRecordsThePaths : Prop :=
  ∀ s : State, s.status.treeV = true → s.tree.leaves.length ≤ Config.maxLeaves →
    ∃ t, exec .cbuild s = .next t ∧
      (∀ b, (t.codeOf b).present = decide (b ∈ s.tree.leaves) ∧
        (t.codeOf b).seq = (((s.tree.paths.filter fun x => x.1 == b).getLast?).map Prod.snd).getD [] ∧
        ∀ i < 256, (t.codeOf b).len.toNat ≤ i → (t.codeOf b).bits.getLsbD (255 - i) = false) ∧
      t = { s with
        code := t.code
        status := { s.status with busy := false, done := true, phase := 0, codeV := true } }

/-- 42_code_table.md R132: after CBUILD on a tree with distinct leaves every leaf's symbol has exactly one
entry, of the length of its leaf's depth; no code is a prefix of another; with at least two leaves
every code has a bit; and the Kraft sum is 1 (both sides times 2^255). -/
def Obligations.CodesAreAFullPrefixCode : Prop :=
  ∀ s t : State, s.status.treeV = true → s.tree.leaves.length ≤ Config.maxLeaves → s.tree.leaves.Nodup →
    exec .cbuild s = .next t →
    (∀ b, (t.codeOf b).present = true ↔ b ∈ s.tree.leaves) ∧
    (∀ x ∈ s.tree.paths, (t.codeOf x.1).seq = x.2 ∧ (t.codeOf x.1).len.toNat = x.2.length) ∧
    (∀ b b', b ≠ b' → (t.codeOf b).present = true → (t.codeOf b').present = true →
      ¬ (t.codeOf b).seq <+: (t.codeOf b').seq) ∧
    (2 ≤ s.tree.leaves.length → ∀ b, (t.codeOf b).present = true → 1 ≤ (t.codeOf b).len.toNat) ∧
    ((List.range 256).map fun k =>
      if (t.codeOf (BitVec.ofNat 8 k)).present then 2 ^ (255 - (t.codeOf (BitVec.ofNat 8 k)).len.toNat) else 0).sum
      = 2 ^ 255

/-! ### TSER and TDES -/

/-- 43_tree_serdes.md R139: with TREE_V = 1 and a tree within the store's capacity TSER completes: SHAPE,
LEAVES and the three lengths are the tree's serialization with pad bits 0; later elements are left as
they were; SER_V is set and HDRW cleared; nothing else changes. -/
def Obligations.TserSerializesTheTree : Prop :=
  ∀ s : State, s.status.treeV = true → s.tree.leaves.length ≤ Config.maxLeaves →
    ∃ t, exec .tser s = .next t ∧ Serialized t s.tree ∧
      t.shapeBitLen.toNat = 2 * s.tree.leaves.length - 1 ∧ t.leafCount.toNat = s.tree.leaves.length ∧
      (List.range t.shapeByteLen.toNat).map t.shapeByte = Sys2Proof.Machine.pack s.tree.shapeBits ∧
      (∀ k, t.shapeByteLen.toNat ≤ k → t.shapeByte k = s.shapeByte k) ∧
      (∀ k, t.leafCount.toNat ≤ k → t.leafByte k = s.leafByte k) ∧
      t = { s with
        shape := t.shape
        leaves := t.leaves
        shapeBitLen := t.shapeBitLen
        shapeByteLen := t.shapeByteLen
        leafCount := t.leafCount
        status := { s.status with busy := false, done := true, phase := 0, serV := true, hdrw := false } }

/-- 43_tree_serdes.md R145: what TDES does with SER_V = 1, for every content of SHAPE and LEAVES. Past the
capacity: TreeCapacity(0). If a prefix of the shape bits is a valid shape: LeafUnderrun(LEAF_COUNT)
when there are fewer leaf bytes than its leaves, TreeLeftover(bits used) when bits or leaf bytes
remain, and else completion, with the tree of those bits and leaf bytes. If none is: LeafUnderrun when
the 0 bits outnumber the leaf bytes, and else ShapeUnderrun(SHAPE_BITLEN). -/
def Obligations.TdesOutcomes : Prop :=
  ∀ s : State, s.status.serV = true →
    let raises := fun (code : BitVec 8) (info : Nat) =>
      exec .tdes s = .next
        { s with
          errCode := code
          errInfo := BitVec.ofNat 64 info
          status := { s.status with
            busy := false, done := false, err := true, phase := 8, treeV := false, codeV := false } }
    (¬ (s.shapeBitLen.toNat ≤ 511 ∧ s.leafCount.toNat ≤ 256) → raises 0x22 0) ∧
    (s.shapeBitLen.toNat ≤ 511 → s.leafCount.toNat ≤ 256 →
      (∀ (n : Nat) (p : Tree), n ≤ s.shapeBitLen.toNat → s.shapeSeq.take n = p.shapeBits →
        (s.leafCount.toNat < p.leaves.length → raises 0x24 s.leafCount.toNat) ∧
        (p.leaves.length ≤ s.leafCount.toNat →
          n < s.shapeBitLen.toNat ∨ p.leaves.length < s.leafCount.toNat → raises 0x25 n) ∧
        (n = s.shapeBitLen.toNat → p.leaves.length = s.leafCount.toNat →
          ∃ r : Tree, r.shapeBits = s.shapeSeq ∧ r.leaves = s.leafSeq ∧
            exec .tdes s = .next
              { s with
                tree := r
                status := { s.status with
                  busy := false, done := true, phase := 0, treeV := true, codeV := false } })) ∧
      ((∀ (n : Nat) (p : Tree), s.shapeSeq.take n ≠ p.shapeBits) →
        (s.leafCount.toNat < s.shapeSeq.count false → raises 0x24 s.leafCount.toNat) ∧
        (s.shapeSeq.count false ≤ s.leafCount.toNat → raises 0x23 s.shapeBitLen.toNat)))

/-- 43_tree_serdes.md R146: TSER followed by TDES leaves an equal tree in the store, with no fault; and when
TDES completes, the tree's serialization equals the SHAPE bits and the leaf bytes. -/
def Obligations.TreeRoundTrip : Prop :=
  (∀ s : State, s.status.treeV = true → s.tree.leaves.length ≤ Config.maxLeaves →
    ∃ t u, exec .tser s = .next t ∧ t.status.done = true ∧ exec .tdes t = .next u ∧ u.status.done = true ∧
      u.status.err = s.status.err ∧ u.tree = s.tree) ∧
  ∀ s u : State, exec .tdes s = .next u → u.status.done = true →
    u.tree.shapeBits = s.shapeSeq ∧ u.tree.leaves = s.leafSeq

/-! ### HEMIT and HPARSE -/

/-- 46_container.md R171: with SER_V = FREQ_V = 1 and OUT writable HEMIT completes: OUT holds the header, the
SHAPE bytes and the LEAVES bytes from address 0, OUT_LEN counts them, HDRW is set, and nothing else
changes, no OUT byte past them either. -/
def Obligations.HemitWritesHeaderAndTree : Prop :=
  ∀ s : State, s.status.serV = true → s.status.freqV = true →
    s.outWritable 0 (14 + s.shapeByteLen.toNat + s.leafCount.toNat) →
    ∃ t, exec .hemit s = .next t ∧
      t.outLen.toNat = 14 + s.shapeByteLen.toNat + s.leafCount.toNat ∧
      t.result = be 8 s.origSize.toNat ++ be 2 s.shapeBitLen.toNat ++ be 2 s.shapeByteLen.toNat
        ++ be 2 s.leafCount.toNat ++ (List.range s.shapeByteLen.toNat).map s.shapeByte ++ s.leafSeq ∧
      (∀ a, t.outLen.toNat ≤ a → t.outByte a = s.outByte a) ∧
      t = { s with
        outMem := t.outMem
        outLen := t.outLen
        status := { s.status with busy := false, done := true, phase := 0, hdrw := true } }

/-- 60_exceptions.md R218, R226 (b) in HEMIT (R171): the first OUT address that cannot be written is recorded
as IoWrite; OUT_LEN is the exact number of bytes appended before, and they stand in OUT; HDRW stays 0. -/
def Obligations.HemitRecordsTheUnwritableAddress : Prop :=
  ∀ (s : State) (a : Nat), s.status.serV = true → s.status.freqV = true → s.outWritable 0 a →
    a < 14 + s.shapeByteLen.toNat + s.leafCount.toNat →
    (s.platform.outCap.toNat ≤ a ∨ a ∈ s.platform.outFault) →
    ∃ t, exec .hemit s = .next t ∧ t.outLen.toNat = a ∧
      t.result = (be 8 s.origSize.toNat ++ be 2 s.shapeBitLen.toNat ++ be 2 s.shapeByteLen.toNat
        ++ be 2 s.leafCount.toNat ++ (List.range s.shapeByteLen.toNat).map s.shapeByte ++ s.leafSeq).take a ∧
      (∀ x, a ≤ x → t.outByte x = s.outByte x) ∧
      t = { s with
        outMem := t.outMem
        outLen := t.outLen
        errCode := 0x31
        errInfo := BitVec.ofNat 64 a
        status := { s.status with busy := false, done := false, err := true, phase := 5, hdrw := false } }

/-- 46_container.md R173: where IN holds a whole, consistent header and serialized tree within capacity, HPARSE
completes: the four fields are read big-endian and unsigned, the first ceil8(bit-length) shape bytes
and the leaf bytes are copied, PAYLOAD_OFF is the end of the leaf region, SER_V and PARSED are the
only validity flags set, and nothing else changes. -/
def Obligations.HparseReadsTheHeader : Prop :=
  ∀ (s : State) (orig bits bytes leaves : Nat), s.inReadable s.inLen.toNat →
    orig = ube (s.inSeq 0 8) → bits = ube (s.inSeq 8 2) → bytes = ube (s.inSeq 10 2) →
    leaves = ube (s.inSeq 12 2) → bits ≤ 8 * bytes → bits ≤ 511 → leaves ≤ 256 →
    14 + bytes + leaves ≤ s.inLen.toNat →
    ∃ t, exec .hparse s = .next t ∧
      t.origSize.toNat = orig ∧ t.shapeBitLen.toNat = bits ∧ t.shapeByteLen.toNat = bytes ∧
      t.leafCount.toNat = leaves ∧ t.payloadOff.toNat = 14 + bytes + leaves ∧
      (List.range (ceil8 bits)).map t.shapeByte = s.inSeq 14 (ceil8 bits) ∧
      t.leafSeq = s.inSeq (14 + bytes) leaves ∧
      (∀ k, ceil8 bits ≤ k → t.shapeByte k = s.shapeByte k) ∧ (∀ k, leaves ≤ k → t.leafByte k = s.leafByte k) ∧
      t = { s with
        origSize := t.origSize
        shapeBitLen := t.shapeBitLen
        shapeByteLen := t.shapeByteLen
        leafCount := t.leafCount
        payloadOff := t.payloadOff
        shape := t.shape
        leaves := t.leaves
        status := { s.status with
          busy := false, done := true, phase := 0, freqV := false, treeV := false, codeV := false,
          serV := true, hdrw := false, parsed := true } }

/-- 60_exceptions.md R209, R210, R211 with the order of R224: HPARSE records HdrEof(14) when IN_LEN is below
14; HdrField(bit-length) when the shape region cannot hold the bits; TreeCapacity(0) past 511 bits or
256 leaves, and TDES too; HdrEof(14 + byte-length + leaf count) when that exceeds IN_LEN. The header
registers but for the first case hold what was read. And R217 in HPARSE: the first address it reads and
cannot is recorded as IoRead, in the fixed header, the shape bytes or the leaf bytes, with what was read
before it copied and nothing else. -/
def Obligations.HparseFaultsInOrder : Prop :=
  (∀ (s : State) (orig bits bytes leaves : Nat), s.inReadable 14 →
    orig = ube (s.inSeq 0 8) → bits = ube (s.inSeq 8 2) → bytes = ube (s.inSeq 10 2) →
    leaves = ube (s.inSeq 12 2) →
    let raises := fun (code : BitVec 8) (info : Nat) =>
      ∃ t, exec .hparse s = .next t ∧ t.origSize.toNat = orig ∧ t.shapeBitLen.toNat = bits ∧
        t.shapeByteLen.toNat = bytes ∧ t.leafCount.toNat = leaves ∧
        t = { s with
          origSize := t.origSize
          shapeBitLen := t.shapeBitLen
          shapeByteLen := t.shapeByteLen
          leafCount := t.leafCount
          errCode := code
          errInfo := BitVec.ofNat 64 info
          status := { s.status with
            busy := false, done := false, err := true, phase := 7, freqV := false, treeV := false,
            codeV := false, serV := false, hdrw := false, parsed := false } }
    14 ≤ s.inLen.toNat →
    (8 * bytes < bits → raises 0x21 bits) ∧
    (bits ≤ 8 * bytes → 511 < bits ∨ 256 < leaves → raises 0x22 0) ∧
    (bits ≤ 8 * bytes → bits ≤ 511 → leaves ≤ 256 → s.inLen.toNat < 14 + bytes + leaves →
      raises 0x20 (14 + bytes + leaves))) ∧
  (∀ s : State, s.inLen.toNat < 14 →
    exec .hparse s = .next
      { s with
        errCode := 0x20
        errInfo := 14
        status := { s.status with
          busy := false, done := false, err := true, phase := 7, freqV := false, treeV := false,
          codeV := false, serV := false, hdrw := false, parsed := false } }) ∧
  (∀ s : State, s.status.serV = true → 511 < s.shapeBitLen.toNat ∨ 256 < s.leafCount.toNat →
    exec .tdes s = .next
      { s with
        errCode := 0x22
        errInfo := 0
        status := { s.status with
          busy := false, done := false, err := true, phase := 8, treeV := false, codeV := false } }) ∧
  (∀ (s : State) (a : Nat), 14 ≤ s.inLen.toNat → a < 14 → s.inReadable a →
    (s.platform.inCap.toNat ≤ a ∨ a ∈ s.platform.inFault) →
    exec .hparse s = .next
      { s with
        errCode := 0x30
        errInfo := BitVec.ofNat 64 a
        status := { s.status with
          busy := false, done := false, err := true, phase := 7, freqV := false, treeV := false,
          codeV := false, serV := false, hdrw := false, parsed := false } }) ∧
  ∀ (s : State) (orig bits bytes leaves : Nat), s.inReadable 14 →
    orig = ube (s.inSeq 0 8) → bits = ube (s.inSeq 8 2) → bytes = ube (s.inSeq 10 2) →
    leaves = ube (s.inSeq 12 2) → bits ≤ 8 * bytes → bits ≤ 511 → leaves ≤ 256 →
    14 + bytes + leaves ≤ s.inLen.toNat →
    let fails := fun (a shapes leafs : Nat) =>
      ∃ t, exec .hparse s = .next t ∧ t.origSize.toNat = orig ∧ t.shapeBitLen.toNat = bits ∧
        t.shapeByteLen.toNat = bytes ∧ t.leafCount.toNat = leaves ∧
        (∀ k, t.shapeByte k = if k < shapes then s.inByte (14 + k) else s.shapeByte k) ∧
        (∀ k, t.leafByte k = if k < leafs then s.inByte (14 + bytes + k) else s.leafByte k) ∧
        t = { s with
          origSize := t.origSize
          shapeBitLen := t.shapeBitLen
          shapeByteLen := t.shapeByteLen
          leafCount := t.leafCount
          shape := t.shape
          leaves := t.leaves
          errCode := 0x30
          errInfo := BitVec.ofNat 64 a
          status := { s.status with
            busy := false, done := false, err := true, phase := 7, freqV := false, treeV := false,
            codeV := false, serV := false, hdrw := false, parsed := false } }
    (∀ k < ceil8 bits, s.inReadable (14 + k) →
      (s.platform.inCap.toNat ≤ 14 + k ∨ 14 + k ∈ s.platform.inFault) → fails (14 + k) k 0) ∧
    (∀ k < leaves, s.inReadable (14 + ceil8 bits) →
      (∀ j < k, 14 + bytes + j < s.platform.inCap.toNat ∧ 14 + bytes + j ∉ s.platform.inFault) →
      (s.platform.inCap.toNat ≤ 14 + bytes + k ∨ 14 + bytes + k ∈ s.platform.inFault) →
      fails (14 + bytes + k) (ceil8 bits) k)

/-! ### PACK -/

/-- 44_packer.md R154 (and R153): with CODE_V = HDRW = 1, IN_LEN unchanged since FSCAN, every source byte
readable and coded, and OUT writable, PACK completes: it appends exactly the packed concatenation of
the codes, HDRW is cleared, and nothing else changes. Where FREQ holds the counts of the source, the
number of payload bits is the sum of FREQ[b] * CODE[b].len. -/
def Obligations.PackAppendsTheCodes : Prop :=
  ∀ s : State, s.status.codeV = true → s.status.hdrw = true → s.inLen = s.origSize →
    s.inReadable s.inLen.toNat → (∀ b ∈ s.source, (s.codeOf b).present = true) →
    s.outWritable s.outLen.toNat (s.outLen.toNat + ceil8 (s.codeBits s.source).length) →
    (∃ t, exec .pack s = .next t ∧
      t.outLen.toNat = s.outLen.toNat + ceil8 (s.codeBits s.source).length ∧
      t.outSeq s.outLen.toNat (ceil8 (s.codeBits s.source).length)
        = Sys2Proof.Machine.pack (s.codeBits s.source) ∧
      (∀ a, a < s.outLen.toNat ∨ t.outLen.toNat ≤ a → t.outByte a = s.outByte a) ∧
      t = { s with
        outMem := t.outMem
        outLen := t.outLen
        status := { s.status with busy := false, done := true, phase := 0, hdrw := false } }) ∧
    ((∀ b, (s.freqOf b).toNat = s.source.count b) →
      (s.codeBits s.source).length = ((List.range 256).map fun k =>
        (s.freqOf (BitVec.ofNat 8 k)).toNat * (s.codeOf (BitVec.ofNat 8 k)).len.toNat).sum)

/-- 60_exceptions.md R222: PACK with IN_LEN different from ORIG_SIZE records InputChanged(IN_LEN). -/
def Obligations.PackRejectsAChangedLength : Prop :=
  ∀ s : State, s.status.codeV = true → s.status.hdrw = true → s.inLen ≠ s.origSize →
    exec .pack s = .next
      { s with
        errCode := 0x43
        errInfo := s.inLen
        status := { s.status with busy := false, done := false, err := true, phase := 6, hdrw := false } }

/-- 60_exceptions.md R221, R217, R218 in PACK, byte by byte (R224): the first source byte that has no code is
recorded as NoCode, the first source address that cannot be read as IoRead, with the whole bytes of the
codes before it appended; the first OUT address that cannot be written, while the codes of the first i
bytes are drained or, i being all of them, flushed, as IoWrite, with the packed bytes below it appended. -/
def Obligations.PackFaultsInOrder : Prop :=
  ∀ (s : State) (i : Nat), s.status.codeV = true → s.status.hdrw = true → s.inLen = s.origSize →
    s.inReadable i → (∀ k < i, (s.codeOf (s.inByte k)).present = true) →
    let bits := s.codeBits (s.inSeq 0 i)
    let fails := fun (code : BitVec 8) (info : Nat) (n : Nat) (appended : ByteSeq) =>
      ∃ t, exec .pack s = .next t ∧ t.outLen.toNat = s.outLen.toNat + n ∧
        t.outSeq s.outLen.toNat n = appended ∧
        (∀ a, a < s.outLen.toNat ∨ t.outLen.toNat ≤ a → t.outByte a = s.outByte a) ∧
        t = { s with
          outMem := t.outMem
          outLen := t.outLen
          errCode := code
          errInfo := BitVec.ofNat 64 info
          status := { s.status with busy := false, done := false, err := true, phase := 6, hdrw := false } }
    (i < s.inLen.toNat → s.inReadable (i + 1) → (s.codeOf (s.inByte i)).present = false →
      s.outWritable s.outLen.toNat (s.outLen.toNat + bits.length / 8) →
      fails 0x42 i (bits.length / 8) (wholeBytes (bits.length / 8) bits)) ∧
    (i < s.inLen.toNat → (s.platform.inCap.toNat ≤ i ∨ i ∈ s.platform.inFault) →
      s.outWritable s.outLen.toNat (s.outLen.toNat + bits.length / 8) →
      fails 0x30 i (bits.length / 8) (wholeBytes (bits.length / 8) bits)) ∧
    (∀ n, i ≤ s.inLen.toNat → n < bits.length / 8 ∨ (i = s.inLen.toNat ∧ n < ceil8 bits.length) →
      s.outWritable s.outLen.toNat (s.outLen.toNat + n) →
      (s.platform.outCap.toNat ≤ s.outLen.toNat + n ∨ s.outLen.toNat + n ∈ s.platform.outFault) →
      fails 0x31 (s.outLen.toNat + n) n ((Sys2Proof.Machine.pack bits).take n))

/-- 44_packer.md R152: after every drain at most 7 bits are carried, before one at most 262 bits, its capacity
(00_scope.md R7), stand in the accumulator, so that a code appended to what is carried is appended whole,
and the bytes drained, expanded, followed by what is carried, are what was appended. -/
def Obligations.AccumulatorLosesNoBit : Prop :=
  ∀ (acc : BitSeq) (e : CodeEntry),
    (carried acc).length ≤ 7 ∧ (carried acc ++ e.seq).length ≤ 262 ∧
    appendBits (carried acc) e.seq = carried acc ++ e.seq ∧
    (drained acc).flatMap bits8 ++ carried acc = acc

/-! ### UNPACK -/

/-- 45_unpacker.md R161, R162: with TREE_V = PARSED = 1, a tree of at least two leaves, and a payload that
begins with the codes of ORIG_SIZE leaves, whatever follows them, UNPACK completes: OUT holds those
leaves' bytes from address 0 and OUT_LEN = ORIG_SIZE; nothing else changes. With ORIG_SIZE = 0 it
completes whatever the tree and the payload are. -/
def Obligations.UnpackDecodesTheCodes : Prop :=
  (∀ (s : State) (l r : Tree) (ps : List (Byte × BitSeq)) (rest : BitSeq),
    s.status.treeV = true → s.status.parsed = true → s.tree = .node l r → (∀ x ∈ ps, x ∈ s.tree.paths) →
    ps.length = s.origSize.toNat → s.payloadOff.toNat ≤ s.inLen.toNat →
    (s.inSeq s.payloadOff.toNat (s.inLen.toNat - s.payloadOff.toNat)).flatMap bits8
      = ps.flatMap Prod.snd ++ rest →
    s.inReadable s.inLen.toNat → s.outWritable 0 s.origSize.toNat →
    ∃ t, exec .unpack s = .next t ∧ t.outLen = s.origSize ∧ t.result = ps.map Prod.fst ∧
      (∀ a, t.outLen.toNat ≤ a → t.outByte a = s.outByte a) ∧
      t = { s with
        outMem := t.outMem
        outLen := t.outLen
        status := { s.status with busy := false, done := true, phase := 0 } }) ∧
  ∀ s : State, s.status.treeV = true → s.status.parsed = true → s.origSize = 0 →
    exec .unpack s = .next
      { s with outLen := 0, status := { s.status with busy := false, done := true, phase := 0 } }

/-- 60_exceptions.md R215: UNPACK on a tree of one leaf with ORIG_SIZE above 0 records AbsentChild with the
address of the first payload byte. -/
def Obligations.UnpackFaultsOnASingleLeaf : Prop :=
  ∀ (s : State) (b : Byte), s.status.treeV = true → s.status.parsed = true → s.tree = .leaf b →
    s.origSize ≠ 0 → s.payloadOff.toNat < s.inLen.toNat → s.payloadOff.toNat < s.platform.inCap.toNat →
    s.payloadOff.toNat ∉ s.platform.inFault →
    exec .unpack s = .next
      { s with
        outLen := 0
        errCode := 0x26
        errInfo := s.payloadOff
        status := { s.status with busy := false, done := false, err := true, phase := 9 } }

/-- 60_exceptions.md R216, R217, R218 in UNPACK, byte by byte (R224). Where the payload holds the codes of fewer
than ORIG_SIZE leaves and then no whole code, UNPACK records PayloadEof(IN_LEN); where its bytes below an
address do and that address cannot be read, IoRead(address); on a tree of one leaf these two can arise at
the first payload byte only. Where the bytes read so far hold the codes of more leaves than OUT addresses
can be written, it records IoWrite at the first that cannot. The bytes decoded before stand in OUT and
are counted. -/
def Obligations.UnpackFaultsInOrder : Prop :=
  ∀ s : State, s.status.treeV = true → s.status.parsed = true → s.payloadOff.toNat ≤ s.inLen.toNat →
    let fails := fun (code : BitVec 8) (info : Nat) (out : ByteSeq) =>
      ∃ t, exec .unpack s = .next t ∧ t.outLen.toNat = out.length ∧ t.result = out ∧
        (∀ a, t.outLen.toNat ≤ a → t.outByte a = s.outByte a) ∧
        t = { s with
          outMem := t.outMem
          outLen := t.outLen
          errCode := code
          errInfo := BitVec.ofNat 64 info
          status := { s.status with busy := false, done := false, err := true, phase := 9 } }
    let readable := fun (n : Nat) =>
      ∀ a, s.payloadOff.toNat ≤ a → a < s.payloadOff.toNat + n → a < s.platform.inCap.toNat ∧ a ∉ s.platform.inFault
    (∀ (l r : Tree) (n : Nat) (ps : List (Byte × BitSeq)) (rest : BitSeq), s.tree = .node l r →
      s.payloadOff.toNat + n ≤ s.inLen.toNat → readable n → (∀ x ∈ ps, x ∈ s.tree.paths) →
      (s.inSeq s.payloadOff.toNat n).flatMap bits8 = ps.flatMap Prod.snd ++ rest →
      (ps.length < s.origSize.toNat → (∀ x ∈ s.tree.paths, ¬ x.2 <+: rest) → s.outWritable 0 ps.length →
        (s.payloadOff.toNat + n = s.inLen.toNat → fails 0x27 s.inLen.toNat (ps.map Prod.fst)) ∧
        (s.payloadOff.toNat + n < s.inLen.toNat →
          (s.platform.inCap.toNat ≤ s.payloadOff.toNat + n ∨ s.payloadOff.toNat + n ∈ s.platform.inFault) →
          fails 0x30 (s.payloadOff.toNat + n) (ps.map Prod.fst))) ∧
      (∀ a < s.origSize.toNat, a < ps.length → s.outWritable 0 a →
        (s.platform.outCap.toNat ≤ a ∨ a ∈ s.platform.outFault) → fails 0x31 a ((ps.map Prod.fst).take a))) ∧
    (s.payloadOff.toNat < s.inLen.toNat → s.origSize ≠ 0 →
      (s.platform.inCap.toNat ≤ s.payloadOff.toNat ∨ s.payloadOff.toNat ∈ s.platform.inFault) →
      fails 0x30 s.payloadOff.toNat []) ∧
    (s.payloadOff.toNat = s.inLen.toNat → s.origSize ≠ 0 → fails 0x27 s.inLen.toNat [])

/-! ### COMPRESS and DECOMPRESS -/

/-- 46_container.md R176 with 30_encoding.md R95 to R102: where the source has at least two distinct byte values
and can be read, there is a tree, the one built from the source's counts, such that COMPRESS
completes if OUT can hold the container: OUT holds exactly the container of the source with that
tree, STATUS is 0x00000F02, and only what the six stages write has changed. -/
def Obligations.CompressWritesTheContainer : Prop :=
  ∀ s : State, s.status.err = false → s.inReadable s.inLen.toNat → 2 ≤ s.counted.distinct →
    ∃ tr : Tree, s.counted.builtTree = some tr ∧ (∀ b, b ∈ tr.leaves ↔ b ∈ s.source) ∧
      (s.outWritable 0 (container tr s.source).length →
        ∃ t, exec .compress s = .next t ∧ t.result = container tr s.source ∧
          t.outLen.toNat = (container tr s.source).length ∧ t.tree = tr ∧
          t.status.toWord = 0x00000F02 ∧ (∀ b, (t.freqOf b).toNat = s.source.count b) ∧
          (∀ b ∈ s.source, (t.codeOf b).seq = tr.code b) ∧ t.origSize = s.inLen ∧
          (∀ a, t.outLen.toNat ≤ a → t.outByte a = s.outByte a) ∧
          Frame (commandParts .compress) s t ∧ t.errCode = s.errCode ∧ t.errInfo = s.errInfo)

/-- 41_tree_builder.md R126 in COMPRESS (46_container.md R176): a source with fewer than two distinct byte
values is rejected: InsufficientAlphabet(n), STATUS = 0x00000124, and OUT and OUT_LEN exactly as
before the command. -/
def Obligations.CompressRejectsASmallAlphabet : Prop :=
  ∀ s : State, s.inReadable s.inLen.toNat → s.counted.distinct < 2 →
    ∃ t, exec .compress s = .next t ∧ t.status.toWord = 0x00000124 ∧ t.errCode = 0x10 ∧
      t.errInfo.toNat = s.counted.distinct ∧ t.outLen = s.outLen ∧ (∀ a, t.outByte a = s.outByte a) ∧
      (∀ b, (t.freqOf b).toNat = s.source.count b)

/-- 46_container.md R180: where IN holds the container of `d` with a tree of at least two distinct leaves, and
anything after it, DECOMPRESS completes with `d` in OUT and STATUS = 0x00002A02. -/
def Obligations.DecompressReadsTheContainer : Prop :=
  ∀ (s : State) (tr : Tree) (d : ByteSeq), s.status.err = false → s.inReadable s.inLen.toNat →
    2 ≤ tr.leaves.length → tr.leaves.Nodup → (∀ b ∈ d, b ∈ tr.leaves) → d.length < 2 ^ 64 →
    (container tr d).length ≤ s.inLen.toNat → s.inSeq 0 (container tr d).length = container tr d →
    s.outWritable 0 d.length →
    ∃ t, exec .decompress s = .next t ∧ t.result = d ∧ t.outLen.toNat = d.length ∧ t.tree = tr ∧
      t.status.toWord = 0x00002A02 ∧ t.origSize.toNat = d.length ∧
      (∀ a, t.outLen.toNat ≤ a → t.outByte a = s.outByte a) ∧
      Frame (commandParts .decompress) s t ∧ t.errCode = s.errCode ∧ t.errInfo = s.errInfo

/-- 45_unpacker.md R164: if COMPRESS completes on source bytes d, then DECOMPRESS of what it left in OUT
completes with `OUT[0 .. OUT_LEN) = d`. -/
def Obligations.DecompressInvertsCompress : Prop :=
  ∀ s t u : State, exec .compress s = .next t → t.status.done = true →
    u.inLen = t.outLen → (∀ a < t.outLen.toNat, u.inByte a = t.outByte a) → u.inReadable u.inLen.toNat →
    u.outWritable 0 s.inLen.toNat →
    ∃ v, exec .decompress u = .next v ∧ v.status.done = true ∧ v.status.err = u.status.err ∧ v.result = s.source

/-- 46_container.md R177 and R181: a COMPRESS that completes leaves the state that the six stage commands issued
one after another leave, with TSER before CBUILD too; a DECOMPRESS that completes the state that HPARSE,
TDES, UNPACK leave. -/
def Obligations.MacrosEqualTheirStages : Prop :=
  (∀ s t : State, exec .compress s = .next t → t.status.done = true →
    runCommands [.fscan, .tbuild, .cbuild, .tser, .hemit, .pack] s = .next t ∧
    runCommands [.fscan, .tbuild, .tser, .cbuild, .hemit, .pack] s = .next t) ∧
  ∀ s t : State, exec .decompress s = .next t → t.status.done = true →
    runCommands [.hparse, .tdes, .unpack] s = .next t

/-! ### Rules about every command -/

/-- 70_reset_and_hazards.md R269, 60_exceptions.md R227 and R264: every command ends in a next state; a stage
or macro command ends with BUSY = 0 and exactly one of DONE and ERR if no fault was recorded before. -/
def Obligations.EveryCommandEnds : Prop :=
  ∀ (i : Instr) (s : State), ∃ t, exec i s = .next t ∧
    (i ≠ .nop → i ≠ .clr → t.status.busy = false ∧ (s.status.err = false → t.status.done = !t.status.err))

/-- 10_state.md R26 with the flags of R40, and R187, R225: a command changes no part of the state but those
its row of the table writes, the flags its stages clear or set, BUSY, DONE, PHASE and the fault
record; completed or faulted. IN, IN_LEN and what is outside the block never change. -/
def Obligations.CommandsWriteOnlyTheirParts : Prop :=
  ∀ (i : Instr) (s t : State), exec i s = .next t → Frame (commandParts i) s t

/-- 10_state.md R32, 20_memory.md R69 and R77: a command leaves every OUT byte below where it starts to append
(OUT_LEN for PACK, 0 for the others) and every OUT byte at or above the final OUT_LEN as it was. -/
def Obligations.OutputStaysWithinOutLen : Prop :=
  ∀ (i : Instr) (s t : State), exec i s = .next t →
    ∀ a, a < (if i = .pack then s.outLen.toNat else 0) ∨ t.outLen.toNat ≤ a → i ≠ .clr →
      t.outByte a = s.outByte a

/-- 60_exceptions.md R226 (b): a fault in FSCAN, TBUILD, CBUILD, TSER, HPARSE or TDES, as a stage command or
inside a macro command (PHASE says which), leaves OUT and OUT_LEN exactly as before the command. -/
def Obligations.EarlyFaultsLeaveOutputAlone : Prop :=
  ∀ (i : Instr) (s t : State), i ≠ .nop → i ≠ .clr → exec i s = .next t → t.status.done = false →
    t.status.phase ≠ 5 → t.status.phase ≠ 6 → t.status.phase ≠ 9 →
    t.outLen = s.outLen ∧ ∀ a, t.outByte a = s.outByte a

/-- 70_reset_and_hazards.md R270, 20_memory.md R69: a command's outcome depends on IN only below IN_LEN. -/
def Obligations.InputBeyondInLenIsNotSeen : Prop :=
  ∀ (i : Instr) (s t : State) (m : Memory),
    (∀ a < s.inLen.toNat, ({ s with inMem := m } : State).inByte a = s.inByte a) →
    exec i s = .next t → exec i { s with inMem := m } = .next { t with inMem := m }

/-! ### Invariants -/

/-- The fault record and STATUS stay consistent (R30, R33, R41, R207, R225): every step keeps it. -/
def Obligations.StepKeepsTheRecordConsistent : Prop :=
  ∀ s t : State, RecordInv s → step s = .next t → RecordInv t

/-- 10_state.md R52 (a), (b), and that CODE_V implies TREE_V: every step keeps it. -/
def Obligations.StepKeepsTheFlagsConsistent : Prop :=
  ∀ s t : State, FlagInv s → step s = .next t → FlagInv t

/-- The memories stay canonical, OUT_LEN stays within OUT_CAP (R199) and every OUT byte below OUT_LEN has been
written (R32): every step keeps it. -/
def Obligations.StepKeepsTheMemories : Prop :=
  ∀ s t : State, MemoryInv s → step s = .next t → MemoryInv t

/-- 10_state.md R36 to R39, R43, R51, R52 (c), 40_frequency.md R117: what the validity flags promise: every step
keeps it. -/
def Obligations.StepKeepsWhatTheFlagsPromise : Prop :=
  ∀ s t : State, DataInv s → step s = .next t → DataInv t

/-- The invariants hold right after reset. -/
def Obligations.ResetMeetsTheInvariants : Prop :=
  RecordInv State.reset ∧ FlagInv State.reset ∧ MemoryInv State.reset ∧ DataInv State.reset

/-- 10_state.md R52 (d): when PACK's preconditions hold, CODE is the code table of the tree whose serialization
stands in SHAPE and LEAVES, and every symbol FSCAN counted has a code. -/
def Obligations.PackFindsEveryCountedSymbol : Prop :=
  ∀ s : State, DataInv s → s.status.codeV = true → s.status.hdrw = true →
    s.code = codeTable s.tree ∧ Serialized s s.tree ∧
    ∀ b, 0 < (s.freqOf b).toNat → (s.codeOf b).present = true
end

