-- ==== Sys2Proof/Laws/Memory.lean ====
section
/-! SUPPORT. The laws of byte memories: read after write, the canonical form, and copying. -/

namespace Sys2Proof.Machine

/-! ### Read after write -/

@[simp] theorem Memory.read?_nil (x : Nat) : Memory.read? [] x = none := rfl

theorem Memory.read?_write (m : Memory) (x : Nat) (v : Byte) (y : Nat) :
    (m.write x v).read? y = if y = x then some v else m.read? y := by
  induction m with
  | nil => simp [Memory.write, Memory.read?, eq_comm]
  | cons c m ih =>
    obtain ⟨a, b⟩ := c
    simp only [Memory.write]
    split
    · simp [Memory.read?, eq_comm]
    · split
      · subst_vars
        simp only [Memory.read?]
        split <;> simp_all [eq_comm]
      · simp only [Memory.read?, ih]
        split <;> split <;> simp_all

@[simp] theorem Memory.read?_write_same (m : Memory) (x : Nat) (v : Byte) :
    (m.write x v).read? x = some v := by simp [Memory.read?_write]

theorem Memory.read?_write_other (m : Memory) {x y : Nat} (v : Byte) (h : y ≠ x) :
    (m.write x v).read? y = m.read? y := by simp [Memory.read?_write, h]

/-! ### The canonical form -/

theorem Memory.risingFrom_mono {lo lo' : Nat} (h : lo' ≤ lo) :
    ∀ m : Memory, Memory.risingFrom lo m = true → Memory.risingFrom lo' m = true
  | [], _ => rfl
  | (a, _) :: m, hm => by
    simp only [Memory.risingFrom, Bool.and_eq_true, decide_eq_true_eq] at hm ⊢
    exact ⟨by omega, hm.2⟩

theorem Memory.risingFrom_write {x : Nat} (v : Byte) :
    ∀ (m : Memory) {lo : Nat}, lo ≤ x → Memory.risingFrom lo m = true →
      Memory.risingFrom lo (m.write x v) = true
  | [], lo, h, _ => by simp [Memory.write, Memory.risingFrom, h]
  | (a, b) :: m, lo, h, hm => by
    simp only [Memory.risingFrom, Bool.and_eq_true, decide_eq_true_eq] at hm
    simp only [Memory.write]
    split
    · simp only [Memory.risingFrom, Bool.and_eq_true, decide_eq_true_eq]
      exact ⟨h, by omega, hm.2⟩
    · split
      · simp only [Memory.risingFrom, Bool.and_eq_true, decide_eq_true_eq]
        exact hm
      · simp only [Memory.risingFrom, Bool.and_eq_true, decide_eq_true_eq]
        exact ⟨hm.1, Memory.risingFrom_write v m (by omega) hm.2⟩

/-- A write keeps the canonical form. -/
theorem Memory.wf_write {m : Memory} (h : m.wf = true) (x : Nat) (v : Byte) : (m.write x v).wf = true :=
  Memory.risingFrom_write v m (Nat.zero_le x) h

/-- Copying keeps the canonical form. -/
theorem Memory.wf_copyFrom (src : Memory) :
    ∀ (n a : Nat) {m : Memory}, m.wf = true → (Memory.copyFrom src n a m).wf = true
  | 0, _, _, h => h
  | n + 1, a, m, h => by
    simp only [Memory.copyFrom]
    apply Memory.wf_copyFrom src n
    split
    · exact Memory.wf_write h _ _
    · exact h

theorem State.reset_inMem_wf : State.reset.inMem.wf = true := rfl
theorem State.reset_outMem_wf : State.reset.outMem.wf = true := rfl

/-- Nothing below the first address of a rising list is listed. -/
theorem Memory.read?_eq_none_of_lt : ∀ (m : Memory) {lo x : Nat}, Memory.risingFrom lo m = true → x < lo →
    m.read? x = none
  | [], _, _, _, _ => rfl
  | (a, b) :: m, lo, x, h, hx => by
    simp only [Memory.risingFrom, Bool.and_eq_true, decide_eq_true_eq] at h
    have hne : a ≠ x := by omega
    simp only [Memory.read?, if_neg hne]
    exact Memory.read?_eq_none_of_lt m h.2 (by omega)

theorem Memory.ext_of_risingFrom : ∀ (m m' : Memory) {lo : Nat}, Memory.risingFrom lo m = true →
    Memory.risingFrom lo m' = true → (∀ x, m.read? x = m'.read? x) → m = m'
  | [], [], _, _, _, _ => rfl
  | [], (a, b) :: m', _, _, _, h => by simpa [Memory.read?] using h a
  | (a, b) :: m, [], _, _, _, h => by simpa [Memory.read?] using h a
  | (a, b) :: m, (a', b') :: m', lo, hm, hm', h => by
    simp only [Memory.risingFrom, Bool.and_eq_true, decide_eq_true_eq] at hm hm'
    have ha : a = a' := by
      by_contra hne
      rcases Nat.lt_or_gt_of_ne hne with hlt | hlt
      · have := h a
        rw [Memory.read?, if_pos rfl, Memory.read?, if_neg (by omega),
          Memory.read?_eq_none_of_lt m' hm'.2 (by omega)] at this
        exact absurd this (by simp)
      · have := h a'
        rw [Memory.read?, if_neg (by omega), Memory.read?, if_pos rfl,
          Memory.read?_eq_none_of_lt m hm.2 (by omega)] at this
        exact absurd this (by simp)
    subst ha
    have hb : b = b' := by simpa [Memory.read?] using h a
    subst hb
    have : m = m' := Memory.ext_of_risingFrom m m' hm.2 hm'.2 fun x => by
      by_cases hx : a = x
      · subst hx
        rw [Memory.read?_eq_none_of_lt m hm.2 (by omega), Memory.read?_eq_none_of_lt m' hm'.2 (by omega)]
      · simpa [Memory.read?, hx] using h x
    rw [this]

/-- Equal memories are equal data: two canonical memories that read alike are the same list. -/
theorem Memory.ext_of_wf {m m' : Memory} (h : m.wf = true) (h' : m'.wf = true)
    (hr : ∀ x, m.read? x = m'.read? x) : m = m' := Memory.ext_of_risingFrom m m' h h' hr

/-! ### Copying -/

theorem Memory.read?_copyFrom (src : Memory) : ∀ (n a : Nat) (m : Memory) (x : Nat),
    (Memory.copyFrom src n a m).read? x =
      if a ≤ x ∧ x < a + n then (match src.read? x with | some b => some b | none => m.read? x)
      else m.read? x
  | 0, a, m, x => by simp [Memory.copyFrom]
  | n + 1, a, m, x => by
    simp only [Memory.copyFrom]
    rw [Memory.read?_copyFrom src n (a + 1)]
    cases hs : src.read? a with
    | none =>
      by_cases hx : x = a
      · subst hx; simp [hs]
      · simp only [show (a + 1 ≤ x ∧ x < a + 1 + n) ↔ (a ≤ x ∧ x < a + (n + 1)) by omega]
    | some b =>
      by_cases hx : x = a
      · subst hx; simp [hs]
      · simp only [show (a + 1 ≤ x ∧ x < a + 1 + n) ↔ (a ≤ x ∧ x < a + (n + 1)) by omega,
          Memory.read?_write_other m b hx]

end Sys2Proof.Machine
end

