-- ==== Sys2Proof/Laws/Operands.lean ====
section
/-! SUPPORT. The laws of bit sequences, bytes, big-endian integers, code entries and tree shapes. -/

namespace Sys2Proof.Machine

/-! ### The number a bit sequence spells -/

theorem natOfBits_foldl (q : BitSeq) (n : Nat) :
    q.foldl (fun n b => 2 * n + b.toNat) n = n * 2 ^ q.length + natOfBits q := by
  induction q generalizing n with
  | nil => simp [natOfBits]
  | cons b q ih =>
    simp only [List.foldl_cons, natOfBits, List.length_cons]
    rw [ih, ih (2 * 0 + b.toNat), pow_succ]
    ring

@[simp] theorem natOfBits_nil : natOfBits [] = 0 := rfl

theorem natOfBits_cons (b : Bool) (q : BitSeq) :
    natOfBits (b :: q) = b.toNat * 2 ^ q.length + natOfBits q := by
  have := natOfBits_foldl q (2 * 0 + b.toNat)
  simpa [natOfBits] using this

theorem natOfBits_lt (q : BitSeq) : natOfBits q < 2 ^ q.length := by
  induction q with
  | nil => simp
  | cons b q ih =>
    rw [natOfBits_cons, List.length_cons, pow_succ]
    cases b <;> simp <;> omega

/-- Bit i of the sequence is bit `|q| - 1 - i` of the number. -/
theorem testBit_natOfBits (q : BitSeq) (i : Nat) (h : i < q.length) :
    (natOfBits q).testBit (q.length - 1 - i) = q[i] := by
  induction q generalizing i with
  | nil => simp at h
  | cons b q ih =>
    have hlt := natOfBits_lt q
    rw [natOfBits_cons, Nat.mul_comm]
    cases i with
    | zero =>
      rw [Nat.testBit_two_pow_mul_add _ hlt]
      simp only [List.length_cons, Nat.add_sub_cancel, Nat.sub_zero, lt_irrefl, if_false, Nat.sub_self,
        List.getElem_cons_zero]
      cases b <;> rfl
    | succ j =>
      simp only [List.length_cons, add_lt_add_iff_right] at h
      rw [Nat.testBit_two_pow_mul_add _ hlt, if_pos (by simp only [List.length_cons]; omega), List.length_cons,
        show q.length + 1 - 1 - (j + 1) = q.length - 1 - j by omega, ih j h]
      rfl

/-! ### Bits to bytes and back (R11) -/

@[simp] theorem length_bits8 (b : Byte) : (bits8 b).length = 8 := rfl

/-- `byte8(bits8(B)) = B` (R11). -/
theorem byte8_bits8 (b : Byte) : byte8 (bits8 b) = b := by
  revert b; decide +kernel

/-- `bits8(byte8(q)) = q` for a sequence of length 8 (R11). -/
theorem bits8_byte8 (q : BitSeq) (h : q.length = 8) : bits8 (byte8 q) = q := by
  match q, h with
  | [a, b, c, d, e, f, g, i], _ => revert a b c d e f g i; decide +kernel

@[simp] theorem length_wholeBytes (n : Nat) (q : BitSeq) : (wholeBytes n q).length = n := by
  induction n generalizing q with
  | zero => rfl
  | succ n ih => simp [wholeBytes, ih]

/-- The bits of the first n whole bytes are the first 8n bits. -/
theorem flatMap_bits8_wholeBytes (n : Nat) (q : BitSeq) (h : 8 * n ≤ q.length) :
    (wholeBytes n q).flatMap bits8 = q.take (8 * n) := by
  induction n generalizing q with
  | zero => simp [wholeBytes]
  | succ n ih =>
    simp only [wholeBytes, Config.chunkBits, List.flatMap_cons]
    rw [bits8_byte8 _ (by rw [List.length_take]; omega), ih _ (by rw [List.length_drop]; omega),
      show 8 * (n + 1) = 8 + 8 * n by omega, List.take_add]

theorem wholeBytes_append (n m : Nat) (q : BitSeq) :
    wholeBytes (n + m) q = wholeBytes n q ++ wholeBytes m (q.drop (8 * n)) := by
  induction n generalizing q with
  | zero => simp [wholeBytes]
  | succ n ih =>
    rw [show n + 1 + m = (n + m) + 1 by omega]
    simp only [wholeBytes, Config.chunkBits, ih, List.drop_drop, List.cons_append,
      show 8 + 8 * n = 8 * (n + 1) by omega]

/-- Whole bytes depend only on the bits they hold. -/
theorem wholeBytes_append_right (n : Nat) (q r : BitSeq) (h : 8 * n ≤ q.length) :
    wholeBytes n (q ++ r) = wholeBytes n q := by
  induction n generalizing q with
  | zero => rfl
  | succ n ih =>
    simp only [wholeBytes, Config.chunkBits]
    rw [List.take_append_of_le_length (by omega), List.drop_append_of_le_length (by omega),
      ih _ (by rw [List.length_drop]; omega)]

theorem ceil8_mul_ge (n : Nat) : n ≤ 8 * ceil8 n := by unfold ceil8; omega

theorem ceil8_le (n : Nat) : 8 * ceil8 n < n + 8 := by unfold ceil8; omega

/-- `pack(s)` has length `ceil8(|s|)` (R11). -/
@[simp] theorem length_pack (q : BitSeq) : (pack q).length = ceil8 q.length := by simp [pack]

@[simp] theorem length_zeros (n : Nat) : (zeros n).length = n := by simp [zeros]

/-- The bits of `pack(s)` are those of s, then the pad bits (R11). -/
theorem flatMap_bits8_pack (q : BitSeq) :
    (pack q).flatMap bits8 = q ++ zeros (8 * ceil8 q.length - q.length) := by
  have := ceil8_mul_ge q.length
  rw [pack, flatMap_bits8_wholeBytes _ _ (by simp; omega), List.take_of_length_le (by simp; omega)]

/-- Packing is compositional at byte boundaries. -/
theorem pack_append (q r : BitSeq) (n : Nat) (h : q.length = 8 * n) :
    pack (q ++ r) = wholeBytes n q ++ pack r := by
  have h1 : ceil8 (q ++ r).length = n + ceil8 r.length := by
    simp only [List.length_append, ceil8]; omega
  simp only [pack, h1, List.append_assoc]
  rw [wholeBytes_append, wholeBytes_append_right n q _ (by omega), List.drop_append_of_le_length (by omega),
    List.drop_of_length_le (by omega), List.nil_append]
  congr 3
  simp only [List.length_append]
  congr 1
  omega

/-- After every drain at most 7 bits are carried (R152). -/
theorem length_carried_lt (acc : BitSeq) : (carried acc).length < 8 := by
  simp only [carried, Config.chunkBits, List.length_drop]; omega

/-- Drained bytes, expanded, followed by what is carried, are the accumulator (R152). -/
theorem drained_carried (acc : BitSeq) : (drained acc).flatMap bits8 ++ carried acc = acc := by
  rw [drained, carried, Config.chunkBits, flatMap_bits8_wholeBytes _ _ (by omega), List.take_append_drop]

/-- Draining first does not change the packed bytes (R154). -/
theorem pack_drained (acc r : BitSeq) : pack (acc ++ r) = drained acc ++ pack (carried acc ++ r) := by
  conv_lhs => rw [← List.take_append_drop (8 * (acc.length / 8)) acc]
  rw [List.append_assoc, pack_append _ _ (acc.length / 8) (by rw [List.length_take]; omega)]
  congr 1
  rw [drained, Config.chunkBits]
  have := wholeBytes_append_right (acc.length / 8) (acc.take (8 * (acc.length / 8)))
    (acc.drop (8 * (acc.length / 8))) (by rw [List.length_take]; omega)
  rw [← this, List.take_append_drop]

/-- What flush emits is the packed remainder (R151, R154). -/
theorem pack_of_short (q : BitSeq) (h : q.length < 8) :
    pack q = if q.length = 0 then [] else [byte8 (q ++ zeros (8 - q.length))] := by
  split
  · have : q = [] := List.length_eq_zero_iff.mp ‹_›
    subst this; rfl
  · have h1 : ceil8 q.length = 1 := by unfold ceil8; omega
    simp only [pack, h1, wholeBytes, Config.chunkBits]
    rw [List.take_of_length_le (by simp; omega)]

/-! ### Big-endian integers (R12) -/

@[simp] theorem length_be (n v : Nat) : (be n v).length = n := by simp [be]

theorem be_succ (n v : Nat) : be (n + 1) v = BitVec.ofNat 8 (v / 256 ^ n) :: be n v := by
  simp only [be, List.range_succ_eq_map, List.map_cons, List.map_map, Nat.add_sub_cancel, Nat.sub_zero]
  congr 1
  apply List.map_congr_left
  intro k _
  simp only [Function.comp]
  congr 3
  omega

theorem ube_foldl (b : ByteSeq) (n : Nat) :
    b.foldl (fun n x => 256 * n + x.toNat) n = n * 256 ^ b.length + ube b := by
  induction b generalizing n with
  | nil => simp [ube]
  | cons x b ih =>
    simp only [List.foldl_cons, ube, List.length_cons]
    rw [ih, ih (256 * 0 + x.toNat), pow_succ]
    ring

theorem ube_cons (x : Byte) (b : ByteSeq) : ube (x :: b) = x.toNat * 256 ^ b.length + ube b := by
  have := ube_foldl b (256 * 0 + x.toNat)
  simpa [ube] using this

theorem ube_lt (b : ByteSeq) : ube b < 256 ^ b.length := by
  induction b with
  | nil => simp [ube]
  | cons x b ih =>
    rw [ube_cons, List.length_cons, pow_succ]
    have hx : x.toNat < 256 := x.isLt
    calc x.toNat * 256 ^ b.length + ube b < x.toNat * 256 ^ b.length + 256 ^ b.length := by omega
      _ = (x.toNat + 1) * 256 ^ b.length := by ring
      _ ≤ 256 * 256 ^ b.length := Nat.mul_le_mul_right _ (by omega)
      _ = 256 ^ b.length * 256 := by ring

theorem ube_be_mod (n v : Nat) : ube (be n v) = v % 256 ^ n := by
  induction n with
  | zero => simp [be, ube, Nat.mod_one]
  | succ n ih =>
    rw [be_succ, ube_cons, length_be, ih, BitVec.toNat_ofNat, show (2 : Nat) ^ 8 = 256 from rfl, pow_succ 256 n,
      Nat.mod_mul (a := 256 ^ n) (b := 256)]
    ring

/-- `ube(be(n, v)) = v` (R12). -/
theorem ube_be (n v : Nat) (h : v < 256 ^ n) : ube (be n v) = v := by
  rw [ube_be_mod, Nat.mod_eq_of_lt h]

/-! ### Code entries (R23) -/

@[simp] theorem CodeEntry.ofPath_present (p : BitSeq) : (CodeEntry.ofPath p).present = true := rfl

theorem CodeEntry.ofPath_len (p : BitSeq) (h : p.length ≤ 255) : (CodeEntry.ofPath p).len.toNat = p.length := by
  simp only [ofPath, BitVec.toNat_ofNat]; omega

/-- The bits of a path's entry are the path, left justified. -/
theorem CodeEntry.ofPath_bit (p : BitSeq) (h : p.length ≤ 255) (i : Nat) (hi : i < 256) :
    (CodeEntry.ofPath p).bits.getLsbD (255 - i) = p.getD i false := by
  have hlt := natOfBits_lt p
  simp only [ofPath, BitVec.getLsbD_ofNat, show 255 - i < 256 by omega, decide_true, Bool.true_and]
  rw [Nat.mul_comm, Nat.testBit_two_pow_mul]
  by_cases hip : i < p.length
  · have h1 : 255 - i - (256 - p.length) = p.length - 1 - i := by omega
    rw [h1, testBit_natOfBits p i hip]
    simp [hip]
    omega
  · simp [hip]
    intro h2
    omega

/-- The code sequence of a path's entry is the path (R23, R131). -/
theorem CodeEntry.seq_ofPath (p : BitSeq) (h : p.length ≤ 255) : (CodeEntry.ofPath p).seq = p := by
  apply List.ext_getElem
  · simp [seq, ofPath_len p h]
  · intro i h1 h2
    simp only [seq, List.getElem_map, List.getElem_range]
    rw [ofPath_bit p h i (by omega)]
    simp [h2]

@[simp] theorem CodeEntry.length_seq (e : CodeEntry) : e.seq.length = e.len.toNat := by simp [seq]

/-! ### Trees (R17, R104) -/

theorem Tree.leaves_length_pos (t : Tree) : 0 < t.leaves.length := by
  induction t with
  | leaf => simp [leaves]
  | node l r ihl ihr => simp only [leaves, List.length_append]; omega

/-- A strict binary tree with L leaves has 2L - 1 nodes. -/
theorem Tree.nodes_eq (t : Tree) : t.nodes + 1 = 2 * t.leaves.length := by
  induction t with
  | leaf => rfl
  | node l r ihl ihr => simp only [leaves, nodes, List.length_append]; omega

/-- `|sh(t)| = nodes(t)` (R104). -/
theorem Tree.length_shapeBits (t : Tree) : t.shapeBits.length = t.nodes := by
  induction t with
  | leaf => rfl
  | node l r ihl ihr => simp only [shapeBits, nodes, List.length_cons, List.length_append]; omega

/-- The number of 0 bits of a shape is the number of leaves (R104). -/
theorem Tree.count_shapeBits (t : Tree) : t.shapeBits.count false = t.leaves.length := by
  induction t with
  | leaf => rfl
  | node l r ihl ihr => simp [shapeBits, leaves, ihl, ihr]

/-- A strict binary tree with L leaves has depth at most L - 1 (R201). -/
theorem Tree.depth_lt (t : Tree) : t.depth < t.leaves.length := by
  induction t with
  | leaf => simp [depth, leaves]
  | node l r ihl ihr => simp only [depth, leaves, List.length_append]; omega

end Sys2Proof.Machine
end

