-- ==== Sys2Proof/Laws/State.lean ====
section
/-! SUPPORT. One lemma per field per named update of the state, true by rfl. -/

namespace Sys2Proof.Machine

@[simp] theorem faultEntry_status (c : Cause) (info : Word64) (s : State) :
    (faultEntry c info s).status = { s.status with err := true, busy := false, done := false } := rfl
@[simp] theorem faultEntry_errCode (c : Cause) (info : Word64) (s : State) :
    (faultEntry c info s).errCode = c.code := rfl
@[simp] theorem faultEntry_errInfo (c : Cause) (info : Word64) (s : State) :
    (faultEntry c info s).errInfo = info := rfl
@[simp] theorem faultEntry_inLen (c : Cause) (info : Word64) (s : State) :
    (faultEntry c info s).inLen = s.inLen := rfl
@[simp] theorem faultEntry_outLen (c : Cause) (info : Word64) (s : State) :
    (faultEntry c info s).outLen = s.outLen := rfl
@[simp] theorem faultEntry_origSize (c : Cause) (info : Word64) (s : State) :
    (faultEntry c info s).origSize = s.origSize := rfl
@[simp] theorem faultEntry_shapeBitLen (c : Cause) (info : Word64) (s : State) :
    (faultEntry c info s).shapeBitLen = s.shapeBitLen := rfl
@[simp] theorem faultEntry_shapeByteLen (c : Cause) (info : Word64) (s : State) :
    (faultEntry c info s).shapeByteLen = s.shapeByteLen := rfl
@[simp] theorem faultEntry_leafCount (c : Cause) (info : Word64) (s : State) :
    (faultEntry c info s).leafCount = s.leafCount := rfl
@[simp] theorem faultEntry_payloadOff (c : Cause) (info : Word64) (s : State) :
    (faultEntry c info s).payloadOff = s.payloadOff := rfl
@[simp] theorem faultEntry_freq (c : Cause) (info : Word64) (s : State) :
    (faultEntry c info s).freq = s.freq := rfl
@[simp] theorem faultEntry_code (c : Cause) (info : Word64) (s : State) :
    (faultEntry c info s).code = s.code := rfl
@[simp] theorem faultEntry_shape (c : Cause) (info : Word64) (s : State) :
    (faultEntry c info s).shape = s.shape := rfl
@[simp] theorem faultEntry_leaves (c : Cause) (info : Word64) (s : State) :
    (faultEntry c info s).leaves = s.leaves := rfl
@[simp] theorem faultEntry_tree (c : Cause) (info : Word64) (s : State) :
    (faultEntry c info s).tree = s.tree := rfl
@[simp] theorem faultEntry_inMem (c : Cause) (info : Word64) (s : State) :
    (faultEntry c info s).inMem = s.inMem := rfl
@[simp] theorem faultEntry_outMem (c : Cause) (info : Word64) (s : State) :
    (faultEntry c info s).outMem = s.outMem := rfl
@[simp] theorem faultEntry_platform (c : Cause) (info : Word64) (s : State) :
    (faultEntry c info s).platform = s.platform := rfl
@[simp] theorem faultEntry_host (c : Cause) (info : Word64) (s : State) :
    (faultEntry c info s).host = s.host := rfl
@[simp] theorem faultEntry_hostRead (c : Cause) (info : Word64) (s : State) :
    (faultEntry c info s).hostRead = s.hostRead := rfl
@[simp] theorem faultEntry_draws (c : Cause) (info : Word64) (s : State) :
    (faultEntry c info s).draws = s.draws := rfl

@[simp] theorem clearRecord_status (s : State) : (clearRecord s).status = Status.zero := rfl
@[simp] theorem clearRecord_errCode (s : State) : (clearRecord s).errCode = 0 := rfl
@[simp] theorem clearRecord_errInfo (s : State) : (clearRecord s).errInfo = 0 := rfl
@[simp] theorem clearRecord_inLen (s : State) : (clearRecord s).inLen = s.inLen := rfl
@[simp] theorem clearRecord_outLen (s : State) : (clearRecord s).outLen = 0 := rfl
@[simp] theorem clearRecord_origSize (s : State) : (clearRecord s).origSize = s.origSize := rfl
@[simp] theorem clearRecord_shapeBitLen (s : State) : (clearRecord s).shapeBitLen = s.shapeBitLen := rfl
@[simp] theorem clearRecord_shapeByteLen (s : State) : (clearRecord s).shapeByteLen = s.shapeByteLen := rfl
@[simp] theorem clearRecord_leafCount (s : State) : (clearRecord s).leafCount = s.leafCount := rfl
@[simp] theorem clearRecord_payloadOff (s : State) : (clearRecord s).payloadOff = s.payloadOff := rfl
@[simp] theorem clearRecord_freq (s : State) : (clearRecord s).freq = s.freq := rfl
@[simp] theorem clearRecord_code (s : State) : (clearRecord s).code = s.code := rfl
@[simp] theorem clearRecord_shape (s : State) : (clearRecord s).shape = s.shape := rfl
@[simp] theorem clearRecord_leaves (s : State) : (clearRecord s).leaves = s.leaves := rfl
@[simp] theorem clearRecord_tree (s : State) : (clearRecord s).tree = s.tree := rfl
@[simp] theorem clearRecord_inMem (s : State) : (clearRecord s).inMem = s.inMem := rfl
@[simp] theorem clearRecord_outMem (s : State) : (clearRecord s).outMem = s.outMem := rfl
@[simp] theorem clearRecord_platform (s : State) : (clearRecord s).platform = s.platform := rfl
@[simp] theorem clearRecord_host (s : State) : (clearRecord s).host = s.host := rfl
@[simp] theorem clearRecord_hostRead (s : State) : (clearRecord s).hostRead = s.hostRead := rfl
@[simp] theorem clearRecord_draws (s : State) : (clearRecord s).draws = s.draws := rfl

@[simp] theorem countByte_status (b : Byte) (s : State) : (countByte b s).status = s.status := rfl
@[simp] theorem countByte_errCode (b : Byte) (s : State) : (countByte b s).errCode = s.errCode := rfl
@[simp] theorem countByte_errInfo (b : Byte) (s : State) : (countByte b s).errInfo = s.errInfo := rfl
@[simp] theorem countByte_inLen (b : Byte) (s : State) : (countByte b s).inLen = s.inLen := rfl
@[simp] theorem countByte_outLen (b : Byte) (s : State) : (countByte b s).outLen = s.outLen := rfl
@[simp] theorem countByte_origSize (b : Byte) (s : State) : (countByte b s).origSize = s.origSize := rfl
@[simp] theorem countByte_shapeBitLen (b : Byte) (s : State) :
    (countByte b s).shapeBitLen = s.shapeBitLen := rfl
@[simp] theorem countByte_shapeByteLen (b : Byte) (s : State) :
    (countByte b s).shapeByteLen = s.shapeByteLen := rfl
@[simp] theorem countByte_leafCount (b : Byte) (s : State) : (countByte b s).leafCount = s.leafCount := rfl
@[simp] theorem countByte_payloadOff (b : Byte) (s : State) : (countByte b s).payloadOff = s.payloadOff := rfl
@[simp] theorem countByte_freq (b : Byte) (s : State) :
    (countByte b s).freq = s.freq.set b.toNat (s.freqOf b + 1) (by have := b.isLt; omega) := rfl
@[simp] theorem countByte_code (b : Byte) (s : State) : (countByte b s).code = s.code := rfl
@[simp] theorem countByte_shape (b : Byte) (s : State) : (countByte b s).shape = s.shape := rfl
@[simp] theorem countByte_leaves (b : Byte) (s : State) : (countByte b s).leaves = s.leaves := rfl
@[simp] theorem countByte_tree (b : Byte) (s : State) : (countByte b s).tree = s.tree := rfl
@[simp] theorem countByte_inMem (b : Byte) (s : State) : (countByte b s).inMem = s.inMem := rfl
@[simp] theorem countByte_outMem (b : Byte) (s : State) : (countByte b s).outMem = s.outMem := rfl
@[simp] theorem countByte_platform (b : Byte) (s : State) : (countByte b s).platform = s.platform := rfl
@[simp] theorem countByte_host (b : Byte) (s : State) : (countByte b s).host = s.host := rfl
@[simp] theorem countByte_hostRead (b : Byte) (s : State) : (countByte b s).hostRead = s.hostRead := rfl
@[simp] theorem countByte_draws (b : Byte) (s : State) : (countByte b s).draws = s.draws := rfl

@[simp] theorem setHeader_status (h : ByteSeq) (s : State) : (setHeader h s).status = s.status := rfl
@[simp] theorem setHeader_errCode (h : ByteSeq) (s : State) : (setHeader h s).errCode = s.errCode := rfl
@[simp] theorem setHeader_errInfo (h : ByteSeq) (s : State) : (setHeader h s).errInfo = s.errInfo := rfl
@[simp] theorem setHeader_inLen (h : ByteSeq) (s : State) : (setHeader h s).inLen = s.inLen := rfl
@[simp] theorem setHeader_outLen (h : ByteSeq) (s : State) : (setHeader h s).outLen = s.outLen := rfl
@[simp] theorem setHeader_origSize (h : ByteSeq) (s : State) :
    (setHeader h s).origSize = BitVec.ofNat 64 (ube (h.take 8)) := rfl
@[simp] theorem setHeader_shapeBitLen (h : ByteSeq) (s : State) :
    (setHeader h s).shapeBitLen = BitVec.ofNat 16 (ube ((h.drop 8).take 2)) := rfl
@[simp] theorem setHeader_shapeByteLen (h : ByteSeq) (s : State) :
    (setHeader h s).shapeByteLen = BitVec.ofNat 16 (ube ((h.drop 10).take 2)) := rfl
@[simp] theorem setHeader_leafCount (h : ByteSeq) (s : State) :
    (setHeader h s).leafCount = BitVec.ofNat 16 (ube ((h.drop 12).take 2)) := rfl
@[simp] theorem setHeader_payloadOff (h : ByteSeq) (s : State) :
    (setHeader h s).payloadOff = s.payloadOff := rfl
@[simp] theorem setHeader_freq (h : ByteSeq) (s : State) : (setHeader h s).freq = s.freq := rfl
@[simp] theorem setHeader_code (h : ByteSeq) (s : State) : (setHeader h s).code = s.code := rfl
@[simp] theorem setHeader_shape (h : ByteSeq) (s : State) : (setHeader h s).shape = s.shape := rfl
@[simp] theorem setHeader_leaves (h : ByteSeq) (s : State) : (setHeader h s).leaves = s.leaves := rfl
@[simp] theorem setHeader_tree (h : ByteSeq) (s : State) : (setHeader h s).tree = s.tree := rfl
@[simp] theorem setHeader_inMem (h : ByteSeq) (s : State) : (setHeader h s).inMem = s.inMem := rfl
@[simp] theorem setHeader_outMem (h : ByteSeq) (s : State) : (setHeader h s).outMem = s.outMem := rfl
@[simp] theorem setHeader_platform (h : ByteSeq) (s : State) : (setHeader h s).platform = s.platform := rfl
@[simp] theorem setHeader_host (h : ByteSeq) (s : State) : (setHeader h s).host = s.host := rfl
@[simp] theorem setHeader_hostRead (h : ByteSeq) (s : State) : (setHeader h s).hostRead = s.hostRead := rfl
@[simp] theorem setHeader_draws (h : ByteSeq) (s : State) : (setHeader h s).draws = s.draws := rfl

@[simp] theorem answer_status (v : Word64) (s : State) : (answer v s).status = s.status := rfl
@[simp] theorem answer_errCode (v : Word64) (s : State) : (answer v s).errCode = s.errCode := rfl
@[simp] theorem answer_errInfo (v : Word64) (s : State) : (answer v s).errInfo = s.errInfo := rfl
@[simp] theorem answer_inLen (v : Word64) (s : State) : (answer v s).inLen = s.inLen := rfl
@[simp] theorem answer_outLen (v : Word64) (s : State) : (answer v s).outLen = s.outLen := rfl
@[simp] theorem answer_origSize (v : Word64) (s : State) : (answer v s).origSize = s.origSize := rfl
@[simp] theorem answer_shapeBitLen (v : Word64) (s : State) : (answer v s).shapeBitLen = s.shapeBitLen := rfl
@[simp] theorem answer_shapeByteLen (v : Word64) (s : State) :
    (answer v s).shapeByteLen = s.shapeByteLen := rfl
@[simp] theorem answer_leafCount (v : Word64) (s : State) : (answer v s).leafCount = s.leafCount := rfl
@[simp] theorem answer_payloadOff (v : Word64) (s : State) : (answer v s).payloadOff = s.payloadOff := rfl
@[simp] theorem answer_freq (v : Word64) (s : State) : (answer v s).freq = s.freq := rfl
@[simp] theorem answer_code (v : Word64) (s : State) : (answer v s).code = s.code := rfl
@[simp] theorem answer_shape (v : Word64) (s : State) : (answer v s).shape = s.shape := rfl
@[simp] theorem answer_leaves (v : Word64) (s : State) : (answer v s).leaves = s.leaves := rfl
@[simp] theorem answer_tree (v : Word64) (s : State) : (answer v s).tree = s.tree := rfl
@[simp] theorem answer_inMem (v : Word64) (s : State) : (answer v s).inMem = s.inMem := rfl
@[simp] theorem answer_outMem (v : Word64) (s : State) : (answer v s).outMem = s.outMem := rfl
@[simp] theorem answer_platform (v : Word64) (s : State) : (answer v s).platform = s.platform := rfl
@[simp] theorem answer_host (v : Word64) (s : State) : (answer v s).host = s.host := rfl
@[simp] theorem answer_hostRead (v : Word64) (s : State) : (answer v s).hostRead = some v := rfl
@[simp] theorem answer_draws (v : Word64) (s : State) : (answer v s).draws = s.draws := rfl

@[simp] theorem answerDraw_status (w : Nat) (s : State) : (answerDraw w s).status = s.status := rfl
@[simp] theorem answerDraw_errCode (w : Nat) (s : State) : (answerDraw w s).errCode = s.errCode := rfl
@[simp] theorem answerDraw_errInfo (w : Nat) (s : State) : (answerDraw w s).errInfo = s.errInfo := rfl
@[simp] theorem answerDraw_inLen (w : Nat) (s : State) : (answerDraw w s).inLen = s.inLen := rfl
@[simp] theorem answerDraw_outLen (w : Nat) (s : State) : (answerDraw w s).outLen = s.outLen := rfl
@[simp] theorem answerDraw_origSize (w : Nat) (s : State) : (answerDraw w s).origSize = s.origSize := rfl
@[simp] theorem answerDraw_shapeBitLen (w : Nat) (s : State) :
    (answerDraw w s).shapeBitLen = s.shapeBitLen := rfl
@[simp] theorem answerDraw_shapeByteLen (w : Nat) (s : State) :
    (answerDraw w s).shapeByteLen = s.shapeByteLen := rfl
@[simp] theorem answerDraw_leafCount (w : Nat) (s : State) : (answerDraw w s).leafCount = s.leafCount := rfl
@[simp] theorem answerDraw_payloadOff (w : Nat) (s : State) :
    (answerDraw w s).payloadOff = s.payloadOff := rfl
@[simp] theorem answerDraw_freq (w : Nat) (s : State) : (answerDraw w s).freq = s.freq := rfl
@[simp] theorem answerDraw_code (w : Nat) (s : State) : (answerDraw w s).code = s.code := rfl
@[simp] theorem answerDraw_shape (w : Nat) (s : State) : (answerDraw w s).shape = s.shape := rfl
@[simp] theorem answerDraw_leaves (w : Nat) (s : State) : (answerDraw w s).leaves = s.leaves := rfl
@[simp] theorem answerDraw_tree (w : Nat) (s : State) : (answerDraw w s).tree = s.tree := rfl
@[simp] theorem answerDraw_inMem (w : Nat) (s : State) : (answerDraw w s).inMem = s.inMem := rfl
@[simp] theorem answerDraw_outMem (w : Nat) (s : State) : (answerDraw w s).outMem = s.outMem := rfl
@[simp] theorem answerDraw_platform (w : Nat) (s : State) : (answerDraw w s).platform = s.platform := rfl
@[simp] theorem answerDraw_host (w : Nat) (s : State) : (answerDraw w s).host = s.host := rfl
@[simp] theorem answerDraw_hostRead (w : Nat) (s : State) :
    (answerDraw w s).hostRead = some (((Config.freeValue s.draws).setWidth w).setWidth 64) := rfl
@[simp] theorem answerDraw_draws (w : Nat) (s : State) : (answerDraw w s).draws = s.draws + 1 := rfl

@[simp] theorem resetBlock_status (s : State) : (resetBlock s).status = State.reset.status := rfl
@[simp] theorem resetBlock_errCode (s : State) : (resetBlock s).errCode = State.reset.errCode := rfl
@[simp] theorem resetBlock_errInfo (s : State) : (resetBlock s).errInfo = State.reset.errInfo := rfl
@[simp] theorem resetBlock_inLen (s : State) : (resetBlock s).inLen = State.reset.inLen := rfl
@[simp] theorem resetBlock_outLen (s : State) : (resetBlock s).outLen = State.reset.outLen := rfl
@[simp] theorem resetBlock_origSize (s : State) : (resetBlock s).origSize = State.reset.origSize := rfl
@[simp] theorem resetBlock_shapeBitLen (s : State) :
    (resetBlock s).shapeBitLen = State.reset.shapeBitLen := rfl
@[simp] theorem resetBlock_shapeByteLen (s : State) :
    (resetBlock s).shapeByteLen = State.reset.shapeByteLen := rfl
@[simp] theorem resetBlock_leafCount (s : State) : (resetBlock s).leafCount = State.reset.leafCount := rfl
@[simp] theorem resetBlock_payloadOff (s : State) : (resetBlock s).payloadOff = State.reset.payloadOff := rfl
@[simp] theorem resetBlock_freq (s : State) : (resetBlock s).freq = State.reset.freq := rfl
@[simp] theorem resetBlock_code (s : State) : (resetBlock s).code = State.reset.code := rfl
@[simp] theorem resetBlock_shape (s : State) : (resetBlock s).shape = State.reset.shape := rfl
@[simp] theorem resetBlock_leaves (s : State) : (resetBlock s).leaves = State.reset.leaves := rfl
@[simp] theorem resetBlock_tree (s : State) : (resetBlock s).tree = State.reset.tree := rfl
@[simp] theorem resetBlock_inMem (s : State) : (resetBlock s).inMem = s.inMem := rfl
@[simp] theorem resetBlock_outMem (s : State) : (resetBlock s).outMem = s.outMem := rfl
@[simp] theorem resetBlock_platform (s : State) : (resetBlock s).platform = s.platform := rfl
@[simp] theorem resetBlock_host (s : State) : (resetBlock s).host = s.host := rfl
@[simp] theorem resetBlock_hostRead (s : State) : (resetBlock s).hostRead = s.hostRead := rfl
@[simp] theorem resetBlock_draws (s : State) : (resetBlock s).draws = s.draws := rfl

end Sys2Proof.Machine
end

