-- ==== Sys2Proof/Laws/Ops.lean ====
section
/-! SUPPORT. What each shared operation can do, said once: runs, MemRead, MemWrite, emit, the start and end of
a stage, the frame of a command; and what each leaves unchanged. -/

namespace Sys2Proof.Machine

/-! ### Runs -/

@[simp] theorem Run.andThen_ok {α β : Type} (a : α) (s : State) (k : α → State → Run β) :
    (Run.ok a s).andThen k = k a s := rfl

@[simp] theorem Run.andThen_raised {α β : Type} (s : State) (k : α → State → Run β) :
    (Run.raised s).andThen k = .raised s := rfl

@[simp] theorem Run.final_ok {α : Type} (a : α) (s : State) : (Run.ok a s).final = s := rfl
@[simp] theorem Run.final_raised {α : Type} (s : State) : (Run.raised (α := α) s).final = s := rfl

theorem raise_eq {α : Type} (c : Cause) (info : Nat) (s : State) :
    raise (α := α) c info s = .raised (faultEntry c (BitVec.ofNat 64 info) s) := rfl

/-- A completed run in sequence: the first part completed and then the second. -/
theorem Run.andThen_eq_ok {α β : Type} {r : Run α} {k : α → State → Run β} {b : β} {t : State} :
    r.andThen k = .ok b t ↔ ∃ a s, r = .ok a s ∧ k a s = .ok b t := by
  cases r <;> simp

/-- A run in sequence that raised: the first part raised, or completed and then the second raised. -/
theorem Run.andThen_eq_raised {α β : Type} {r : Run α} {k : α → State → Run β} {t : State} :
    r.andThen k = .raised t ↔ r = .raised t ∨ ∃ a s, r = .ok a s ∧ k a s = .raised t := by
  cases r <;> simp

/-! ### Frames -/

theorem Part.same_refl (p : Part) (s : State) : p.same s s := by cases p <;> simp [Part.same]

theorem Part.same_trans (p : Part) {s t u : State} (h : p.same s t) (h' : p.same t u) : p.same s u := by
  cases p <;> simp only [Part.same] at h h' ⊢ <;> first | exact h'.trans h | exact fun b => (h' b).trans (h b)

theorem Frame.refl (w : List Part) (s : State) : Frame w s s := fun p _ => p.same_refl s

theorem Frame.trans {w : List Part} {s t u : State} (h : Frame w s t) (h' : Frame w t u) : Frame w s u :=
  fun p hp => p.same_trans (h p hp) (h' p hp)

theorem Frame.mono {w w' : List Part} {s t : State} (hw : ∀ p ∈ w, p ∈ w') (h : Frame w s t) : Frame w' s t :=
  fun p hp => h p fun hm => hp (hw p hm)

/-- The frame of a sequence of runs. -/
theorem Frame.andThen {α β : Type} {w : List Part} {s : State} {r : Run α} {k : α → State → Run β}
    (h : Frame w s r.final) (hk : ∀ a s', Frame w s' (k a s').final) : Frame w s (r.andThen k).final := by
  cases r with
  | ok a s' => exact h.trans (hk a s')
  | raised s' => exact h

/-- Fault entry writes BUSY, DONE, ERR and the record, and nothing else (R225). -/
theorem faultEntry_frame (c : Cause) (info : Word64) (s : State) :
    Frame [.busy, .done, .err, .errCode, .errInfo] s (faultEntry c info s) := by
  intro p hp
  cases p <;> first | exact absurd (by decide) hp | exact fun _ => rfl | rfl

theorem raise_frame {α : Type} (c : Cause) (info : Nat) (s : State) :
    Frame [.busy, .done, .err, .errCode, .errInfo] s (raise (α := α) c info s).final :=
  faultEntry_frame c _ s

/-! ### MemRead (R66) -/

theorem memRead_ok {a : Nat} {s : State} (h : a < s.platform.inCap.toNat) (h' : a ∉ s.platform.inFault) :
    memRead a s = .ok (s.inByte a) s := by
  simp only [memRead]
  rw [if_neg (by rintro (h1 | h1) <;> [omega; exact h' h1])]

theorem memRead_fault {a : Nat} {s : State} (h : s.platform.inCap.toNat ≤ a ∨ a ∈ s.platform.inFault) :
    memRead a s = .raised (faultEntry .ioRead (BitVec.ofNat 64 a) s) := by
  simp only [memRead]
  rw [if_pos h, raise_eq]

/-- All a MemRead can do: give the byte and change nothing, or raise IoRead(a). -/
theorem memRead_cases (a : Nat) (s : State) :
    (a < s.platform.inCap.toNat ∧ a ∉ s.platform.inFault ∧ memRead a s = .ok (s.inByte a) s) ∨
    ((s.platform.inCap.toNat ≤ a ∨ a ∈ s.platform.inFault) ∧
      memRead a s = .raised (faultEntry .ioRead (BitVec.ofNat 64 a) s)) := by
  by_cases h : s.platform.inCap.toNat ≤ a ∨ a ∈ s.platform.inFault
  · exact .inr ⟨h, memRead_fault h⟩
  · simp only [not_or, Nat.not_le] at h
    exact .inl ⟨h.1, h.2, memRead_ok h.1 h.2⟩

theorem memRead_frame (a : Nat) (s : State) :
    Frame [.busy, .done, .err, .errCode, .errInfo] s (memRead a s).final := by
  rcases memRead_cases a s with ⟨_, _, h⟩ | ⟨_, h⟩ <;> rw [h]
  · exact Frame.refl _ s
  · exact faultEntry_frame _ _ _

theorem State.inSeq_succ (s : State) (a n : Nat) : s.inSeq a (n + 1) = s.inByte a :: s.inSeq (a + 1) n := by
  simp only [inSeq, List.range_succ_eq_map, List.map_cons, List.map_map, Nat.add_zero]
  congr 1
  apply List.map_congr_left
  intro k _
  simp only [Function.comp]
  congr 1
  omega

theorem State.outSeq_succ (s : State) (a n : Nat) : s.outSeq a (n + 1) = s.outByte a :: s.outSeq (a + 1) n := by
  simp only [outSeq, List.range_succ_eq_map, List.map_cons, List.map_map, Nat.add_zero]
  congr 1
  apply List.map_congr_left
  intro k _
  simp only [Function.comp]
  congr 1
  omega

@[simp] theorem State.length_inSeq (s : State) (a n : Nat) : (s.inSeq a n).length = n := by simp [inSeq]
@[simp] theorem State.length_outSeq (s : State) (a n : Nat) : (s.outSeq a n).length = n := by simp [outSeq]

theorem State.inSeq_add (s : State) (a n m : Nat) : s.inSeq a (n + m) = s.inSeq a n ++ s.inSeq (a + n) m := by
  induction n generalizing a with
  | zero => simp [inSeq]
  | succ n ih =>
    rw [show n + 1 + m = (n + m) + 1 by omega, inSeq_succ, inSeq_succ, ih, List.cons_append,
      show a + 1 + n = a + (n + 1) by omega]

theorem State.outSeq_add (s : State) (a n m : Nat) : s.outSeq a (n + m) = s.outSeq a n ++ s.outSeq (a + n) m := by
  induction n generalizing a with
  | zero => simp [outSeq]
  | succ n ih =>
    rw [show n + 1 + m = (n + m) + 1 by omega, outSeq_succ, outSeq_succ, ih, List.cons_append,
      show a + 1 + n = a + (n + 1) by omega]

/-- Reads of readable addresses give the bytes and change nothing. -/
theorem readBytes_ok (n a : Nat) (s : State)
    (h : ∀ x, a ≤ x → x < a + n → x < s.platform.inCap.toNat ∧ x ∉ s.platform.inFault) :
    readBytes n a s = .ok (s.inSeq a n) s := by
  induction n generalizing a with
  | zero => rfl
  | succ n ih =>
    obtain ⟨h1, h2⟩ := h a (Nat.le_refl a) (by omega)
    simp only [readBytes, memRead_ok h1 h2, Run.andThen_ok]
    rw [ih (a + 1) fun x hx hx' => h x (by omega) (by omega), Run.andThen_ok, State.inSeq_succ]

/-- All a sequence of reads can do: give the bytes and change nothing, or raise IoRead. -/
theorem readBytes_cases (n a : Nat) (s : State) :
    readBytes n a s = .ok (s.inSeq a n) s ∨
    ∃ x, a ≤ x ∧ x < a + n ∧ readBytes n a s = .raised (faultEntry .ioRead (BitVec.ofNat 64 x) s) := by
  induction n generalizing a with
  | zero => exact .inl rfl
  | succ n ih =>
    rcases memRead_cases a s with ⟨_, _, h⟩ | ⟨_, h⟩
    · simp only [readBytes, h, Run.andThen_ok]
      rcases ih (a + 1) with h' | ⟨x, hx, hx', h'⟩ <;> rw [h']
      · exact .inl (by rw [Run.andThen_ok, State.inSeq_succ])
      · exact .inr ⟨x, by omega, by omega, rfl⟩
    · exact .inr ⟨a, Nat.le_refl a, by omega, by simp only [readBytes, h, Run.andThen_raised]⟩

/-- Reads that meet an address that cannot be read, those before it readable: IoRead there (R217). -/
theorem readBytes_fault {j n a : Nat} {s : State} (hj : j < n)
    (hr : ∀ x, a ≤ x → x < a + j → x < s.platform.inCap.toNat ∧ x ∉ s.platform.inFault)
    (hbad : s.platform.inCap.toNat ≤ a + j ∨ a + j ∈ s.platform.inFault) :
    readBytes n a s = .raised (faultEntry .ioRead (BitVec.ofNat 64 (a + j)) s) := by
  induction j generalizing n a with
  | zero =>
    obtain ⟨n, rfl⟩ : ∃ m, n = m + 1 := ⟨n - 1, by omega⟩
    simp only [Nat.add_zero] at hbad ⊢
    rw [readBytes, memRead_fault hbad, Run.andThen_raised]
  | succ j ih =>
    obtain ⟨n, rfl⟩ : ∃ m, n = m + 1 := ⟨n - 1, by omega⟩
    obtain ⟨h1, h2⟩ := hr a (Nat.le_refl a) (by omega)
    rw [show a + (j + 1) = a + 1 + j by omega] at hbad ⊢
    rw [readBytes, memRead_ok h1 h2, Run.andThen_ok, ih (by omega) (fun x hx hx' => hr x (by omega) (by omega)) hbad,
      Run.andThen_raised]

theorem readBytes_frame (n a : Nat) (s : State) :
    Frame [.busy, .done, .err, .errCode, .errInfo] s (readBytes n a s).final := by
  rcases readBytes_cases n a s with h | ⟨x, _, _, h⟩ <;> rw [h]
  · exact Frame.refl _ s
  · exact faultEntry_frame _ _ _

/-! ### MemWrite and emit (R67, R68) -/

/-- Store the bytes `bs` at addresses `a`, `a + 1`, ... -/
def Memory.writeAll : Memory → Nat → ByteSeq → Memory
  | m, _, [] => m
  | m, a, b :: bs => Memory.writeAll (m.write a b) (a + 1) bs

theorem Memory.read?_writeAll (m : Memory) (a : Nat) (bs : ByteSeq) (x : Nat) :
    (m.writeAll a bs).read? x = if a ≤ x ∧ x < a + bs.length then bs[x - a]? else m.read? x := by
  induction bs generalizing m a with
  | nil =>
    simp only [writeAll, List.length_nil, Nat.add_zero]
    rw [if_neg (by omega)]
  | cons b bs ih =>
    simp only [writeAll, List.length_cons]
    rw [ih, Memory.read?_write]
    by_cases hx : x = a
    · subst hx; simp
    · by_cases h : a + 1 ≤ x ∧ x < a + 1 + bs.length
      · rw [if_pos h, if_pos (by omega), show x - a = (x - (a + 1)) + 1 by omega, List.getElem?_cons_succ]
      · rw [if_neg h, if_neg hx, if_neg (by omega)]

theorem Memory.wf_writeAll {m : Memory} (h : m.wf = true) (a : Nat) (bs : ByteSeq) :
    (m.writeAll a bs).wf = true := by
  induction bs generalizing m a with
  | nil => exact h
  | cons b bs ih => exact ih (Memory.wf_write h a b) (a + 1)

theorem Memory.writeAll_append (m : Memory) (a : Nat) (bs cs : ByteSeq) :
    m.writeAll a (bs ++ cs) = (m.writeAll a bs).writeAll (a + bs.length) cs := by
  induction bs generalizing m a with
  | nil => rfl
  | cons b bs ih =>
    simp only [List.cons_append, writeAll, List.length_cons, ih]
    rw [show a + 1 + bs.length = a + (bs.length + 1) by omega]

/-- The state after the bytes `bs` have been emitted. -/
def State.emitted (s : State) (bs : ByteSeq) : State :=
  { s with
    outMem := s.outMem.writeAll s.outLen.toNat bs
    outLen := s.outLen + BitVec.ofNat 64 bs.length }

@[simp] theorem State.emitted_nil (s : State) : s.emitted [] = s := by
  simp [emitted, Memory.writeAll]

/-- All an emit can do: store the byte at OUT_LEN and count it, or raise IoWrite(OUT_LEN). -/
theorem emit_cases (b : Byte) (s : State) :
    (s.outLen.toNat < s.platform.outCap.toNat ∧ s.outLen.toNat ∉ s.platform.outFault ∧
      emit b s = .ok () (s.emitted [b])) ∨
    ((s.platform.outCap.toNat ≤ s.outLen.toNat ∨ s.outLen.toNat ∈ s.platform.outFault) ∧
      emit b s = .raised (faultEntry .ioWrite s.outLen s)) := by
  by_cases h : s.platform.outCap.toNat ≤ s.outLen.toNat ∨ s.outLen.toNat ∈ s.platform.outFault
  · refine .inr ⟨h, ?_⟩
    simp only [emit, memWrite, if_pos h, raise_eq, Run.andThen_raised, BitVec.ofNat_toNat, BitVec.setWidth_eq]
  · refine .inl ?_
    simp only [not_or, Nat.not_le] at h
    refine ⟨h.1, h.2, ?_⟩
    have h' : ¬ (s.platform.outCap.toNat ≤ s.outLen.toNat ∨ s.outLen.toNat ∈ s.platform.outFault) := by
      rintro (h1 | h1) <;> [omega; exact h.2 h1]
    simp only [emit, memWrite, if_neg h', Run.andThen_ok, State.emitted, Memory.writeAll, List.length_singleton]
    rfl

/-- OUT_LEN does not wrap while the bytes fit below the capacity (R68, R199). -/
theorem State.outLen_emitted (s : State) (bs : ByteSeq) (h : s.outLen.toNat + bs.length < 2 ^ 64) :
    (s.emitted bs).outLen.toNat = s.outLen.toNat + bs.length := by
  simp only [emitted, BitVec.toNat_add, BitVec.toNat_ofNat]
  omega

theorem State.emitted_append (s : State) (bs cs : ByteSeq) (h : s.outLen.toNat + bs.length < 2 ^ 64) :
    (s.emitted bs).emitted cs = s.emitted (bs ++ cs) := by
  have h1 := s.outLen_emitted bs h
  have h2 : (s.emitted bs).outMem = s.outMem.writeAll s.outLen.toNat bs := rfl
  have h3 : (s.emitted bs).outLen + BitVec.ofNat 64 cs.length
      = s.outLen + BitVec.ofNat 64 (bs ++ cs).length := by
    simp only [emitted, List.length_append, BitVec.ofNat_add, BitVec.add_assoc]
  show { s.emitted bs with
    outMem := (s.emitted bs).outMem.writeAll (s.emitted bs).outLen.toNat cs
    outLen := (s.emitted bs).outLen + BitVec.ofNat 64 cs.length } = s.emitted (bs ++ cs)
  rw [h1, h2, h3, ← Memory.writeAll_append]
  rfl

/-- Emits of writable addresses store the bytes in order and count them. -/
theorem emitAll_ok (bs : ByteSeq) (s : State)
    (h : s.outWritable s.outLen.toNat (s.outLen.toNat + bs.length)) :
    emitAll bs s = .ok () (s.emitted bs) := by
  induction bs generalizing s with
  | nil => simp [emitAll]
  | cons b bs ih =>
    have hb := h s.outLen.toNat (by simp only [List.length_cons]; omega) (Nat.le_refl _)
    have hcap := s.platform.outCap.isLt
    rcases emit_cases b s with ⟨h1, h2, he⟩ | ⟨h1, _⟩
    · have hl := s.outLen_emitted [b] (by simp only [List.length_singleton]; omega)
      rw [List.length_singleton] at hl
      simp only [emitAll, he, Run.andThen_ok]
      rw [ih, State.emitted_append _ _ _ (by simp only [List.length_singleton]; omega)]
      · rfl
      · rw [hl]
        intro a ha ha'
        exact h a (by simp only [List.length_cons]; omega) (by omega)
    · rcases h1 with h1 | h1
      · omega
      · exact absurd h1 hb.2

/-- All a sequence of emits can do: complete, or store the first `n` bytes and raise IoWrite at the
address of the next. -/
theorem emitAll_cases (bs : ByteSeq) (s : State) :
    (s.outWritable s.outLen.toNat (s.outLen.toNat + bs.length) ∧ emitAll bs s = .ok () (s.emitted bs)) ∨
    ∃ n, n < bs.length ∧ s.outWritable s.outLen.toNat (s.outLen.toNat + n) ∧
      (s.platform.outCap.toNat ≤ s.outLen.toNat + n ∨ s.outLen.toNat + n ∈ s.platform.outFault) ∧
      emitAll bs s =
        .raised (faultEntry .ioWrite (BitVec.ofNat 64 (s.outLen.toNat + n)) (s.emitted (bs.take n))) := by
  induction bs generalizing s with
  | nil =>
    refine .inl ⟨fun a ha ha' => ?_, by simp [emitAll]⟩
    simp only [List.length_nil] at ha
    omega
  | cons b bs ih =>
    have hcap := s.platform.outCap.isLt
    rcases emit_cases b s with ⟨h1, h2, he⟩ | ⟨h1, he⟩
    · have hl := s.outLen_emitted [b] (by simp only [List.length_singleton]; omega)
      rw [List.length_singleton] at hl
      have hp : (s.emitted [b]).platform = s.platform := rfl
      have hw : ∀ k, s.outWritable (s.outLen.toNat + 1) (s.outLen.toNat + 1 + k) →
          s.outWritable s.outLen.toNat (s.outLen.toNat + (k + 1)) := by
        intro k hk a ha ha'
        by_cases hx : a = s.outLen.toNat
        · subst hx; exact ⟨h1, h2⟩
        · exact hk a (by omega) (by omega)
      rcases ih (s.emitted [b]) with ⟨hok, h⟩ | ⟨n, hn, hok, hbad, h⟩
      · refine .inl ⟨?_, ?_⟩
        · rw [hl] at hok
          exact hw bs.length hok
        · simp only [emitAll, he, Run.andThen_ok, h]
          rw [State.emitted_append _ _ _ (by simp only [List.length_singleton]; omega)]
          rfl
      · refine .inr ⟨n + 1, by simp only [List.length_cons]; omega, ?_, ?_, ?_⟩
        · rw [hl] at hok
          exact hw n hok
        · rw [hl, hp] at hbad
          rwa [show s.outLen.toNat + (n + 1) = s.outLen.toNat + 1 + n by omega]
        · simp only [emitAll, he, Run.andThen_ok, h, hl]
          rw [State.emitted_append _ _ _ (by simp only [List.length_singleton]; omega),
            show s.outLen.toNat + (n + 1) = s.outLen.toNat + 1 + n by omega]
          rfl
    · refine .inr ⟨0, by simp, fun a ha ha' => by omega, by simpa using h1, ?_⟩
      simp [emitAll, he]

/-- Emits that meet an address that cannot be written, those before it writable: IoWrite there (R218). -/
theorem emitAll_fault {bs : ByteSeq} {m : Nat} {s : State} (hm : m < bs.length)
    (hw : s.outWritable s.outLen.toNat (s.outLen.toNat + m))
    (hbad : s.platform.outCap.toNat ≤ s.outLen.toNat + m ∨ s.outLen.toNat + m ∈ s.platform.outFault) :
    emitAll bs s = .raised (faultEntry .ioWrite (BitVec.ofNat 64 (s.outLen.toNat + m)) (s.emitted (bs.take m))) := by
  have hno : ∀ n, (s.platform.outCap.toNat ≤ s.outLen.toNat + n ∨ s.outLen.toNat + n ∈ s.platform.outFault) →
      ∀ hi, s.outWritable s.outLen.toNat hi → hi ≤ s.outLen.toNat + n := by
    intro n hn hi h
    by_contra hlt
    obtain ⟨h1, h2⟩ := h (s.outLen.toNat + n) (by omega) (by omega)
    exact hn.elim (fun h => by omega) h2
  rcases emitAll_cases bs s with ⟨hw', _⟩ | ⟨n, hn, hw', hbad', he⟩
  · have := hno m hbad _ hw'; omega
  · obtain rfl : n = m := by
      have := hno m hbad _ hw'
      have := hno n hbad' _ hw
      omega
    exact he

/-- Emitting bytes writes OUT and OUT_LEN, and nothing else. -/
theorem State.emitted_frame (s : State) (bs : ByteSeq) : Frame [.outMem, .outLen] s (s.emitted bs) := by
  intro p hp
  cases p <;> first | exact absurd (by decide) hp | exact fun _ => rfl | rfl

theorem emitAll_frame (bs : ByteSeq) (s : State) :
    Frame [.outMem, .outLen, .busy, .done, .err, .errCode, .errInfo] s (emitAll bs s).final := by
  rcases emitAll_cases bs s with ⟨_, h⟩ | ⟨n, _, _, _, h⟩ <;> rw [h]
  · exact (s.emitted_frame bs).mono (by decide)
  · exact ((s.emitted_frame _).mono (by decide)).trans ((faultEntry_frame _ _ _).mono (by decide))

theorem emit_eq_emitAll (b : Byte) (s : State) : emit b s = emitAll [b] s := by
  rcases emit_cases b s with ⟨_, _, h⟩ | ⟨_, h⟩ <;> simp [emitAll, h]

theorem emit_frame (b : Byte) (s : State) :
    Frame [.outMem, .outLen, .busy, .done, .err, .errCode, .errInfo] s (emit b s).final := by
  rw [emit_eq_emitAll]
  exact emitAll_frame [b] s

/-- The bytes just emitted stand where OUT_LEN was. -/
theorem State.outByte_emitted (s : State) (bs : ByteSeq) (a : Nat) :
    (s.emitted bs).outByte a =
      if s.outLen.toNat ≤ a ∧ a < s.outLen.toNat + bs.length then bs.getD (a - s.outLen.toNat) 0 else s.outByte a := by
  simp only [outByte, emitted, Memory.read?_writeAll]
  split
  · rename_i h
    have hlt : a - s.outLen.toNat < bs.length := by omega
    simp [hlt]
  · rfl

theorem State.outSeq_emitted (s : State) (bs : ByteSeq) :
    (s.emitted bs).outSeq s.outLen.toNat bs.length = bs := by
  apply List.ext_getElem
  · simp
  · intro i h1 h2
    simp only [outSeq, List.getElem_map, List.getElem_range, outByte_emitted]
    rw [if_pos (by omega)]
    simp [h2]

/-! ### The start and the end of a stage (R40, R187, R220) -/

theorem openStage_ok {g : Stage} {s : State} (h : g.requires s.status = true) :
    openStage g s = .ok () { s with status := g.clears s.status } := by simp [openStage, h]

theorem openStage_fault {g : Stage} {s : State} (h : g.requires s.status = false) :
    openStage g s = .raised (faultEntry .sequence ((encode g.command).setWidth 64) s) := by
  simp only [openStage, h, Bool.false_eq_true, if_false, raise_eq]
  congr 2
  cases g <;> rfl

theorem openStage_frame (g : Stage) (s : State) : Frame (frameParts ++ g.parts) s (openStage g s).final := by
  cases h : g.requires s.status with
  | false => rw [openStage_fault h]; exact (faultEntry_frame _ _ _).mono (by simp [frameParts])
  | true =>
    rw [openStage_ok h]
    intro p hp
    cases g <;> cases p <;> first | exact absurd (by decide) hp | exact fun _ => rfl | rfl

theorem closeStage_frame (g : Stage) (s : State) : Frame (frameParts ++ g.parts) s (closeStage g s).final := by
  intro p hp
  cases g <;> cases p <;> first | exact absurd (by decide) hp | exact fun _ => rfl | rfl

theorem runStage_frame {g : Stage} {body : State → Run Unit} {w : List Part} (hw : ∀ p ∈ frameParts, p ∈ w)
    (h : ∀ s, Frame w s (body s).final) (s : State) : Frame w s (runStage g body s).final := by
  refine Frame.trans (t := { s with status := { s.status with phase := g.number } }) ?_ (h _)
  refine Frame.mono (w := [.phase]) (fun p hp => hw p (by simp_all [frameParts])) ?_
  intro p hp
  cases p <;> first | exact absurd (by decide) hp | exact fun _ => rfl | rfl

/-- All the frame of a command can do: it answers a next state, where the body completed or raised. -/
theorem runCommand_cases (body : State → Run Unit) (s : State) :
    (∃ t, body { s with status := { s.status with done := false, busy := true } } = .ok () t ∧
      runCommand body s = .next { t with status := { t.status with phase := 0, busy := false, done := true } }) ∨
    (∃ t, body { s with status := { s.status with done := false, busy := true } } = .raised t ∧
      runCommand body s = .next t) := by
  cases h : body { s with status := { s.status with done := false, busy := true } } with
  | ok a t => exact .inl ⟨t, rfl, by simp only [runCommand, h]⟩
  | raised t => exact .inr ⟨t, rfl, by simp only [runCommand, h]⟩

theorem runCommand_ok {body : State → Run Unit} {s t : State}
    (h : body { s with status := { s.status with done := false, busy := true } } = .ok () t) :
    runCommand body s = .next { t with status := { t.status with phase := 0, busy := false, done := true } } := by
  simp only [runCommand, h]

theorem runCommand_raised {body : State → Run Unit} {s t : State}
    (h : body { s with status := { s.status with done := false, busy := true } } = .raised t) :
    runCommand body s = .next t := by simp only [runCommand, h]

/-- The frame of a command, from the frame of its body. -/
theorem runCommand_frame {body : State → Run Unit} {w : List Part} (hw : ∀ p ∈ frameParts, p ∈ w)
    (h : ∀ s, Frame w s (body s).final) {s t : State} (hs : runCommand body s = .next t) : Frame w s t := by
  have h0 : Frame w s { s with status := { s.status with done := false, busy := true } } := by
    refine Frame.mono (w := [.busy, .done]) (fun p hp => hw p (by simp [frameParts] at hp ⊢; tauto)) ?_
    intro p hp
    cases p <;> first | exact absurd (by decide) hp | exact fun _ => rfl | rfl
  have h1 := h0.trans (h { s with status := { s.status with done := false, busy := true } })
  rcases runCommand_cases body s with ⟨u, hu, he⟩ | ⟨u, hu, he⟩ <;> rw [he] at hs <;> cases hs <;> rw [hu] at h1
  · refine h1.trans (Frame.mono (w := [.busy, .done, .phase]) (fun p hp => hw p ?_) ?_)
    · simp [frameParts] at hp ⊢; tauto
    · intro p hp
      cases p <;> first | exact absurd (by decide) hp | exact fun _ => rfl | rfl
  · exact h1

end Sys2Proof.Machine
end

