-- ==== Sys2Proof/Laws/Frames.lean ====
section
/-! SUPPORT. The frame of every loop and every stage body: which parts of the state a run of it leaves as they
were, completed or not (10_state.md R26, R40). -/

namespace Sys2Proof.Machine

theorem countByte_frame (b : Byte) (s : State) : Frame [.freq] s (countByte b s) := by
  intro p hp
  cases p <;> first | exact absurd (by decide) hp | exact fun _ => rfl | rfl

theorem scanBytes_frame (n i : Nat) (s : State) :
    Frame [.freq, .busy, .done, .err, .errCode, .errInfo] s (scanBytes n i s).final := by
  induction n generalizing i s with
  | zero => exact Frame.refl _ s
  | succ n ih =>
    exact ((memRead_frame i s).mono (by decide)).andThen fun b s' =>
      ((countByte_frame b s').mono (by decide)).trans (ih _ _)

theorem stageFscan_frame (s : State) : Frame (frameParts ++ Stage.parts .fscan) s (stageFscan s).final := by
  refine (openStage_frame .fscan s).andThen fun _ s1 => ?_
  have h1 : Frame (frameParts ++ Stage.parts .fscan) s1 { s1 with freq := Vector.replicate 256 0 } := by
    intro p hp
    cases p <;> first | exact absurd (by decide) hp | exact fun _ => rfl | rfl
  refine h1.trans (Frame.andThen ((scanBytes_frame _ _ _).mono (by decide)) fun _ s2 => ?_)
  have h2 : Frame (frameParts ++ Stage.parts .fscan) s2 { s2 with origSize := s2.inLen } := by
    intro p hp
    cases p <;> first | exact absurd (by decide) hp | exact fun _ => rfl | rfl
  exact h2.trans (closeStage_frame .fscan _)

theorem stageTbuild_frame (s : State) : Frame (frameParts ++ Stage.parts .tbuild) s (stageTbuild s).final := by
  refine (openStage_frame .tbuild s).andThen fun _ s1 => ?_
  split
  · exact (raise_frame _ _ _).mono (by decide)
  · split
    · rename_i t _
      refine Frame.trans (t := { s1 with tree := t }) ?_ (closeStage_frame .tbuild _)
      intro p hp
      cases p <;> first | exact absurd (by decide) hp | exact fun _ => rfl | rfl
    · exact (raise_frame _ _ _).mono (by decide)

theorem stageCbuild_frame (s : State) : Frame (frameParts ++ Stage.parts .cbuild) s (stageCbuild s).final := by
  refine (openStage_frame .cbuild s).andThen fun _ s1 => ?_
  refine Frame.trans (t := { s1 with code := codeTable s1.tree }) ?_ (closeStage_frame .cbuild _)
  intro p hp
  cases p <;> first | exact absurd (by decide) hp | exact fun _ => rfl | rfl

theorem stageTser_frame (s : State) : Frame (frameParts ++ Stage.parts .tser) s (stageTser s).final := by
  refine (openStage_frame .tser s).andThen fun _ s1 => ?_
  refine Frame.trans ?_ (closeStage_frame .tser _)
  intro p hp
  cases p <;> first | exact absurd (by decide) hp | exact fun _ => rfl | rfl

theorem stageTdes_frame (s : State) : Frame (frameParts ++ Stage.parts .tdes) s (stageTdes s).final := by
  refine (openStage_frame .tdes s).andThen fun _ s1 => ?_
  split
  · exact (raise_frame _ _ _).mono (by decide)
  · split
    · exact (raise_frame _ _ _).mono (by decide)
    · split
      · exact (raise_frame _ _ _).mono (by decide)
      · rename_i t _ _ _ _
        refine Frame.trans (t := { s1 with tree := t }) ?_ (closeStage_frame .tdes _)
        intro p hp
        cases p <;> first | exact absurd (by decide) hp | exact fun _ => rfl | rfl

/-- Restarting the output writes OUT_LEN only. -/
theorem restart_frame (s : State) : Frame [.outLen] s { s with outLen := 0 } := by
  intro p hp
  cases p <;> first | exact absurd (by decide) hp | exact fun _ => rfl | rfl

theorem stageHemit_frame (s : State) : Frame (frameParts ++ Stage.parts .hemit) s (stageHemit s).final := by
  refine (openStage_frame .hemit s).andThen fun _ s1 => ?_
  refine ((restart_frame s1).mono (by decide)).trans (Frame.andThen ((emitAll_frame _ _).mono (by decide)) fun _ s2
      => ?_)
  exact closeStage_frame .hemit s2

theorem flush_frame (acc : BitSeq) (s : State) :
    Frame [.outMem, .outLen, .busy, .done, .err, .errCode, .errInfo] s (flush acc s).final := by
  simp only [flush]
  split
  · exact Frame.refl _ s
  · exact emit_frame _ _

theorem packBytes_frame (n i : Nat) (acc : BitSeq) (s : State) :
    Frame [.outMem, .outLen, .busy, .done, .err, .errCode, .errInfo] s (packBytes n i acc s).final := by
  induction n generalizing i acc s with
  | zero => exact flush_frame acc s
  | succ n ih =>
    refine Frame.andThen ((memRead_frame i s).mono (by decide)) fun b s1 => ?_
    split
    · exact (raise_frame _ _ _).mono (by decide)
    · exact Frame.andThen (emitAll_frame _ _) fun _ s2 => ih _ _ _

theorem stagePack_frame (s : State) : Frame (frameParts ++ Stage.parts .pack) s (stagePack s).final := by
  refine (openStage_frame .pack s).andThen fun _ s1 => ?_
  split
  · exact (raise_frame _ _ _).mono (by decide)
  · exact Frame.andThen ((packBytes_frame _ _ _ _).mono (by decide)) fun _ s2 => closeStage_frame .pack s2

theorem walkBit_frame (at' : Nat) (cur : Tree) (bit : Bool) (s : State) :
    Frame [.outMem, .outLen, .busy, .done, .err, .errCode, .errInfo] s (walkBit at' cur bit s).final := by
  simp only [walkBit]
  split
  · exact (raise_frame _ _ _).mono (by decide)
  · split
    · exact Frame.andThen (emit_frame _ _) fun _ s' => Frame.refl _ s'
    · exact Frame.refl _ s

theorem walkBits_frame (at' : Nat) (bits : BitSeq) (cur : Tree) (s : State) :
    Frame [.outMem, .outLen, .busy, .done, .err, .errCode, .errInfo] s (walkBits at' bits cur s).final := by
  induction bits generalizing cur s with
  | nil => exact Frame.refl _ s
  | cons bit bits ih =>
    simp only [walkBits]
    split
    · exact Frame.refl _ s
    · exact Frame.andThen (walkBit_frame _ _ _ _) fun cur' s' => ih cur' s'

theorem unpackBytes_frame (fuel pos : Nat) (cur : Tree) (s : State) :
    Frame [.outMem, .outLen, .busy, .done, .err, .errCode, .errInfo] s (unpackBytes fuel pos cur s).final := by
  induction fuel generalizing pos cur s with
  | zero =>
    simp only [unpackBytes]
    split
    · exact (raise_frame _ _ _).mono (by decide)
    · exact Frame.refl _ s
  | succ fuel ih =>
    simp only [unpackBytes]
    split
    · exact Frame.refl _ s
    · split
      · exact (raise_frame _ _ _).mono (by decide)
      · refine Frame.andThen ((memRead_frame _ _).mono (by decide)) fun b s1 => ?_
        exact Frame.andThen (walkBits_frame _ _ _ _) fun cur' s2 => ih _ _ _

theorem stageUnpack_frame (s : State) : Frame (frameParts ++ Stage.parts .unpack) s (stageUnpack s).final := by
  refine (openStage_frame .unpack s).andThen fun _ s1 => ?_
  refine ((restart_frame s1).mono (by decide)).trans
    (Frame.andThen ((unpackBytes_frame _ _ _ _).mono (by decide)) fun _ s2 => closeStage_frame .unpack s2)

theorem loadShape_frame (n k a : Nat) (s : State) :
    Frame [.shape, .busy, .done, .err, .errCode, .errInfo] s (loadShape n k a s).final := by
  induction n generalizing k a s with
  | zero => exact Frame.refl _ s
  | succ n ih =>
    refine Frame.andThen ((memRead_frame _ _).mono (by decide)) fun b s1 => Frame.trans ?_ (ih _ _ _)
    intro p hp
    cases p <;> first | exact absurd (by decide) hp | exact fun _ => rfl | rfl

theorem loadLeaves_frame (n k a : Nat) (s : State) :
    Frame [.leaves, .busy, .done, .err, .errCode, .errInfo] s (loadLeaves n k a s).final := by
  induction n generalizing k a s with
  | zero => exact Frame.refl _ s
  | succ n ih =>
    refine Frame.andThen ((memRead_frame _ _).mono (by decide)) fun b s1 => Frame.trans ?_ (ih _ _ _)
    intro p hp
    cases p <;> first | exact absurd (by decide) hp | exact fun _ => rfl | rfl

theorem parseTree_frame (s : State) : Frame (frameParts ++ Stage.parts .hparse) s (parseTree s).final := by
  simp only [parseTree]
  split
  · exact (raise_frame _ _ _).mono (by decide)
  · split
    · exact (raise_frame _ _ _).mono (by decide)
    · split
      · exact (raise_frame _ _ _).mono (by decide)
      · refine Frame.andThen ((loadShape_frame _ _ _ _).mono (by decide)) fun _ s1 => ?_
        refine Frame.andThen ((loadLeaves_frame _ _ _ _).mono (by decide)) fun _ s2 => ?_
        refine Frame.trans ?_ (closeStage_frame .hparse _)
        intro p hp
        cases p <;> first | exact absurd (by decide) hp | exact fun _ => rfl | rfl

theorem stageHparse_frame (s : State) : Frame (frameParts ++ Stage.parts .hparse) s (stageHparse s).final := by
  refine (openStage_frame .hparse s).andThen fun _ s1 => ?_
  split
  · exact (raise_frame _ _ _).mono (by decide)
  · refine Frame.andThen ((readBytes_frame _ _ _).mono (by decide)) fun h s2 => ?_
    refine Frame.trans (t := setHeader h s2) ?_ (parseTree_frame _)
    intro p hp
    cases p <;> first | exact absurd (by decide) hp | exact fun _ => rfl | rfl

end Sys2Proof.Machine
end

