-- ==== Sys2Proof/Laws/Flags.lean ====
section
/-! SUPPORT. The bits of STATUS (10_state.md R30). -/

namespace Sys2Proof.Machine

/-- Every bit of the STATUS word (R30). -/
theorem Status.getLsbD_toWord (st : Status) (i : Nat) :
    st.toWord.getLsbD i =
      if i = 0 then st.busy else if i = 1 then st.done else if i = 2 then st.err else if i = 3 then false
      else if i < 8 then st.phase.getLsbD (i - 4) else if i = 8 then st.freqV else if i = 9 then st.treeV
      else if i = 10 then st.codeV else if i = 11 then st.serV else if i = 12 then st.hdrw
      else if i = 13 then st.parsed else false := by
  simp only [toWord, BitVec.getLsbD_append, BitVec.getLsbD_ofBool]
  by_cases h : i < 14
  · have : i = 0 ∨ i = 1 ∨ i = 2 ∨ i = 3 ∨ i = 4 ∨ i = 5 ∨ i = 6 ∨ i = 7 ∨ i = 8 ∨ i = 9 ∨ i = 10 ∨ i = 11 ∨
      i = 12 ∨ i = 13 := by omega
    rcases this with rfl | rfl | rfl | rfl | rfl | rfl | rfl | rfl | rfl | rfl | rfl | rfl | rfl | rfl <;> simp
  · repeat rw [if_neg (by omega)]
    simp

end Sys2Proof.Machine
end

