-- ==== Sys2Proof/Laws/Trees.lean ====
section
/-! SUPPORT. Trees, their shapes and paths; what des(), walk and the priority queue compute. -/

namespace Sys2Proof.Machine

/-! ### Shapes (R104) -/

/-- No valid shape is a proper prefix of another (R104). -/
theorem Tree.shapeBits_append_inj : ∀ (p p' : Tree) (r r' : BitSeq),
    p.shapeBits ++ r = p'.shapeBits ++ r' → p.shapeBits = p'.shapeBits ∧ r = r'
  | .leaf _, .leaf _, r, r', h => ⟨rfl, by simpa [shapeBits] using h⟩
  | .leaf _, .node _ _, _, _, h => by simp [shapeBits] at h
  | .node _ _, .leaf _, _, _, h => by simp [shapeBits] at h
  | .node l q, .node l' q', r, r', h => by
    simp only [shapeBits, List.cons_append, List.cons.injEq, true_and, List.append_assoc] at h
    obtain ⟨h1, h2⟩ := shapeBits_append_inj l l' _ _ h
    obtain ⟨h3, h4⟩ := shapeBits_append_inj q q' _ _ h2
    exact ⟨by simp [shapeBits, h1, h3], h4⟩

theorem Tree.leaves_length_of_shapeBits {p p' : Tree} (h : p.shapeBits = p'.shapeBits) :
    p.leaves.length = p'.leaves.length := by rw [← count_shapeBits, ← count_shapeBits, h]

/-- Shape and leaves determine the tree (R101). -/
theorem Tree.eq_of_shapeBits_leaves : ∀ (p p' : Tree), p.shapeBits = p'.shapeBits → p.leaves = p'.leaves → p = p'
  | .leaf _, .leaf _, _, h => by simpa [leaves] using h
  | .leaf _, .node _ _, h, _ => by simp [shapeBits] at h
  | .node _ _, .leaf _, h, _ => by simp [shapeBits] at h
  | .node l q, .node l' q', h, hl => by
    simp only [shapeBits, List.cons.injEq, true_and] at h
    obtain ⟨h1, h2⟩ := shapeBits_append_inj l l' _ _ h
    have h3 := leaves_length_of_shapeBits h1
    obtain ⟨h4, h5⟩ := List.append_inj (by simpa [leaves] using hl) h3
    rw [eq_of_shapeBits_leaves l l' h1 h4, eq_of_shapeBits_leaves q q' h2 h5]

/-- Some prefix of a bit sequence is the shape of a tree. -/
def ShapePrefix (q : BitSeq) (p : Tree) : Prop := ∃ r, q = p.shapeBits ++ r

theorem ShapePrefix.node_iff {q : BitSeq} {p : Tree} : ShapePrefix (true :: q) p →
    ∃ l r, p = .node l r ∧ ∃ q', q = l.shapeBits ++ q' ∧ ShapePrefix q' r := by
  rintro ⟨x, hx⟩
  cases p with
  | leaf => simp [Tree.shapeBits] at hx
  | node l r =>
    simp only [Tree.shapeBits, List.cons_append, List.cons.injEq, true_and, List.append_assoc] at hx
    exact ⟨l, r, rfl, _, hx, x, rfl⟩

/-! ### des() (R141, R145) -/

@[simp] theorem State.length_shapeSeq (s : State) : s.shapeSeq.length = s.shapeBitLen.toNat := by simp [shapeSeq]
@[simp] theorem State.length_leafSeq (s : State) : s.leafSeq.length = s.leafCount.toNat := by simp [leafSeq]

theorem State.shapeSeq_drop (s : State) {sp : Nat} (h : sp < s.shapeBitLen.toNat) :
    s.shapeSeq.drop sp = s.shapeBit sp :: s.shapeSeq.drop (sp + 1) := by
  rw [List.drop_eq_getElem_cons (by simpa using h)]
  simp [shapeSeq]

theorem State.leafSeq_drop (s : State) {lp : Nat} (h : lp < s.leafCount.toNat) :
    s.leafSeq.drop lp = s.leafByte lp :: s.leafSeq.drop (lp + 1) := by
  rw [List.drop_eq_getElem_cons (by simpa using h)]
  simp [leafSeq]

/-- What des() gives, on bits `q` with `n` leaf bytes left (R145): a tree when a prefix of the bits is a
shape whose leaves are there; LeafUnderrun when its leaves are not there, or no prefix is a shape and
the 0 bits outnumber the leaf bytes; else ShapeUnderrun. -/
theorem des_spec (s : State) : ∀ (fuel sp lp : Nat), s.shapeBitLen.toNat ≤ sp + fuel →
    sp ≤ s.shapeBitLen.toNat → lp ≤ s.leafCount.toNat →
    match des s fuel sp lp with
    | .tree t sp' lp' =>
      sp' = sp + t.nodes ∧ lp' = lp + t.leaves.length ∧ sp' ≤ s.shapeBitLen.toNat ∧ lp' ≤ s.leafCount.toNat ∧
        s.shapeSeq.drop sp = t.shapeBits ++ s.shapeSeq.drop sp' ∧ s.leafSeq.drop lp = t.leaves ++ s.leafSeq.drop lp'
    | .bad c info =>
      (c = .leafUnderrun ∧ info = s.leafCount.toNat ∧
        ((∃ p, ShapePrefix (s.shapeSeq.drop sp) p ∧ s.leafCount.toNat < lp + p.leaves.length) ∨
          ((∀ p, ¬ ShapePrefix (s.shapeSeq.drop sp) p) ∧
            s.leafCount.toNat < lp + (s.shapeSeq.drop sp).count false))) ∨
      (c = .shapeUnderrun ∧ info = s.shapeBitLen.toNat ∧ (∀ p, ¬ ShapePrefix (s.shapeSeq.drop sp) p) ∧
        lp + (s.shapeSeq.drop sp).count false ≤ s.leafCount.toNat) := by
  have hempty : ∀ p, ¬ ShapePrefix [] p := by
    rintro p ⟨r, hr⟩
    cases p <;> simp [Tree.shapeBits] at hr
  have hend : ∀ sp lp, sp ≤ s.shapeBitLen.toNat → lp ≤ s.leafCount.toNat → ¬ sp < s.shapeBitLen.toNat →
      sp = s.shapeBitLen.toNat ∧ (∀ p, ¬ ShapePrefix (s.shapeSeq.drop sp) p) ∧
        lp + (s.shapeSeq.drop sp).count false ≤ s.leafCount.toNat := by
    intro sp lp hsp hlp h
    have hd : s.shapeSeq.drop sp = [] := List.drop_of_length_le (by simp; omega)
    rw [hd]
    exact ⟨by omega, hempty, by simpa using hlp⟩
  intro fuel
  induction fuel with
  | zero =>
    intro sp lp hf hsp hlp
    simp only [des]
    obtain ⟨h1, h2, h3⟩ := hend sp lp hsp hlp (by omega)
    exact .inr ⟨trivial, h1, h2, h3⟩
  | succ fuel ih =>
    intro sp lp hf hsp hlp
    simp only [des]
    by_cases hlt : sp < s.shapeBitLen.toNat
    swap
    · rw [if_pos hlt]
      obtain ⟨h1, h2, h3⟩ := hend sp lp hsp hlp hlt
      exact .inr ⟨rfl, h1, h2, h3⟩
    rw [if_neg (not_not.mpr hlt)]
    have hd := s.shapeSeq_drop hlt
    by_cases hb : s.shapeBit sp = true
    · rw [if_pos hb]
      rw [hb] at hd
      have hl := ih (sp + 1) lp (by omega) (by omega) hlp
      cases hdl : des s fuel (sp + 1) lp with
      | bad c info =>
        rw [hdl] at hl
        simp only at hl ⊢
        rcases hl with ⟨hc, hi, h⟩ | ⟨hc, hi, h1, h2⟩
        · refine .inl ⟨hc, hi, ?_⟩
          rcases h with ⟨p, ⟨q', hp⟩, hlt'⟩ | ⟨hno, hlt'⟩
          · by_cases hq : ∃ r, ShapePrefix q' r
            · obtain ⟨r, q'', hr⟩ := hq
              refine .inl ⟨.node p r, ⟨q'', ?_⟩, ?_⟩
              · rw [hd, hp, hr]; simp [Tree.shapeBits]
              · simp only [Tree.leaves, List.length_append]; omega
            · refine .inr ⟨?_, ?_⟩
              · intro p' hp'
                rw [hd] at hp'
                obtain ⟨l, r, _, q'', hq'', hr⟩ := ShapePrefix.node_iff hp'
                rw [hp] at hq''
                obtain ⟨_, h'⟩ := Tree.shapeBits_append_inj _ _ _ _ hq''
                exact hq ⟨r, h' ▸ hr⟩
              · rw [hd, hp]
                simp only [List.count_cons, List.count_append, Tree.count_shapeBits]
                omega
          · refine .inr ⟨?_, ?_⟩
            · intro p' hp'
              rw [hd] at hp'
              obtain ⟨l, r, _, q'', hq'', _⟩ := ShapePrefix.node_iff hp'
              exact hno l ⟨q'', hq''⟩
            · rw [hd]; simpa [List.count_cons] using hlt'
        · refine .inr ⟨hc, hi, ?_, ?_⟩
          · intro p' hp'
            rw [hd] at hp'
            obtain ⟨l, r, _, q'', hq'', _⟩ := ShapePrefix.node_iff hp'
            exact h1 l ⟨q'', hq''⟩
          · rw [hd]; simpa [List.count_cons] using h2
      | tree l sp' lp' =>
        rw [hdl] at hl
        obtain ⟨hsp', hlp', hsple, hlple, hbits, hleaves⟩ := hl
        have hr := ih sp' lp' (by omega) hsple hlple
        simp only
        cases hdr : des s fuel sp' lp' with
        | tree r sp'' lp'' =>
          rw [hdr] at hr
          obtain ⟨h1, h2, h3, h4, h5, h6⟩ := hr
          refine ⟨?_, ?_, h3, h4, ?_, ?_⟩
          · simp only [Tree.nodes]; omega
          · simp only [Tree.leaves, List.length_append]; omega
          · rw [hd, hbits, h5]; simp [Tree.shapeBits]
          · rw [hleaves, h6]; simp [Tree.leaves]
        | bad c info =>
          rw [hdr] at hr
          simp only at hr ⊢
          rcases hr with ⟨hc, hi, h⟩ | ⟨hc, hi, h1, h2⟩
          · refine .inl ⟨hc, hi, ?_⟩
            rcases h with ⟨p, ⟨q', hp⟩, hlt'⟩ | ⟨hno, hlt'⟩
            · refine .inl ⟨.node l p, ⟨q', ?_⟩, ?_⟩
              · rw [hd, hbits, hp]; simp [Tree.shapeBits]
              · simp only [Tree.leaves, List.length_append]; omega
            · refine .inr ⟨?_, ?_⟩
              · intro p' hp'
                rw [hd] at hp'
                obtain ⟨l', r, _, q'', hq'', hr'⟩ := ShapePrefix.node_iff hp'
                rw [hbits] at hq''
                obtain ⟨_, h'⟩ := Tree.shapeBits_append_inj _ _ _ _ hq''
                exact hno r (h' ▸ hr')
              · rw [hd, hbits]
                simp only [List.count_cons, List.count_append, Tree.count_shapeBits]
                omega
          · refine .inr ⟨hc, hi, ?_, ?_⟩
            · intro p' hp'
              rw [hd] at hp'
              obtain ⟨l', r, _, q'', hq'', hr'⟩ := ShapePrefix.node_iff hp'
              rw [hbits] at hq''
              obtain ⟨_, h'⟩ := Tree.shapeBits_append_inj _ _ _ _ hq''
              exact h1 r (h' ▸ hr')
            · rw [hd, hbits]
              simp only [List.count_cons, List.count_append, Tree.count_shapeBits]
              simp
              omega
    · rw [if_neg hb]
      rw [Bool.not_eq_true] at hb
      rw [hb] at hd
      have hleaf : ShapePrefix (s.shapeSeq.drop sp) (.leaf 0) := ⟨s.shapeSeq.drop (sp + 1), by rw [hd]; rfl⟩
      by_cases hlp' : lp < s.leafCount.toNat
      · rw [if_neg (not_not.mpr hlp')]
        refine ⟨rfl, rfl, by omega, by omega, ?_, ?_⟩
        · rw [hd]; rfl
        · rw [s.leafSeq_drop hlp']; rfl
      · rw [if_pos hlp']
        exact .inl ⟨rfl, by omega, .inl ⟨_, hleaf, by simp only [Tree.leaves, List.length_singleton]; omega⟩⟩

/-- des() rebuilds the tree whose shape and leaves stand next (R146). -/
theorem des_of_serialized (s : State) (t : Tree) (sp lp fuel : Nat) (r : BitSeq) (rl : ByteSeq)
    (hf : s.shapeBitLen.toNat ≤ sp + fuel) (hsp : sp ≤ s.shapeBitLen.toNat) (hlp : lp ≤ s.leafCount.toNat)
    (hb : s.shapeSeq.drop sp = t.shapeBits ++ r) (hl : s.leafSeq.drop lp = t.leaves ++ rl) :
    des s fuel sp lp = .tree t (sp + t.nodes) (lp + t.leaves.length) := by
  have hlen : lp + t.leaves.length ≤ s.leafCount.toNat := by
    have := congrArg List.length hl
    simp only [List.length_drop, State.length_leafSeq, List.length_append] at this
    omega
  have h := des_spec s fuel sp lp hf hsp hlp
  cases hd : des s fuel sp lp with
  | bad c info =>
    rw [hd] at h
    rcases h with ⟨_, _, ⟨p, ⟨q, hp⟩, hlt⟩ | ⟨hno, _⟩⟩ | ⟨_, _, hno, _⟩
    · rw [hb] at hp
      have := Tree.leaves_length_of_shapeBits (Tree.shapeBits_append_inj _ _ _ _ hp).1
      omega
    · exact absurd ⟨r, hb⟩ (hno t)
    · exact absurd ⟨r, hb⟩ (hno t)
  | tree t' sp' lp' =>
    rw [hd] at h
    obtain ⟨h1, h2, _, _, h5, h6⟩ := h
    rw [hb] at h5
    rw [hl] at h6
    have hs := (Tree.shapeBits_append_inj _ _ _ _ h5).1
    have hle := Tree.leaves_length_of_shapeBits hs
    have := Tree.eq_of_shapeBits_leaves t t' hs (List.append_inj h6 hle).1
    subst this
    rw [h1, h2]

/-! ### Paths (R105) -/

theorem Tree.pathsFrom_map_fst (t : Tree) (pre : BitSeq) : (t.pathsFrom pre).map Prod.fst = t.leaves := by
  induction t generalizing pre with
  | leaf => rfl
  | node l r ihl ihr => simp [pathsFrom, leaves, ihl, ihr]

theorem Tree.pathsFrom_eq (t : Tree) (pre : BitSeq) :
    t.pathsFrom pre = t.paths.map fun x => (x.1, pre ++ x.2) := by
  induction t generalizing pre with
  | leaf => simp [pathsFrom, paths]
  | node l r ihl ihr =>
    simp only [paths, pathsFrom, List.nil_append, List.map_append]
    rw [ihl (pre ++ [false]), ihr (pre ++ [true]), ihl [false], ihr [true]]
    simp [List.map_map, Function.comp_def]

theorem Tree.paths_node (l r : Tree) :
    (Tree.node l r).paths = (l.paths.map fun x => (x.1, false :: x.2)) ++ (r.paths.map fun x => (x.1, true :: x.2))
        := by
  simp only [paths, pathsFrom, List.nil_append]
  rw [pathsFrom_eq l [false], pathsFrom_eq r [true]]
  rfl

theorem Tree.paths_map_fst (t : Tree) : t.paths.map Prod.fst = t.leaves := t.pathsFrom_map_fst []

theorem Tree.mem_leaves_iff {t : Tree} {b : Byte} : b ∈ t.leaves ↔ ∃ p, (b, p) ∈ t.paths := by
  rw [← paths_map_fst]; simp

theorem Tree.length_path_le (t : Tree) : ∀ x ∈ t.paths, x.2.length ≤ t.depth := by
  induction t with
  | leaf => simp [paths, pathsFrom, depth]
  | node l r ihl ihr =>
    intro x hx
    rw [paths_node] at hx
    simp only [List.mem_append, List.mem_map] at hx
    simp only [depth]
    rcases hx with ⟨y, hy, rfl⟩ | ⟨y, hy, rfl⟩
    · have := ihl y hy; simp only [List.length_cons]; omega
    · have := ihr y hy; simp only [List.length_cons]; omega

/-- In a tree within the store's capacity every code fits its field (R201). -/
theorem Tree.length_path_le_255 {t : Tree} (h : t.leaves.length ≤ 256) {x : Byte × BitSeq} (hx : x ∈ t.paths) :
    x.2.length ≤ 255 := by
  have h1 := t.length_path_le x hx
  have h2 := t.depth_lt
  omega

/-- "Two different leaves' paths diverge at some node": no code is a prefix of another's (R105). -/
theorem Tree.paths_pairwise (t : Tree) : t.paths.Pairwise fun x y => ¬ x.2 <+: y.2 ∧ ¬ y.2 <+: x.2 := by
  induction t with
  | leaf => simp [paths, pathsFrom]
  | node l r ihl ihr =>
    rw [paths_node, List.pairwise_append]
    refine ⟨List.pairwise_map.mpr (ihl.imp ?_), List.pairwise_map.mpr (ihr.imp ?_), ?_⟩
    · intro x y; simp [List.cons_prefix_cons]
    · intro x y; simp [List.cons_prefix_cons]
    · intro x hx y hy
      simp only [List.mem_map] at hx hy
      obtain ⟨x', _, rfl⟩ := hx
      obtain ⟨y', _, rfl⟩ := hy
      simp [List.cons_prefix_cons]

theorem Tree.eq_of_prefix {t : Tree} {x y : Byte × BitSeq} (hx : x ∈ t.paths) (hy : y ∈ t.paths)
    (h : x.2 <+: y.2) : x = y := by
  by_contra hne
  have : Std.Symm fun x y : Byte × BitSeq => ¬ x.2 <+: y.2 ∧ ¬ y.2 <+: x.2 := ⟨fun _ _ h => ⟨h.2, h.1⟩⟩
  exact (t.paths_pairwise.forall hx hy hne).1 h

theorem Tree.path_ne_nil {l r : Tree} {x : Byte × BitSeq} (hx : x ∈ (Tree.node l r).paths) : x.2 ≠ [] := by
  rw [paths_node] at hx
  simp only [List.mem_append, List.mem_map] at hx
  rcases hx with ⟨y, _, rfl⟩ | ⟨y, _, rfl⟩ <;> simp

/-- The Kraft sum of a strict binary tree is 1 (R132), times 2^D for a D the depth does not exceed. -/
theorem Tree.kraft (t : Tree) (D : Nat) (h : t.depth ≤ D) : (t.paths.map fun x => 2 ^ (D - x.2.length)).sum = 2 ^ D
    := by
  induction t generalizing D with
  | leaf => simp [paths, pathsFrom]
  | node l r ihl ihr =>
    simp only [depth] at h
    obtain ⟨E, rfl⟩ : ∃ E, D = E + 1 := ⟨D - 1, by omega⟩
    rw [paths_node]
    simp only [List.map_append, List.map_map, List.sum_append, Function.comp_def, List.length_cons,
      Nat.add_sub_add_right]
    rw [ihl E (by omega), ihr E (by omega)]
    omega

/-- With distinct leaves the code of a leaf's symbol is its path. -/
theorem Tree.code_of_mem {t : Tree} (hnd : t.leaves.Nodup) {x : Byte × BitSeq} (hx : x ∈ t.paths) : t.code x.1 = x.2
    := by
  rw [← paths_map_fst] at hnd
  have hfind : ∃ y, t.paths.find? (fun y => y.1 == x.1) = some y := by
    rw [← Option.isSome_iff_exists, List.find?_isSome]
    exact ⟨x, hx, by simp⟩
  obtain ⟨y, hy⟩ := hfind
  have h1 : y.1 = x.1 := by simpa using List.find?_some hy
  have h2 : y ∈ t.paths := List.mem_of_find?_eq_some hy
  have : y = x := List.inj_on_of_nodup_map hnd h2 hx h1
  simp [code, hy, this]

/-! ### walk (R131) -/

/-- The entry walk leaves for a symbol: the path to its last leaf in pre-order, if it has one. -/
theorem walk_get (t : Tree) (pre : BitSeq) (tbl : Vector CodeEntry 256) (b : Nat) (hb : b < 256) :
    (walk t pre tbl)[b] =
      (((t.pathsFrom pre).filter fun x => x.1.toNat == b).getLast?.map fun x => CodeEntry.ofPath x.2).getD (tbl[b])
          := by
  induction t generalizing pre tbl with
  | leaf a =>
    simp only [walk, Tree.pathsFrom, List.filter_cons, List.filter_nil, Vector.getElem_set]
    by_cases h : a.toNat = b <;> simp [h]
  | node l r ihl ihr =>
    simp only [walk, Tree.pathsFrom, List.filter_append, ihr, ihl, List.getLast?_append]
    cases ((Tree.pathsFrom (pre ++ [true]) r).filter fun x => x.1.toNat == b).getLast? <;> simp

theorem toNat_beq (a b : Byte) : (a.toNat == b.toNat) = (a == b) := by
  by_cases h : a = b
  · simp [h]
  · have : a.toNat ≠ b.toNat := fun h' => h (BitVec.eq_of_toNat_eq h')
    simp [h, this]

/-- The code table's entry of a symbol (R131). -/
theorem codeTable_get (t : Tree) (b : Byte) (hb : b.toNat < 256) :
    (codeTable t)[b.toNat] =
      ((t.paths.filter fun x => x.1 == b).getLast?.map fun x => CodeEntry.ofPath x.2).getD CodeEntry.absent := by
  simp only [codeTable, walk_get, Vector.getElem_replicate, toNat_beq, Tree.paths]

/-- With distinct leaves the code table's entry of a leaf's symbol is its path. -/
theorem codeTable_of_mem {t : Tree} (hnd : t.leaves.Nodup) {x : Byte × BitSeq} (hx : x ∈ t.paths)
    (hb : x.1.toNat < 256) : (codeTable t)[x.1.toNat] = CodeEntry.ofPath x.2 := by
  rw [codeTable_get]
  rw [← Tree.paths_map_fst] at hnd
  have hne : (t.paths.filter fun y => y.1 == x.1) ≠ [] := List.ne_nil_of_mem (List.mem_filter.mpr ⟨hx, by simp⟩)
  have hlast := List.mem_filter.mp (List.getLast_mem hne)
  have : (t.paths.filter fun y => y.1 == x.1).getLast hne = x :=
    List.inj_on_of_nodup_map hnd hlast.1 hx (by simpa using hlast.2)
  rw [List.getLast?_eq_some_getLast hne, this]
  rfl

theorem codeTable_absent {t : Tree} {b : Byte} (h : b ∉ t.leaves) (hb : b.toNat < 256) :
    (codeTable t)[b.toNat] = CodeEntry.absent := by
  rw [codeTable_get]
  have : (t.paths.filter fun x => x.1 == b) = [] := by
    rw [List.filter_eq_nil_iff]
    intro x hx
    simp only [beq_iff_eq]
    rintro rfl
    exact h (Tree.mem_leaves_iff.mpr ⟨x.2, hx⟩)
  rw [this]
  rfl

/-! ### The priority queue (R122, R123) -/

theorem enqueue_perm (x : Entry) (q : List Entry) : (enqueue x q).Perm (x :: q) := by
  induction q with
  | nil => exact .refl _
  | cons y q ih =>
    simp only [enqueue]
    split
    · exact .refl _
    · exact (ih.cons y).trans (.swap x y q)

@[simp] theorem length_enqueue (x : Entry) (q : List Entry) : (enqueue x q).length = q.length + 1 := by
  simpa using (enqueue_perm x q).length_eq

theorem Entry.before_iff (x y : Entry) :
    x.before y = true ↔ (x.w.toNat < y.w.toNat ∨ (x.w.toNat = y.w.toNat ∧ x.seq < y.seq)) := by
  simp [before, BitVec.lt_def, BitVec.toNat_inj]

/-- Inserting an entry younger than all others keeps the queue in the order of R123. -/
theorem enqueue_before (x : Entry) {q : List Entry} (h : q.Pairwise fun a b => a.before b = true)
    (hx : ∀ y ∈ q, y.seq < x.seq) : (enqueue x q).Pairwise fun a b => a.before b = true := by
  simp only [Entry.before_iff] at h ⊢
  induction q with
  | nil => simp [enqueue]
  | cons y q ih =>
    rw [List.pairwise_cons] at h
    have hy := hx y (List.mem_cons_self ..)
    simp only [enqueue]
    split
    · rename_i hb
      rw [Entry.before_iff] at hb
      refine List.pairwise_cons.mpr ⟨?_, List.pairwise_cons.mpr h⟩
      intro z hz
      rcases List.mem_cons.mp hz with rfl | hz
      · exact hb
      · have := h.1 z hz; omega
    · rename_i hb
      rw [Entry.before_iff] at hb
      refine List.pairwise_cons.mpr ⟨?_, ih (fun z hz => hx z (List.mem_cons_of_mem _ hz)) h.2⟩
      intro z hz
      rcases List.mem_cons.mp ((enqueue_perm x q).mem_iff.mp hz) with rfl | hz
      · omega
      · exact h.1 z hz

/-- The leaves of step 1, numbered from `k` in the order of the symbols (R121). -/
theorem enqueueLeaves_perm (s : State) (k : Nat) (bs : ByteSeq) (q : List Entry) :
    (enqueueLeaves s k bs q).Perm (((bs.zipIdx k).map fun x => ⟨s.freqOf x.1, x.2, .leaf x.1⟩) ++ q) := by
  induction bs generalizing k q with
  | nil => exact .refl _
  | cons b bs ih =>
    refine (ih (k + 1) _).trans (((enqueue_perm _ q).append_left _).trans ?_)
    simpa using List.perm_middle

theorem enqueueLeaves_before (s : State) (k : Nat) (bs : ByteSeq) (q : List Entry)
    (h : q.Pairwise fun a b => a.before b = true) (hq : ∀ y ∈ q, y.seq < k) :
    (enqueueLeaves s k bs q).Pairwise fun a b => a.before b = true := by
  induction bs generalizing k q with
  | nil => exact h
  | cons b bs ih =>
    refine ih (k + 1) _ (enqueue_before _ h hq) fun y hy => ?_
    rcases List.mem_cons.mp ((enqueue_perm _ q).mem_iff.mp hy) with rfl | hy
    · exact Nat.lt_succ_self k
    · exact (hq y hy).trans (Nat.lt_succ_self k)

/-! ### The merges (R121, R122) -/

/-- The queue is a set: its list order does not matter (R122). -/
theorem MergeRun.of_perm {next : Nat} {q q' : List Entry} {ms : List (Entry × Entry)} {t : Tree} (hq : q.Perm q')
    (h : MergeRun next q ms t) : MergeRun next q' ms t := by
  cases h with
  | root => obtain rfl := List.perm_singleton.mp hq.symm; exact .root next _
  | merge hp ha hb h => exact .merge (hq.symm.trans hp) ha hb h

/-- The sorted list of the model makes the merges of R121. -/
theorem mergeQueue_run (k next : Nat) (q : List Entry) (h : q.length = k + 1)
    (hs : q.Pairwise fun a b => a.before b = true) (hq : ∀ y ∈ q, y.seq < next) :
    ∃ e ms, mergeQueue k next q = [e] ∧ MergeRun next q ms e.t := by
  induction k generalizing next q with
  | zero =>
    match q, h with
    | [e], _ => exact ⟨e, [], rfl, .root next e⟩
  | succ k ih =>
    match q, h, hs, hq with
    | a :: b :: q, h, hs, hq =>
      simp only [List.length_cons] at h
      have hs' := List.pairwise_cons.mp hs
      have hs'' := List.pairwise_cons.mp hs'.2
      have hq' : ∀ y ∈ q, y.seq < next := fun y hy => hq y (by simp [hy])
      obtain ⟨e, ms, he, hm⟩ := ih (next + 1) (enqueue ⟨a.w + b.w, next, .node a.t b.t⟩ q) (by simp; omega)
        (enqueue_before _ hs''.2 hq') (by
          intro y hy
          rcases List.mem_cons.mp ((enqueue_perm _ q).mem_iff.mp hy) with rfl | hy
          · exact Nat.lt_succ_self next
          · exact (hq' y hy).trans (Nat.lt_succ_self next))
      exact ⟨e, (a, b) :: ms, he, .merge (.refl _) hs'.1 hs''.1 (hm.of_perm (enqueue_perm _ q))⟩

/-- The root has the leaves of all entries. -/
theorem MergeRun.leaves_perm {next : Nat} {q : List Entry} {ms : List (Entry × Entry)} {t : Tree}
    (h : MergeRun next q ms t) : t.leaves.Perm (q.flatMap fun e => e.t.leaves) := by
  induction h with
  | root => simp
  | merge hp _ _ _ ih =>
    refine ih.trans (.trans ?_ (hp.flatMap_right fun e => e.t.leaves).symm)
    simp [Tree.leaves]

/-- In every merge the first-removed entry is before the second-removed one (R123). -/
theorem MergeRun.before {next : Nat} {q : List Entry} {ms : List (Entry × Entry)} {t : Tree}
    (h : MergeRun next q ms t) : ∀ m ∈ ms, m.1.before m.2 = true := by
  induction h with
  | root => simp
  | merge _ ha _ _ ih => exact List.forall_mem_cons.mpr ⟨ha _ (by simp), ih⟩

/-- "The entry's w always equals `weight(t)`" (R122). -/
theorem MergeRun.weight {s : State} {next : Nat} {q : List Entry} {ms : List (Entry × Entry)} {t : Tree}
    (h : MergeRun next q ms t) (hq : ∀ e ∈ q, e.w = s.weight e.t) :
    ∀ m ∈ ms, m.1.w = s.weight m.1.t ∧ m.2.w = s.weight m.2.t := by
  induction h with
  | root => simp
  | @merge _ _ rest a b _ _ hp _ _ _ ih =>
    have hq' : ∀ e ∈ a :: b :: rest, e.w = s.weight e.t := fun e he => hq e (hp.mem_iff.mpr he)
    have ha := hq' a (by simp)
    have hb := hq' b (by simp)
    refine List.forall_mem_cons.mpr ⟨⟨ha, hb⟩, ih fun e he => ?_⟩
    rcases List.mem_cons.mp he with rfl | he
    · simp only [State.weight, ha, hb]
    · exact hq' e (by simp [he])

/-- Every internal node of the root is a merge or an internal node of an entry. -/
theorem MergeRun.everyNode {P : Tree → Tree → Prop} {next : Nat} {q : List Entry} {ms : List (Entry × Entry)} {t : Tree}
    (h : MergeRun next q ms t) (hq : ∀ e ∈ q, e.t.everyNode P) (hm : ∀ m ∈ ms, P m.1.t m.2.t) : t.everyNode P := by
  induction h with
  | root => exact hq _ (by simp)
  | @merge _ _ rest a b _ _ hp _ _ _ ih =>
    have hq' : ∀ e ∈ a :: b :: rest, e.t.everyNode P := fun e he => hq e (hp.mem_iff.mpr he)
    refine ih (fun e he => ?_) fun m h => hm m (List.mem_cons_of_mem _ h)
    rcases List.mem_cons.mp he with rfl | he
    · exact ⟨hm _ (List.mem_cons_self ..), hq' _ (by simp), hq' _ (by simp)⟩
    · exact hq' e (by simp [he])

/-! ### The built tree (R121) -/

theorem mem_allBytes (b : Byte) : b ∈ (List.range 256).map (BitVec.ofNat 8) := by
  simp only [List.mem_map, List.mem_range]
  exact ⟨b.toNat, b.isLt, by simp⟩

theorem nodup_allBytes : ((List.range 256).map (BitVec.ofNat 8)).Nodup := by decide +kernel

theorem State.mem_symbols {s : State} {b : Byte} : b ∈ s.symbols ↔ 0 < (s.freqOf b).toNat := by
  simp only [symbols, List.mem_filter, decide_eq_true_eq, and_iff_right_iff_imp]
  exact fun _ => mem_allBytes b

theorem State.nodup_symbols (s : State) : s.symbols.Nodup := nodup_allBytes.filter _

theorem State.length_symbols (s : State) : s.symbols.length = s.distinct := by
  simp only [symbols, distinct, List.filter_map, List.length_map]
  rfl

theorem State.leafEntries_leaves (s : State) : (s.leafEntries.flatMap fun e => e.t.leaves) = s.symbols := by
  simp [leafEntries, List.flatMap_map, Tree.leaves, ← List.map_eq_flatMap]

/-- With a symbol at all there is a built tree: the one the merges of R121 make; its leaves are the symbols. -/
theorem State.builtTree_spec (s : State) (h : 0 < s.symbols.length) :
    ∃ t, s.builtTree = some t ∧ t.leaves.Perm s.symbols ∧ ∃ ms, MergeRun s.distinct s.leafEntries ms t := by
  have hp : (enqueueLeaves s 0 s.symbols []).Perm s.leafEntries := by
    simpa [leafEntries] using enqueueLeaves_perm s 0 s.symbols []
  have hlen : s.leafEntries.length = s.symbols.length := by simp [leafEntries]
  obtain ⟨e, ms, he, hm⟩ := mergeQueue_run (s.symbols.length - 1) s.symbols.length (enqueueLeaves s 0 s.symbols [])
    (by rw [hp.length_eq, hlen]; omega) (enqueueLeaves_before s 0 s.symbols [] (by simp) (by simp)) (by
      intro y hy
      obtain ⟨x, hx, rfl⟩ := List.mem_map.mp (hp.mem_iff.mp hy)
      have := List.mem_zipIdx hx
      simp only; omega)
  have hm' : MergeRun s.distinct s.leafEntries ms e.t := s.length_symbols ▸ hm.of_perm hp
  exact ⟨e.t, by simp [builtTree, he], s.leafEntries_leaves ▸ hm'.leaves_perm, ms, hm'⟩

/-- The built tree depends on FREQ alone (R124 (e)). -/
theorem State.builtTree_congr {s s' : State} (h : s.freq = s'.freq) : s.builtTree = s'.builtTree := by
  have hf : ∀ b, s.freqOf b = s'.freqOf b := fun b => by simp only [freqOf, h]
  have hsym : s.symbols = s'.symbols := by simp only [symbols, hf]
  have henq : ∀ k bs q, enqueueLeaves s k bs q = enqueueLeaves s' k bs q := by
    intro k bs q
    induction bs generalizing k q with
    | nil => rfl
    | cons b bs ih => simp only [enqueueLeaves, hf, ih]
  simp only [builtTree, hsym, henq]

end Sys2Proof.Machine
end

