-- ==== Sys2Proof/Laws/Loops.lean ====
section
/-! SUPPORT. What each loop of a stage computes: the scan, the pack, the tree walk, the copies of HPARSE. -/

namespace Sys2Proof.Machine

/-! ### What emitting leaves alone -/

@[simp] theorem State.emitted_status (s : State) (bs : ByteSeq) : (s.emitted bs).status = s.status := rfl
@[simp] theorem State.emitted_platform (s : State) (bs : ByteSeq) : (s.emitted bs).platform = s.platform := rfl
@[simp] theorem State.emitted_inLen (s : State) (bs : ByteSeq) : (s.emitted bs).inLen = s.inLen := rfl
@[simp] theorem State.emitted_origSize (s : State) (bs : ByteSeq) : (s.emitted bs).origSize = s.origSize := rfl
@[simp] theorem State.emitted_tree (s : State) (bs : ByteSeq) : (s.emitted bs).tree = s.tree := rfl
@[simp] theorem State.emitted_inByte (s : State) (bs : ByteSeq) (a : Nat) : (s.emitted bs).inByte a = s.inByte a := rfl
@[simp] theorem State.emitted_inSeq (s : State) (bs : ByteSeq) (a n : Nat) : (s.emitted bs).inSeq a n = s.inSeq a n
    := rfl
@[simp] theorem State.emitted_codeOf (s : State) (bs : ByteSeq) (b : Byte) : (s.emitted bs).codeOf b = s.codeOf b := rfl
@[simp] theorem State.emitted_codeBits (s : State) (bs d : ByteSeq) : (s.emitted bs).codeBits d = s.codeBits d := rfl

/-- The rest of a writable range after some of it has been emitted to. -/
theorem State.outWritable_emitted {s : State} {bs : ByteSeq} {hi : Nat} (hl : s.outLen.toNat + bs.length < 2 ^ 64)
    (h : s.outWritable s.outLen.toNat hi) : (s.emitted bs).outWritable (s.emitted bs).outLen.toNat hi := by
  intro a ha ha'
  rw [s.outLen_emitted bs hl] at ha'
  exact h a ha (by omega)

/-- A writable range that is not empty ends within OUT_CAP, so OUT_LEN does not wrap (R199). -/
theorem State.outWritable_lt {s : State} {lo hi : Nat} (h : s.outWritable lo hi) (hlo : lo < 2 ^ 64) (hlt : lo ≤ hi) :
    hi < 2 ^ 64 := by
  rcases Nat.eq_or_lt_of_le hlt with rfl | hlt
  · exact hlo
  · have := (h (hi - 1) (by omega) (by omega)).1
    have := s.platform.outCap.isLt
    omega

/-! ### The scan (R116) -/

/-- The bytes `bs` counted, one after another. -/
def State.countSeq (bs : ByteSeq) (s : State) : State := bs.foldl (fun s b => countByte b s) s

@[simp] theorem State.countSeq_cons (b : Byte) (bs : ByteSeq) (s : State) :
    s.countSeq (b :: bs) = (countByte b s).countSeq bs := rfl

/-- Counting writes FREQ and nothing else. -/
theorem State.countSeq_eq (bs : ByteSeq) (s : State) : s.countSeq bs = { s with freq := (s.countSeq bs).freq } := by
  induction bs generalizing s with
  | nil => rfl
  | cons b bs ih =>
    rw [State.countSeq_cons, ih]
    rfl

theorem State.freqOf_countByte (b c : Byte) (s : State) :
    (countByte b s).freqOf c = if c = b then s.freqOf c + 1 else s.freqOf c := by
  simp only [freqOf, countByte, Vector.getElem_set]
  by_cases h : c = b
  · simp [h]
  · have : b.toNat ≠ c.toNat := fun h' => h (BitVec.eq_of_toNat_eq h').symm
    simp [h, this]

theorem State.freqOf_countSeq (bs : ByteSeq) (c : Byte) (s : State) :
    (s.countSeq bs).freqOf c = s.freqOf c + BitVec.ofNat 64 (bs.count c) := by
  induction bs generalizing s with
  | nil => simp [countSeq]
  | cons b bs ih =>
    rw [State.countSeq_cons, ih, freqOf_countByte, List.count_cons]
    by_cases h : c = b
    · subst h
      simp only [if_true, beq_self_eq_true, BitVec.ofNat_add, BitVec.add_assoc]
      rw [BitVec.add_comm 1]
      rfl
    · simp [h, Ne.symm h]

/-- All a scan can do: count every byte, or raise IoRead at the first address that cannot be read. -/
theorem scanBytes_cases (n i : Nat) (s : State) :
    ((∀ x, i ≤ x → x < i + n → x < s.platform.inCap.toNat ∧ x ∉ s.platform.inFault) ∧
      scanBytes n i s = .ok () (s.countSeq (s.inSeq i n))) ∨
    ∃ k < n, (s.platform.inCap.toNat ≤ i + k ∨ i + k ∈ s.platform.inFault) ∧
      (∀ x, i ≤ x → x < i + k → x < s.platform.inCap.toNat ∧ x ∉ s.platform.inFault) ∧
      scanBytes n i s = .raised (faultEntry .ioRead (BitVec.ofNat 64 (i + k)) (s.countSeq (s.inSeq i k))) := by
  induction n generalizing i s with
  | zero => exact .inl ⟨fun x _ _ => by omega, rfl⟩
  | succ n ih =>
    rcases memRead_cases i s with ⟨h1, h2, h⟩ | ⟨h1, h⟩
    · simp only [scanBytes, h, Run.andThen_ok]
      have hin : ∀ a m, (countByte (s.inByte i) s).inSeq a m = s.inSeq a m := fun _ _ => rfl
      rcases ih (i + 1) (countByte (s.inByte i) s) with ⟨hr, he⟩ | ⟨k, hk, hbad, hr, he⟩
      · refine .inl ⟨fun x hx hx' => ?_, ?_⟩
        · rcases Nat.eq_or_lt_of_le hx with rfl | hx
          · exact ⟨h1, h2⟩
          · exact hr x (by omega) (by omega)
        · rw [he, hin, State.inSeq_succ]; rfl
      · refine .inr ⟨k + 1, by omega, ?_, fun x hx hx' => ?_, ?_⟩
        · rw [show i + (k + 1) = i + 1 + k by omega]; exact hbad
        · rcases Nat.eq_or_lt_of_le hx with rfl | hx
          · exact ⟨h1, h2⟩
          · exact hr x (by omega) (by omega)
        · rw [he, hin, State.inSeq_succ, show i + (k + 1) = i + 1 + k by omega]; rfl
    · exact .inr ⟨0, by omega, by simpa using h1, fun x _ _ => by omega,
        by simp only [scanBytes, h, Run.andThen_raised]; rfl⟩

/-! ### Sums over all byte values -/

/-- The 256 byte values in order. -/
def allBytes : ByteSeq := (List.range 256).map (BitVec.ofNat 8)

theorem sum_range_eq (f : Byte → Nat) : ((List.range 256).map fun k => f (BitVec.ofNat 8 k)).sum = (allBytes.map
    f).sum := by
  simp [allBytes, List.map_map, Function.comp_def]

theorem sum_single (f : Byte → Nat) (b : Byte) (l : ByteSeq) (hl : l.Nodup) :
    (l.map fun c => if c = b then f c else 0).sum = if b ∈ l then f b else 0 := by
  induction l with
  | nil => rfl
  | cons c l ih =>
    rw [List.nodup_cons] at hl
    simp only [List.map_cons, List.sum_cons, ih hl.2, List.mem_cons]
    by_cases h : c = b
    · subst h; simp [hl.1]
    · simp [h, Ne.symm h]

/-- Summing a weight over the elements of a sequence is summing count times weight over all bytes. -/
theorem sum_count_mul (f : Byte → Nat) (d : ByteSeq) :
    (allBytes.map fun c => d.count c * f c).sum = (d.map f).sum := by
  induction d with
  | nil => simp
  | cons b d ih =>
    have h : (fun c => (b :: d).count c * f c) = fun c => d.count c * f c + if c = b then f c else 0 := by
      funext c
      rw [List.count_cons]
      by_cases hc : c = b
      · subst hc; simp; ring
      · simp [hc, Ne.symm hc]
    rw [h, List.sum_map_add, ih, sum_single f b allBytes nodup_allBytes,
      if_pos (show b ∈ allBytes from mem_allBytes b), List.map_cons,
      List.sum_cons]
    omega

theorem sum_count (d : ByteSeq) : (allBytes.map fun c => d.count c).sum = d.length := by
  simpa using sum_count_mul (fun _ => 1) d

/-! ### The pack (R153) -/

theorem State.codeBits_cons (s : State) (b : Byte) (d : ByteSeq) :
    s.codeBits (b :: d) = (s.codeOf b).seq ++ s.codeBits d := by simp [codeBits]

theorem length_drained (acc : BitSeq) : (drained acc).length = acc.length / 8 := by simp [drained, Config.chunkBits]

theorem length_carried (acc : BitSeq) : (carried acc).length = acc.length % 8 := by
  simp only [carried, Config.chunkBits, List.length_drop]; omega

/-- What a drain leaves, with more appended, drains to the rest. -/
theorem drained_append (acc r : BitSeq) : drained (acc ++ r) = drained acc ++ drained (carried acc ++ r) := by
  have hc := length_carried acc
  have hlen : (acc ++ r).length / 8 = acc.length / 8 + (carried acc ++ r).length / 8 := by
    simp only [List.length_append, hc]; omega
  simp only [drained, Config.chunkBits, hlen]
  rw [wholeBytes_append, wholeBytes_append_right _ acc r (by omega), List.drop_append_of_le_length (by omega)]
  rfl

/-- What a drain carries, with more appended, carries the same. -/
theorem carried_append (acc r : BitSeq) : carried (acc ++ r) = carried (carried acc ++ r) := by
  have h := drained_carried (acc ++ r)
  conv_rhs at h => rw [← drained_carried acc, List.append_assoc, ← drained_carried (carried acc ++ r)]
  rw [drained_append, List.flatMap_append, List.append_assoc] at h
  exact List.append_cancel_left (List.append_cancel_left h)

theorem flush_ok (acc : BitSeq) (s : State) (h : acc.length < 8)
    (hw : s.outWritable s.outLen.toNat (s.outLen.toNat + ceil8 acc.length)) :
    flush acc s = .ok () (s.emitted (pack acc)) := by
  rw [pack_of_short acc h]
  simp only [flush, Config.chunkBits]
  split
  · simp
  · rw [emit_eq_emitAll, emitAll_ok]
    intro a ha ha'
    refine hw a ?_ ha'
    simp only [List.length_singleton] at ha
    have : ceil8 acc.length = 1 := by unfold ceil8; omega
    omega

/-- A code appended to what a drain leaves fits the accumulator (R7, R152). -/
theorem appendBits_eq {acc : BitSeq} (h : acc.length < 8) (e : CodeEntry) : appendBits acc e.seq = acc ++ e.seq := by
  have := e.len.isLt
  exact List.take_of_length_le (by simp only [List.length_append, CodeEntry.length_seq, Config.accBits]; omega)

/-- After `k` readable, coded bytes, the whole bytes of their codes are emitted and the other bits carried. -/
theorem packBytes_prefix (k n i : Nat) (acc : BitSeq) (s : State) (hk : k ≤ n) (hacc : acc.length < 8)
    (hr : ∀ x, i ≤ x → x < i + k → x < s.platform.inCap.toNat ∧ x ∉ s.platform.inFault)
    (hc : ∀ b ∈ s.inSeq i k, (s.codeOf b).present = true)
    (hw : s.outWritable s.outLen.toNat (s.outLen.toNat + (acc ++ s.codeBits (s.inSeq i k)).length / 8)) :
    packBytes n i acc s = packBytes (n - k) (i + k) (carried (acc ++ s.codeBits (s.inSeq i k)))
      (s.emitted (drained (acc ++ s.codeBits (s.inSeq i k)))) := by
  induction k generalizing n i acc s with
  | zero =>
    have hd : drained acc = [] := by rw [← List.length_eq_zero_iff, length_drained]; omega
    have hcar : carried acc = acc := by simpa [hd] using drained_carried acc
    simp [State.inSeq, State.codeBits, hd, hcar]
  | succ k ih =>
    obtain ⟨n, rfl⟩ : ∃ m, n = m + 1 := ⟨n - 1, by omega⟩
    obtain ⟨h1, h2⟩ := hr i (Nat.le_refl i) (by omega)
    rw [State.inSeq_succ] at hc hw ⊢
    rw [State.codeBits_cons, ← List.append_assoc] at hw ⊢
    simp only [packBytes, memRead_ok h1 h2, Run.andThen_ok, hc _ (List.mem_cons_self ..), not_true_eq_false, if_false,
      appendBits_eq hacc]
    generalize hacc' : acc ++ (s.codeOf (s.inByte i)).seq = acc' at hw ⊢
    have hlen : (drained acc').length + (carried acc' ++ s.codeBits (s.inSeq (i + 1) k)).length / 8
        = (acc' ++ s.codeBits (s.inSeq (i + 1) k)).length / 8 := by
      rw [← length_drained, ← length_drained (acc' ++ _), drained_append acc', List.length_append]
    have hlt : s.outLen.toNat + (acc' ++ s.codeBits (s.inSeq (i + 1) k)).length / 8 < 2 ^ 64 :=
      s.outWritable_lt hw s.outLen.isLt (by omega)
    rw [emitAll_ok (drained acc') s fun a ha ha' => hw a (by omega) ha', Run.andThen_ok,
      State.emitted_codeOf, hacc', ih n (i + 1) (carried acc') (s.emitted (drained acc')) (by omega)
          (length_carried_lt acc')]
    · simp only [State.emitted_inSeq, State.emitted_codeBits]
      have hcc : carried (acc' ++ s.codeBits (s.inSeq (i + 1) k)) =
          carried (carried acc' ++ s.codeBits (s.inSeq (i + 1) k)) := carried_append acc' _
      rw [State.emitted_append _ _ _ (by omega), ← drained_append, hcc, show i + (k + 1) = i + 1 + k by omega,
        show n + 1 - (k + 1) = n - k by omega]
    · exact fun x hx hx' => hr x (by omega) (by omega)
    · exact fun b hb => hc b (List.mem_cons_of_mem _ hb)
    · simp only [State.emitted_inSeq, State.emitted_codeBits]
      rw [s.outLen_emitted _ (by omega), Nat.add_assoc, hlen, ← s.outLen_emitted (drained acc') (by omega)]
      exact State.outWritable_emitted (by omega) hw

/-- A pack of readable, coded bytes into writable bytes emits the packed concatenation (R154). -/
theorem packBytes_ok (n i : Nat) (acc : BitSeq) (s : State) (hacc : acc.length < 8)
    (hr : ∀ x, i ≤ x → x < i + n → x < s.platform.inCap.toNat ∧ x ∉ s.platform.inFault)
    (hc : ∀ b ∈ s.inSeq i n, (s.codeOf b).present = true)
    (hw : s.outWritable s.outLen.toNat (s.outLen.toNat + ceil8 (acc ++ s.codeBits (s.inSeq i n)).length)) :
    packBytes n i acc s = .ok () (s.emitted (pack (acc ++ s.codeBits (s.inSeq i n)))) := by
  generalize hq : acc ++ s.codeBits (s.inSeq i n) = q at hw
  have hp : pack q = drained q ++ pack (carried q) := by simpa using pack_drained q []
  have hlen : ceil8 q.length = (drained q).length + ceil8 (carried q).length := by
    rw [← length_pack, hp, List.length_append, length_pack]
  have hlt := s.outWritable_lt hw s.outLen.isLt (by omega)
  have hdl := length_drained q
  rw [packBytes_prefix n n i acc s (Nat.le_refl n) hacc hr hc (by rw [hq]; intro a ha ha'; exact hw a (by omega) ha'),
    hq, Nat.sub_self, packBytes, flush_ok _ _ (length_carried_lt q), State.emitted_append _ _ _ (by omega), ← hp]
  rw [s.outLen_emitted _ (by omega), Nat.add_assoc, ← hlen, ← s.outLen_emitted (drained q) (by omega)]
  exact State.outWritable_emitted (by omega) hw

/-- A flush that completes had room for the partial byte. -/
theorem flush_writable {acc : BitSeq} {s t : State} (h : flush acc s = .ok () t) (hacc : acc.length < 8) :
    s.outWritable s.outLen.toNat (s.outLen.toNat + ceil8 acc.length) := by
  intro a ha ha'
  simp only [flush] at h
  split at h
  · have : ceil8 acc.length = 0 := by unfold ceil8; omega
    omega
  · have : ceil8 acc.length = 1 := by unfold ceil8; omega
    obtain rfl : a = s.outLen.toNat := by omega
    rcases emit_cases (byte8 (acc ++ zeros (Config.chunkBits - acc.length))) s with ⟨h1, h2, _⟩ | ⟨_, he⟩
    · exact ⟨h1, h2⟩
    · rw [he] at h; exact absurd h (by simp)

/-- A pack that completes read every byte, found a code for each, and had room for the packed codes. -/
theorem packBytes_completes (n i : Nat) (acc : BitSeq) (s t : State) (hacc : acc.length < 8)
    (h : packBytes n i acc s = .ok () t) :
    (∀ x, i ≤ x → x < i + n → x < s.platform.inCap.toNat ∧ x ∉ s.platform.inFault) ∧
      (∀ b ∈ s.inSeq i n, (s.codeOf b).present = true) ∧
      s.outWritable s.outLen.toNat (s.outLen.toNat + ceil8 (acc ++ s.codeBits (s.inSeq i n)).length) := by
  induction n generalizing i acc s with
  | zero =>
    refine ⟨fun x _ _ => by omega, by simp [State.inSeq], ?_⟩
    simp only [State.inSeq, List.range_zero, List.map_nil, State.codeBits, List.flatMap_nil, List.append_nil]
    exact flush_writable h hacc
  | succ n ih =>
    rcases memRead_cases i s with ⟨h1, h2, he⟩ | ⟨_, he⟩
    swap
    · simp [packBytes, he] at h
    simp only [packBytes, he, Run.andThen_ok, appendBits_eq hacc] at h
    by_cases hp : (s.codeOf (s.inByte i)).present = true
    swap
    · rw [if_pos hp, raise_eq] at h; exact absurd h (by simp)
    rw [if_neg (not_not.mpr hp)] at h
    generalize hacc' : acc ++ (s.codeOf (s.inByte i)).seq = acc' at h
    rcases emitAll_cases (drained acc') s with ⟨hw, he'⟩ | ⟨_, _, _, _, he'⟩
    swap
    · rw [he'] at h; exact absurd h (by simp)
    rw [he', Run.andThen_ok, State.emitted_codeOf, hacc'] at h
    obtain ⟨i1, i2, i3⟩ := ih (i + 1) (carried acc') (s.emitted (drained acc')) (length_carried_lt acc') h
    have hlen : (drained acc').length + ceil8 (carried acc' ++ s.codeBits (s.inSeq (i + 1) n)).length
        = ceil8 (acc' ++ s.codeBits (s.inSeq (i + 1) n)).length := by
      rw [← length_pack, ← length_pack (acc' ++ _), pack_drained acc', List.length_append]
    have hl := s.outLen_emitted (drained acc') (s.outWritable_lt hw s.outLen.isLt (by omega))
    refine ⟨fun x hx hx' => ?_, ?_, ?_⟩
    · rcases Nat.eq_or_lt_of_le hx with rfl | hx
      · exact ⟨h1, h2⟩
      · exact i1 x (by omega) (by omega)
    · rw [State.inSeq_succ]
      intro b hb
      rcases List.mem_cons.mp hb with rfl | hb
      · exact hp
      · exact i2 b hb
    · rw [State.inSeq_succ, State.codeBits_cons, ← List.append_assoc, hacc', ← hlen]
      intro a ha ha'
      by_cases hlt : a < s.outLen.toNat + (drained acc').length
      · exact hw a hlt ha'
      · exact i3 a (by rw [hl]; simp only [State.emitted_inSeq, State.emitted_codeBits]; omega) (by rw [hl]; omega)

/-- A pack that meets a byte without a code after `k` coded ones raises NoCode there; the whole bytes of
the codes before it have been emitted (R221). -/
theorem packBytes_noCode (k n i : Nat) (acc : BitSeq) (s : State) (hk : k < n) (hacc : acc.length < 8)
    (hr : ∀ x, i ≤ x → x ≤ i + k → x < s.platform.inCap.toNat ∧ x ∉ s.platform.inFault)
    (hc : ∀ b ∈ s.inSeq i k, (s.codeOf b).present = true) (hno : (s.codeOf (s.inByte (i + k))).present = false)
    (hw : s.outWritable s.outLen.toNat (s.outLen.toNat + (acc ++ s.codeBits (s.inSeq i k)).length / 8)) :
    packBytes n i acc s = .raised (faultEntry .noCode (BitVec.ofNat 64 (i + k))
      (s.emitted (drained (acc ++ s.codeBits (s.inSeq i k))))) := by
  obtain ⟨h1, h2⟩ := hr (i + k) (by omega) (by omega)
  rw [packBytes_prefix k n i acc s (by omega) hacc (fun x hx hx' => hr x hx (by omega)) hc hw,
    show n - k = (n - k - 1) + 1 by omega, packBytes]
  generalize hu : s.emitted (drained (acc ++ s.codeBits (s.inSeq i k))) = u
  rw [memRead_ok (by rw [← hu]; exact h1) (by rw [← hu]; exact h2), Run.andThen_ok,
    if_pos (by rw [← hu, State.emitted_codeOf, State.emitted_inByte, hno]; simp), raise_eq]

/-- A pack that cannot read the byte after `k` coded ones raises IoRead there; the whole bytes of the codes
before it have been emitted (R217). -/
theorem packBytes_ioRead (k n i : Nat) (acc : BitSeq) (s : State) (hk : k < n) (hacc : acc.length < 8)
    (hr : ∀ x, i ≤ x → x < i + k → x < s.platform.inCap.toNat ∧ x ∉ s.platform.inFault)
    (hbad : s.platform.inCap.toNat ≤ i + k ∨ i + k ∈ s.platform.inFault)
    (hc : ∀ b ∈ s.inSeq i k, (s.codeOf b).present = true)
    (hw : s.outWritable s.outLen.toNat (s.outLen.toNat + (acc ++ s.codeBits (s.inSeq i k)).length / 8)) :
    packBytes n i acc s = .raised (faultEntry .ioRead (BitVec.ofNat 64 (i + k))
      (s.emitted (drained (acc ++ s.codeBits (s.inSeq i k))))) := by
  rw [packBytes_prefix k n i acc s (by omega) hacc hr hc hw, show n - k = (n - k - 1) + 1 by omega, packBytes]
  generalize hu : s.emitted (drained (acc ++ s.codeBits (s.inSeq i k))) = u
  rw [memRead_fault (by rw [← hu]; exact hbad), Run.andThen_raised]

/-- A pack whose first `k` bytes are readable and coded, and whose output meets an OUT address it cannot write
while their codes, or the flush after them, are emitted: IoWrite there, the bytes before it emitted (R218). -/
theorem packBytes_ioWrite (k n i m : Nat) (acc : BitSeq) (s : State) (hk : k ≤ n) (hacc : acc.length < 8)
    (hr : ∀ x, i ≤ x → x < i + k → x < s.platform.inCap.toNat ∧ x ∉ s.platform.inFault)
    (hc : ∀ b ∈ s.inSeq i k, (s.codeOf b).present = true)
    (hw : s.outWritable s.outLen.toNat (s.outLen.toNat + m))
    (hbad : s.platform.outCap.toNat ≤ s.outLen.toNat + m ∨ s.outLen.toNat + m ∈ s.platform.outFault)
    (hm : m < (acc ++ s.codeBits (s.inSeq i k)).length / 8 ∨
      (k = n ∧ m < ceil8 (acc ++ s.codeBits (s.inSeq i k)).length)) :
    packBytes n i acc s = .raised (faultEntry .ioWrite (BitVec.ofNat 64 (s.outLen.toNat + m))
      (s.emitted ((pack (acc ++ s.codeBits (s.inSeq i k))).take m))) := by
  induction k generalizing n i m acc s with
  | zero =>
    simp only [State.inSeq, List.range_zero, List.map_nil, State.codeBits, List.flatMap_nil, List.append_nil] at hm ⊢
    have hc1 : ceil8 acc.length ≤ 1 := by unfold ceil8; omega
    obtain ⟨rfl, hm⟩ : n = 0 ∧ m < ceil8 acc.length := by
      rcases hm with h | ⟨h, h'⟩
      · omega
      · exact ⟨h.symm, h'⟩
    obtain rfl : m = 0 := by omega
    have hne : acc.length ≠ 0 := by intro h; rw [h] at hm; simp [ceil8] at hm
    simp only [packBytes, flush, if_neg hne, emit_eq_emitAll]
    rw [emitAll_fault (by simp) hw hbad]
    simp
  | succ k ih =>
    obtain ⟨n, rfl⟩ : ∃ m, n = m + 1 := ⟨n - 1, by omega⟩
    obtain ⟨h1, h2⟩ := hr i (Nat.le_refl i) (by omega)
    rw [State.inSeq_succ] at hc hm ⊢
    rw [State.codeBits_cons, ← List.append_assoc] at hm ⊢
    simp only [packBytes, memRead_ok h1 h2, Run.andThen_ok, hc _ (List.mem_cons_self ..), not_true_eq_false, if_false,
      appendBits_eq hacc]
    generalize hacc' : acc ++ (s.codeOf (s.inByte i)).seq = acc' at hm ⊢
    rw [pack_drained acc']
    by_cases hd : m < (drained acc').length
    · rw [emitAll_fault hd hw hbad, Run.andThen_raised, List.take_append_of_le_length (by omega)]
    · have hlt : s.outLen.toNat + m < 2 ^ 64 := s.outWritable_lt hw s.outLen.isLt (by omega)
      have hl := s.outLen_emitted (drained acc') (by omega)
      have hm' : m = (drained acc').length + (m - (drained acc').length) := by omega
      rw [emitAll_ok (drained acc') s fun a ha ha' => hw a (by omega) ha', Run.andThen_ok, State.emitted_codeOf, hacc',
        ih n (i + 1) (m - (drained acc').length) (carried acc') (s.emitted (drained acc')) (by omega)
          (length_carried_lt acc') (fun x hx hx' => hr x (by omega) (by omega))
          (fun b hb => hc b (List.mem_cons_of_mem _ hb))]
      · rw [State.emitted_append _ _ _ (by omega), hl, List.take_append,
          List.take_of_length_le (l := drained acc') (by omega)]
        simp only [State.emitted_inSeq, State.emitted_codeBits, Nat.add_assoc, ← hm']
      · rw [hl, Nat.add_assoc, ← hm', ← hl]
        exact State.outWritable_emitted (by omega) hw
      · rw [hl, Nat.add_assoc, ← hm']; exact hbad
      · simp only [State.emitted_inSeq, State.emitted_codeBits]
        have e1 : (drained acc').length + (carried acc' ++ s.codeBits (s.inSeq (i + 1) k)).length / 8
            = (acc' ++ s.codeBits (s.inSeq (i + 1) k)).length / 8 := by
          rw [← length_drained, ← length_drained (acc' ++ _), drained_append acc', List.length_append]
        have e2 : (drained acc').length + ceil8 (carried acc' ++ s.codeBits (s.inSeq (i + 1) k)).length
            = ceil8 (acc' ++ s.codeBits (s.inSeq (i + 1) k)).length := by
          rw [← length_pack, ← length_pack (acc' ++ _), pack_drained acc', List.length_append]
        omega

/-! ### The tree walk (R161, R162) -/

/-- The walk as a pure function: at most `m` symbols are decoded from the bits, the cursor starting at `cur`
and going back to `root` after a leaf. -/
def Tree.trace (root : Tree) : Nat → Tree → BitSeq → ByteSeq × Tree
  | 0, cur, _ => ([], cur)
  | _ + 1, cur, [] => ([], cur)
  | _ + 1, .leaf b, _ :: _ => ([], .leaf b)
  | m + 1, .node l r, bit :: bits =>
    match if bit then r else l with
    | .leaf b => let t := root.trace m root bits; (b :: t.1, t.2)
    | .node l' r' => root.trace (m + 1) (.node l' r') bits

/-- The cursor never rests on a leaf, when the root is none. -/
theorem Tree.trace_node (l0 r0 : Tree) (m : Nat) (l r : Tree) (bits : BitSeq) :
    ∃ l' r', ((Tree.node l0 r0).trace m (.node l r) bits).2 = .node l' r' := by
  induction bits generalizing m l r with
  | nil => cases m <;> exact ⟨l, r, rfl⟩
  | cons bit bits ih =>
    cases m with
    | zero => exact ⟨l, r, rfl⟩
    | succ m =>
      simp only [trace]
      split
      · exact ih m l0 r0
      · rename_i l' r' _
        exact ih (m + 1) l' r'

theorem Tree.trace_length_le (root : Tree) (m : Nat) (cur : Tree) (bits : BitSeq) :
    (root.trace m cur bits).1.length ≤ m := by
  induction bits generalizing m cur with
  | nil => cases m <;> simp [trace]
  | cons bit bits ih =>
    match m, cur with
    | 0, _ => simp [trace]
    | m + 1, .leaf b => simp [trace]
    | m + 1, .node l r =>
      simp only [trace]
      split
      · simpa using ih m root
      · exact ih (m + 1) _

theorem Tree.trace_zero (root cur : Tree) (bits : BitSeq) : root.trace 0 cur bits = ([], cur) := by
  cases bits <;> rfl

theorem Tree.trace_nil (root cur : Tree) (m : Nat) : root.trace m cur [] = ([], cur) := by cases m <;> rfl

/-- The walk over a concatenation is the walk over its parts. -/
theorem Tree.trace_append (l0 r0 : Tree) (m : Nat) (l r : Tree) (a b : BitSeq) :
    (Tree.node l0 r0).trace m (.node l r) (a ++ b) =
      ((((Tree.node l0 r0).trace m (.node l r) a).1 ++
          ((Tree.node l0 r0).trace (m - ((Tree.node l0 r0).trace m (.node l r) a).1.length)
            ((Tree.node l0 r0).trace m (.node l r) a).2 b).1),
        ((Tree.node l0 r0).trace (m - ((Tree.node l0 r0).trace m (.node l r) a).1.length)
          ((Tree.node l0 r0).trace m (.node l r) a).2 b).2) := by
  induction a generalizing m l r with
  | nil => simp [trace_nil]
  | cons bit a ih =>
    cases m with
    | zero => simp [trace_zero]
    | succ m =>
      simp only [List.cons_append, trace]
      split
      · simp only [ih, List.cons_append, List.length_cons, Nat.add_sub_add_right]
      · simp only [ih]

/-- The bits of one payload byte: what is decoded is emitted. -/
theorem walkBits_ok (at' : Nat) (l0 r0 : Tree) (bits : BitSeq) (m : Nat) (l r : Tree) (s : State)
    (ht : s.tree = .node l0 r0) (hm : s.origSize.toNat = s.outLen.toNat + m)
    (hw : s.outWritable s.outLen.toNat
      (s.outLen.toNat + ((Tree.node l0 r0).trace m (.node l r) bits).1.length)) :
    walkBits at' bits (.node l r) s =
      .ok ((Tree.node l0 r0).trace m (.node l r) bits).2
        (s.emitted ((Tree.node l0 r0).trace m (.node l r) bits).1) := by
  induction bits generalizing m l r s with
  | nil => simp [walkBits, Tree.trace_nil]
  | cons bit bits ih =>
    cases m with
    | zero =>
      have : s.outLen = s.origSize := BitVec.eq_of_toNat_eq (by omega)
      simp [walkBits, this, Tree.trace_zero]
    | succ m =>
      have hne : s.outLen ≠ s.origSize := fun h => by rw [h] at hm; omega
      simp only [walkBits, if_neg hne, walkBit]
      simp only [Tree.trace] at hw ⊢
      generalize (if bit = true then r else l) = ch at hw ⊢
      cases ch with
      | leaf b =>
        simp only [List.length_cons] at hw ⊢
        have hlt := s.origSize.isLt
        have hl := s.outLen_emitted [b] (by simp only [List.length_singleton]; omega)
        rw [List.length_singleton] at hl
        rw [emit_eq_emitAll, emitAll_ok [b] s fun a ha ha' => hw a (by simp at ha; omega) ha']
        simp only [Run.andThen_ok, State.emitted_tree, ht]
        have hlen := (Tree.node l0 r0).trace_length_le m (.node l0 r0) bits
        rw [ih m l0 r0 (s.emitted [b]) (by simpa using ht) (by rw [hl, State.emitted_origSize]; omega)]
        · rw [State.emitted_append _ _ _ (by simp only [List.length_singleton]; omega)]
          rfl
        · rw [hl]
          intro a ha ha'
          exact hw a (by omega) (by omega)
      | node l' r' =>
        simp only [Run.andThen_ok]
        exact ih (m + 1) l' r' s ht hm hw

/-- The loop of UNPACK from a tree that is no single leaf: it decodes what the walk of all the payload's
bits decodes, up to the symbols still needed; where that falls short it raises PayloadEof at the end. -/
theorem unpackBytes_spec (l0 r0 : Tree) (fuel pos m : Nat) (l r : Tree) (s : State) (ht : s.tree = .node l0 r0)
    (hm : s.origSize.toNat = s.outLen.toNat + m) (hpos : s.inLen.toNat = pos + fuel) (hr : s.inReadable s.inLen.toNat)
    (hw : s.outWritable s.outLen.toNat
      (s.outLen.toNat + ((Tree.node l0 r0).trace m (.node l r) ((s.inSeq pos fuel).flatMap bits8)).1.length)) :
    unpackBytes fuel pos (.node l r) s =
      if ((Tree.node l0 r0).trace m (.node l r) ((s.inSeq pos fuel).flatMap bits8)).1.length = m then
        .ok () (s.emitted ((Tree.node l0 r0).trace m (.node l r) ((s.inSeq pos fuel).flatMap bits8)).1)
      else
        .raised (faultEntry .payloadEof s.inLen
          (s.emitted ((Tree.node l0 r0).trace m (.node l r) ((s.inSeq pos fuel).flatMap bits8)).1)) := by
  have hend : BitVec.ofNat 64 s.inLen.toNat = s.inLen := by simp
  induction fuel generalizing pos m l r s with
  | zero =>
    have : pos = s.inLen.toNat := by omega
    subst this
    simp only [unpackBytes, State.inSeq, List.range_zero, List.map_nil, List.flatMap_nil, Tree.trace_nil,
      List.length_nil, State.emitted_nil, raise_eq, hend]
    by_cases h0 : m = 0
    · rw [if_neg (by omega), if_pos h0.symm]
    · rw [if_pos (by omega), if_neg (fun h => h0 h.symm)]
  | succ fuel ih =>
    simp only [unpackBytes]
    by_cases h0 : m = 0
    · subst h0
      rw [if_pos (by omega)]
      simp [Tree.trace_zero]
    · rw [if_neg (by omega), if_neg (by omega)]
      obtain ⟨h1, h2⟩ := hr pos (by omega)
      simp only [memRead_ok h1 h2, Run.andThen_ok]
      rw [State.inSeq_succ, List.flatMap_cons] at hw ⊢
      rw [Tree.trace_append] at hw ⊢
      obtain ⟨l', r', hcur⟩ := Tree.trace_node l0 r0 m l r (bits8 (s.inByte pos))
      generalize htr : (Tree.node l0 r0).trace m (.node l r) (bits8 (s.inByte pos)) = tr at hw hcur ⊢
      obtain ⟨o, cur⟩ := tr
      simp only at hcur
      subst hcur
      simp only [List.length_append] at hw ⊢
      have ho : o.length ≤ m := by
        have := (Tree.node l0 r0).trace_length_le m (.node l r) (bits8 (s.inByte pos))
        rwa [htr] at this
      have hlt := s.origSize.isLt
      have hwalk := walkBits_ok pos l0 r0 (bits8 (s.inByte pos)) m l r s ht hm (by
        rw [htr]; intro a ha ha'; exact hw a (by simp only at ha; omega) ha')
      rw [htr] at hwalk
      have hl := s.outLen_emitted o (by omega)
      simp only [hwalk, Run.andThen_ok]
      have htail := (Tree.node l0 r0).trace_length_le (m - o.length) (.node l' r')
        ((s.inSeq (pos + 1) fuel).flatMap bits8)
      refine (ih (pos + 1) (m - o.length) l' r' (s.emitted o) (by simpa using ht)
        (by rw [hl, State.emitted_origSize]; omega) (by rw [State.emitted_inLen]; omega)
        (fun a ha => hr a ha) (by
          rw [hl, State.emitted_inSeq]
          intro a ha ha'
          exact hw a (by omega) (by omega)) (by simp)).trans ?_
      by_cases he : ((Tree.node l0 r0).trace (m - o.length) (.node l' r')
        ((s.inSeq (pos + 1) fuel).flatMap bits8)).1.length = m - o.length
      · refine (if_pos he).trans ?_
        rw [if_pos (by omega), State.emitted_inSeq, State.emitted_append _ _ _ (by omega)]
      · refine (if_neg he).trans ?_
        rw [if_neg (by omega), State.emitted_inSeq, State.emitted_append _ _ _ (by omega), State.emitted_inLen]

/-- The bits of one payload byte, where an OUT address cannot be written for a symbol they decode: IoWrite there,
the symbols before it emitted (R218). -/
theorem walkBits_ioWrite (at' : Nat) (l0 r0 : Tree) (bits : BitSeq) (m w : Nat) (l r : Tree) (s : State)
    (ht : s.tree = .node l0 r0) (hm : s.origSize.toNat = s.outLen.toNat + m)
    (hw : s.outWritable s.outLen.toNat (s.outLen.toNat + w))
    (hbad : s.platform.outCap.toNat ≤ s.outLen.toNat + w ∨ s.outLen.toNat + w ∈ s.platform.outFault)
    (hlt : w < ((Tree.node l0 r0).trace m (.node l r) bits).1.length) :
    walkBits at' bits (.node l r) s = .raised (faultEntry .ioWrite (BitVec.ofNat 64 (s.outLen.toNat + w))
      (s.emitted (((Tree.node l0 r0).trace m (.node l r) bits).1.take w))) := by
  induction bits generalizing m w l r s with
  | nil => simp [Tree.trace_nil] at hlt
  | cons bit bits ih =>
    cases m with
    | zero => simp [Tree.trace_zero] at hlt
    | succ m =>
      have hne : s.outLen ≠ s.origSize := fun h => by rw [h] at hm; omega
      simp only [walkBits, if_neg hne, walkBit]
      simp only [Tree.trace] at hlt ⊢
      generalize (if bit = true then r else l) = ch at hlt ⊢
      cases ch with
      | leaf b =>
        simp only [List.length_cons] at hlt ⊢
        rw [emit_eq_emitAll]
        cases w with
        | zero => rw [emitAll_fault (by simp) hw hbad]; simp
        | succ w =>
          have hlen := (Tree.node l0 r0).trace_length_le m (.node l0 r0) bits
          have hlo := s.origSize.isLt
          have hl := s.outLen_emitted [b] (by simp only [List.length_singleton]; omega)
          rw [List.length_singleton] at hl
          have hsum : s.outLen.toNat + (w + 1) = s.outLen.toNat + 1 + w := by omega
          rw [emitAll_ok [b] s fun a ha ha' => hw a (by simp at ha; omega) ha']
          simp only [Run.andThen_ok, State.emitted_tree, ht]
          rw [ih m w l0 r0 (s.emitted [b]) (by simpa using ht) (by rw [hl, State.emitted_origSize]; omega)
            (by rw [hl]; intro a ha ha'; exact hw a (by omega) (by omega))
            (by rw [hl, State.emitted_platform, ← hsum]; exact hbad) (by omega), hl, ← hsum,
            State.emitted_append _ _ _ (by simp only [List.length_singleton]; omega)]
          rfl
      | node l' r' =>
        simp only [Run.andThen_ok]
        exact ih (m + 1) w l' r' s ht hm hw hbad hlt

/-- After `j` readable payload bytes that decode to fewer symbols than are needed, the symbols are emitted and the
loop goes on from the next byte. -/
theorem unpackBytes_prefix (l0 r0 : Tree) (j fuel pos m : Nat) (l r : Tree) (s : State) (ht : s.tree = .node l0 r0)
    (hm : s.origSize.toNat = s.outLen.toNat + m) (hj : j ≤ fuel) (hpos : s.inLen.toNat = pos + fuel)
    (hr : ∀ x, pos ≤ x → x < pos + j → x < s.platform.inCap.toNat ∧ x ∉ s.platform.inFault)
    {out : ByteSeq} {cur : Tree}
    (hout : (Tree.node l0 r0).trace m (.node l r) ((s.inSeq pos j).flatMap bits8) = (out, cur)) (hlt : out.length < m)
    (hw : s.outWritable s.outLen.toNat (s.outLen.toNat + out.length)) :
    unpackBytes fuel pos (.node l r) s = unpackBytes (fuel - j) (pos + j) cur (s.emitted out) := by
  induction j generalizing fuel pos m l r s out with
  | zero =>
    simp only [State.inSeq, List.range_zero, List.map_nil, List.flatMap_nil, Tree.trace_nil, Prod.mk.injEq] at hout
    obtain ⟨rfl, rfl⟩ := hout
    simp
  | succ j ih =>
    obtain ⟨fuel, rfl⟩ : ∃ f, fuel = f + 1 := ⟨fuel - 1, by omega⟩
    obtain ⟨h1, h2⟩ := hr pos (Nat.le_refl _) (by omega)
    simp only [unpackBytes]
    rw [if_neg (by omega), if_neg (by omega), memRead_ok h1 h2, Run.andThen_ok]
    rw [State.inSeq_succ, List.flatMap_cons, Tree.trace_append] at hout
    obtain ⟨l', r', hcur⟩ := Tree.trace_node l0 r0 m l r (bits8 (s.inByte pos))
    generalize htr : (Tree.node l0 r0).trace m (.node l r) (bits8 (s.inByte pos)) = tr at hout hcur
    obtain ⟨o, c⟩ := tr
    simp only at hcur hout
    subst hcur
    generalize hrest : (Tree.node l0 r0).trace (m - o.length) (.node l' r') ((s.inSeq (pos + 1) j).flatMap bits8) = tr'
      at hout
    obtain ⟨o', c'⟩ := tr'
    simp only [Prod.mk.injEq] at hout
    obtain ⟨rfl, rfl⟩ := hout
    simp only [List.length_append] at hlt hw
    have hlo := s.origSize.isLt
    have hl := s.outLen_emitted o (by omega)
    rw [walkBits_ok pos l0 r0 _ m l r s ht hm (by rw [htr]; intro a ha ha'; exact hw a (by simp only at ha; omega) ha'),
      htr, Run.andThen_ok, ih fuel (pos + 1) (m - o.length) l' r' (s.emitted o) (by simpa using ht)
        (by rw [hl, State.emitted_origSize]; omega) (by omega) (by rw [State.emitted_inLen]; omega)
        (fun x hx hx' => hr x (by omega) (by omega)) hrest (by omega)
        (by rw [hl]; intro a ha ha'; exact hw a (by omega) (by omega)),
      State.emitted_append _ _ _ (by omega), show fuel + 1 - (j + 1) = fuel - j by omega,
      show pos + (j + 1) = pos + 1 + j by omega]

/-- A payload byte that is needed and cannot be read raises IoRead there (R217). -/
theorem unpackBytes_ioRead {fuel pos : Nat} {cur : Tree} {s : State} (hf : 0 < fuel)
    (hlt : s.outLen.toNat < s.origSize.toNat) (hpos : pos < s.inLen.toNat)
    (hbad : s.platform.inCap.toNat ≤ pos ∨ pos ∈ s.platform.inFault) :
    unpackBytes fuel pos cur s = .raised (faultEntry .ioRead (BitVec.ofNat 64 pos) s) := by
  obtain ⟨fuel, rfl⟩ : ∃ f, fuel = f + 1 := ⟨fuel - 1, by omega⟩
  rw [unpackBytes, if_neg (not_not.mpr hlt), if_neg (not_not.mpr hpos), memRead_fault hbad, Run.andThen_raised]

/-- Where an OUT address cannot be written for a symbol that `j` readable payload bytes decode: IoWrite there, the
symbols before it emitted (R218). -/
theorem unpackBytes_ioWrite (l0 r0 : Tree) (j fuel pos m w : Nat) (l r : Tree) (s : State) (ht : s.tree = .node l0 r0)
    (hm : s.origSize.toNat = s.outLen.toNat + m) (hj : j ≤ fuel) (hpos : s.inLen.toNat = pos + fuel)
    (hr : ∀ x, pos ≤ x → x < pos + j → x < s.platform.inCap.toNat ∧ x ∉ s.platform.inFault)
    (hw : s.outWritable s.outLen.toNat (s.outLen.toNat + w))
    (hbad : s.platform.outCap.toNat ≤ s.outLen.toNat + w ∨ s.outLen.toNat + w ∈ s.platform.outFault)
    (hlt : w < ((Tree.node l0 r0).trace m (.node l r) ((s.inSeq pos j).flatMap bits8)).1.length) :
    unpackBytes fuel pos (.node l r) s = .raised (faultEntry .ioWrite (BitVec.ofNat 64 (s.outLen.toNat + w))
      (s.emitted (((Tree.node l0 r0).trace m (.node l r) ((s.inSeq pos j).flatMap bits8)).1.take w))) := by
  induction j generalizing fuel pos m w l r s with
  | zero => simp [State.inSeq, Tree.trace_nil] at hlt
  | succ j ih =>
    obtain ⟨fuel, rfl⟩ : ∃ f, fuel = f + 1 := ⟨fuel - 1, by omega⟩
    obtain ⟨h1, h2⟩ := hr pos (Nat.le_refl _) (by omega)
    have hmw := (Tree.node l0 r0).trace_length_le m (.node l r) ((s.inSeq pos (j + 1)).flatMap bits8)
    simp only [unpackBytes]
    rw [if_neg (by omega), if_neg (by omega), memRead_ok h1 h2, Run.andThen_ok]
    rw [State.inSeq_succ, List.flatMap_cons, Tree.trace_append] at hlt hmw ⊢
    obtain ⟨l', r', hcur⟩ := Tree.trace_node l0 r0 m l r (bits8 (s.inByte pos))
    generalize htr : (Tree.node l0 r0).trace m (.node l r) (bits8 (s.inByte pos)) = tr at hlt hmw hcur ⊢
    obtain ⟨o, c⟩ := tr
    simp only at hcur hlt hmw ⊢
    subst hcur
    by_cases ho : w < o.length
    · rw [walkBits_ioWrite pos l0 r0 _ m w l r s ht hm hw hbad (by rw [htr]; exact ho), htr, Run.andThen_raised,
        List.take_append_of_le_length (by omega)]
    · simp only [List.length_append] at hlt hmw
      have hlo := s.origSize.isLt
      have hl := s.outLen_emitted o (by omega)
      have hsum : s.outLen.toNat + w = s.outLen.toNat + o.length + (w - o.length) := by omega
      rw [walkBits_ok pos l0 r0 _ m l r s ht hm (by
          rw [htr]; intro a ha ha'; exact hw a (by simp only at ha; omega) ha'), htr, Run.andThen_ok,
        ih fuel (pos + 1) (m - o.length) (w - o.length) l' r' (s.emitted o) (by simpa using ht)
          (by rw [hl, State.emitted_origSize]; omega) (by omega) (by rw [State.emitted_inLen]; omega)
          (fun x hx hx' => hr x (by omega) (by omega))
          (by rw [hl, ← hsum]; intro a ha ha'; exact hw a (by omega) (by omega))
          (by rw [hl, ← hsum]; exact hbad) (by rw [State.emitted_inSeq]; omega),
        hl, ← hsum, State.emitted_append _ _ _ (by omega), State.emitted_inSeq, List.take_append,
        List.take_of_length_le (l := o) (by omega)]

/-- A whole code from a node decodes its leaf and goes on at the root. -/
theorem Tree.trace_path (root : Tree) (m : Nat) (cur : Tree) {x : Byte × BitSeq} (rest : BitSeq) :
    (∃ l r, cur = .node l r) → x ∈ cur.paths →
    root.trace (m + 1) cur (x.2 ++ rest) = (x.1 :: (root.trace m root rest).1, (root.trace m root rest).2) := by
  induction cur generalizing x with
  | leaf => rintro ⟨l, r, h⟩; exact absurd h (by simp)
  | node l r ihl ihr =>
    intro _ hx
    rw [paths_node] at hx
    simp only [List.mem_append, List.mem_map] at hx
    rcases hx with ⟨y, hy, rfl⟩ | ⟨y, hy, rfl⟩
    · cases l with
      | leaf b =>
        simp only [paths, pathsFrom, List.mem_singleton] at hy
        subst hy
        simp [trace]
      | node l' r' => simpa [trace] using ihl ⟨l', r', rfl⟩ hy
    · cases r with
      | leaf b =>
        simp only [paths, pathsFrom, List.mem_singleton] at hy
        subst hy
        simp [trace]
      | node l' r' => simpa [trace] using ihr ⟨l', r', rfl⟩ hy

/-- Codes of leaves decode to the leaves (R105, R161). -/
theorem Tree.trace_paths (l r : Tree) (ps : List (Byte × BitSeq)) (k : Nat) (rest : BitSeq)
    (h : ∀ x ∈ ps, x ∈ (Tree.node l r).paths) :
    (Tree.node l r).trace (ps.length + k) (.node l r) (ps.flatMap Prod.snd ++ rest) =
      (ps.map Prod.fst ++ ((Tree.node l r).trace k (.node l r) rest).1,
        ((Tree.node l r).trace k (.node l r) rest).2) := by
  induction ps with
  | nil => simp
  | cons x ps ih =>
    rw [List.flatMap_cons, List.append_assoc, List.length_cons, show ps.length + 1 + k = ps.length + k + 1 by omega,
      Tree.trace_path _ _ _ _ ⟨l, r, rfl⟩ (h x (List.mem_cons_self ..)),
      ih fun y hy => h y (List.mem_cons_of_mem _ hy)]
    rfl

/-- Bits that no whole code begins decode nothing. -/
theorem Tree.trace_short (root : Tree) (m : Nat) (cur : Tree) (bits : BitSeq) (hn : ∃ l r, cur = .node l r)
    (h : ∀ x ∈ cur.paths, ¬ x.2 <+: bits) : (root.trace m cur bits).1 = [] := by
  induction bits generalizing cur with
  | nil => simp [trace_nil]
  | cons bit bits ih =>
    obtain ⟨l, r, rfl⟩ := hn
    cases m with
    | zero => simp [trace_zero]
    | succ m =>
      simp only [trace]
      have hsub : ∀ y ∈ (if bit then r else l).paths, ¬ y.2 <+: bits := by
        intro y hy hp
        refine h (y.1, bit :: y.2) ?_ (by simpa [List.cons_prefix_cons] using hp)
        rw [paths_node]
        cases bit
        · exact List.mem_append_left _ (List.mem_map.mpr ⟨y, hy, rfl⟩)
        · exact List.mem_append_right _ (List.mem_map.mpr ⟨y, hy, rfl⟩)
      split
      · rename_i b hb
        rw [hb] at hsub
        exact absurd (List.nil_prefix) (hsub (b, []) (by simp [paths, pathsFrom]))
      · rename_i l' r' hb
        rw [hb] at hsub
        exact ih (.node l' r') ⟨l', r', rfl⟩ hsub

/-! ### The copies of TSER and HPARSE (R139, R173) -/

theorem getElem_overwrite {n : Nat} (k : Nat) (bs : ByteSeq) (v : Vector Byte n) (j : Nat) (hj : j < n) :
    (overwrite k bs v)[j] = if k ≤ j ∧ j < k + bs.length then bs.getD (j - k) 0 else v[j] := by
  induction bs generalizing k v with
  | nil => simp only [overwrite, List.length_nil]; rw [if_neg (by omega)]
  | cons b bs ih =>
    simp only [overwrite, ih, List.length_cons, Vector.getElem_setIfInBounds]
    by_cases h : k = j
    · subst h; simp
    · by_cases h' : k + 1 ≤ j ∧ j < k + 1 + bs.length
      · rw [if_pos h', if_pos (by omega), show j - k = (j - (k + 1)) + 1 by omega]
        simp
      · rw [if_neg h', if_neg h, if_neg (by omega)]

/-- All a copy to SHAPE can do: copy every byte, or raise IoRead. -/
theorem loadShape_cases (n k a : Nat) (s : State) :
    ((∀ x, a ≤ x → x < a + n → x < s.platform.inCap.toNat ∧ x ∉ s.platform.inFault) ∧
      loadShape n k a s = .ok () { s with shape := overwrite k (s.inSeq a n) s.shape }) ∨
    ∃ j < n, (s.platform.inCap.toNat ≤ a + j ∨ a + j ∈ s.platform.inFault) ∧
      loadShape n k a s = .raised (faultEntry .ioRead (BitVec.ofNat 64 (a + j))
        { s with shape := overwrite k (s.inSeq a j) s.shape }) := by
  induction n generalizing k a s with
  | zero => exact .inl ⟨fun x _ _ => by omega, rfl⟩
  | succ n ih =>
    rcases memRead_cases a s with ⟨h1, h2, h⟩ | ⟨h1, h⟩
    · simp only [loadShape, h, Run.andThen_ok]
      rcases ih (k + 1) (a + 1) { s with shape := s.shape.setIfInBounds k (s.inByte a) } with
        ⟨hr, he⟩ | ⟨j, hj, hbad, he⟩
      · refine .inl ⟨fun x hx hx' => ?_, ?_⟩
        · rcases Nat.eq_or_lt_of_le hx with rfl | hx
          · exact ⟨h1, h2⟩
          · exact hr x (by omega) (by omega)
        · rw [he, State.inSeq_succ]; rfl
      · refine .inr ⟨j + 1, by omega, ?_, ?_⟩
        · rw [show a + (j + 1) = a + 1 + j by omega]; exact hbad
        · rw [he, State.inSeq_succ, show a + (j + 1) = a + 1 + j by omega]; rfl
    · exact .inr ⟨0, by omega, by simpa using h1, by simp only [loadShape, h, Run.andThen_raised]; rfl⟩

/-- A copy to SHAPE that meets an address it cannot read: the bytes before it are copied (R217). -/
theorem loadShape_fault {j n k a : Nat} {s : State} (hj : j < n)
    (hr : ∀ x, a ≤ x → x < a + j → x < s.platform.inCap.toNat ∧ x ∉ s.platform.inFault)
    (hbad : s.platform.inCap.toNat ≤ a + j ∨ a + j ∈ s.platform.inFault) :
    loadShape n k a s = .raised (faultEntry .ioRead (BitVec.ofNat 64 (a + j))
      { s with shape := overwrite k (s.inSeq a j) s.shape }) := by
  induction j generalizing n k a s with
  | zero =>
    obtain ⟨n, rfl⟩ : ∃ m, n = m + 1 := ⟨n - 1, by omega⟩
    simp only [Nat.add_zero] at hbad ⊢
    rw [loadShape, memRead_fault hbad, Run.andThen_raised]
    rfl
  | succ j ih =>
    obtain ⟨n, rfl⟩ : ∃ m, n = m + 1 := ⟨n - 1, by omega⟩
    obtain ⟨h1, h2⟩ := hr a (Nat.le_refl a) (by omega)
    rw [show a + (j + 1) = a + 1 + j by omega] at hbad ⊢
    rw [loadShape, memRead_ok h1 h2, Run.andThen_ok, State.inSeq_succ]
    exact ih (s := { s with shape := s.shape.setIfInBounds k (s.inByte a) }) (by omega)
      (fun x hx hx' => hr x (by omega) (by omega)) hbad

/-- All a copy to LEAVES can do: copy every byte, or raise IoRead. -/
theorem loadLeaves_cases (n k a : Nat) (s : State) :
    ((∀ x, a ≤ x → x < a + n → x < s.platform.inCap.toNat ∧ x ∉ s.platform.inFault) ∧
      loadLeaves n k a s = .ok () { s with leaves := overwrite k (s.inSeq a n) s.leaves }) ∨
    ∃ j < n, (s.platform.inCap.toNat ≤ a + j ∨ a + j ∈ s.platform.inFault) ∧
      loadLeaves n k a s = .raised (faultEntry .ioRead (BitVec.ofNat 64 (a + j))
        { s with leaves := overwrite k (s.inSeq a j) s.leaves }) := by
  induction n generalizing k a s with
  | zero => exact .inl ⟨fun x _ _ => by omega, rfl⟩
  | succ n ih =>
    rcases memRead_cases a s with ⟨h1, h2, h⟩ | ⟨h1, h⟩
    · simp only [loadLeaves, h, Run.andThen_ok]
      rcases ih (k + 1) (a + 1) { s with leaves := s.leaves.setIfInBounds k (s.inByte a) } with
        ⟨hr, he⟩ | ⟨j, hj, hbad, he⟩
      · refine .inl ⟨fun x hx hx' => ?_, ?_⟩
        · rcases Nat.eq_or_lt_of_le hx with rfl | hx
          · exact ⟨h1, h2⟩
          · exact hr x (by omega) (by omega)
        · rw [he, State.inSeq_succ]; rfl
      · refine .inr ⟨j + 1, by omega, ?_, ?_⟩
        · rw [show a + (j + 1) = a + 1 + j by omega]; exact hbad
        · rw [he, State.inSeq_succ, show a + (j + 1) = a + 1 + j by omega]; rfl
    · exact .inr ⟨0, by omega, by simpa using h1, by simp only [loadLeaves, h, Run.andThen_raised]; rfl⟩

/-- A copy to LEAVES that meets an address it cannot read: the bytes before it are copied (R217). -/
theorem loadLeaves_fault {j n k a : Nat} {s : State} (hj : j < n)
    (hr : ∀ x, a ≤ x → x < a + j → x < s.platform.inCap.toNat ∧ x ∉ s.platform.inFault)
    (hbad : s.platform.inCap.toNat ≤ a + j ∨ a + j ∈ s.platform.inFault) :
    loadLeaves n k a s = .raised (faultEntry .ioRead (BitVec.ofNat 64 (a + j))
      { s with leaves := overwrite k (s.inSeq a j) s.leaves }) := by
  induction j generalizing n k a s with
  | zero =>
    obtain ⟨n, rfl⟩ : ∃ m, n = m + 1 := ⟨n - 1, by omega⟩
    simp only [Nat.add_zero] at hbad ⊢
    rw [loadLeaves, memRead_fault hbad, Run.andThen_raised]
    rfl
  | succ j ih =>
    obtain ⟨n, rfl⟩ : ∃ m, n = m + 1 := ⟨n - 1, by omega⟩
    obtain ⟨h1, h2⟩ := hr a (Nat.le_refl a) (by omega)
    rw [show a + (j + 1) = a + 1 + j by omega] at hbad ⊢
    rw [loadLeaves, memRead_ok h1 h2, Run.andThen_ok, State.inSeq_succ]
    exact ih (s := { s with leaves := s.leaves.setIfInBounds k (s.inByte a) }) (by omega)
      (fun x hx hx' => hr x (by omega) (by omega)) hbad

end Sys2Proof.Machine
end

