-- ==== Sys2Proof/Laws/Stages.lean ====
section
/-! SUPPORT. What each stage body does, said once for every state: the state where it completes, the fault where
it raises. -/

namespace Sys2Proof.Machine

/-! ### From a stage body to its command (R187) -/

/-- `s` as a stage body finds it: DONE cleared, BUSY set, PHASE the stage's number. -/
def State.atStage (s : State) (g : Stage) : State :=
  { s with status := { s.status with done := false, busy := true, phase := g.number } }

theorem stageCommand_ok {g : Stage} {body : State → Run Unit} {s t : State} (h : body (s.atStage g) = .ok () t) :
    runCommand (runStage g body) s =
      .next { t with status := { t.status with phase := 0, busy := false, done := true } } := runCommand_ok h

theorem stageCommand_raised {g : Stage} {body : State → Run Unit} {s t : State} (h : body (s.atStage g) = .raised t) :
    runCommand (runStage g body) s = .next t := runCommand_raised h

/-! ### FSCAN -/

/-- The frequency table of a byte sequence (R117). -/
def freqTable (d : ByteSeq) : Vector Word64 256 := Vector.ofFn fun k => BitVec.ofNat 64 (d.count (BitVec.ofNat 8 k.val))

theorem State.counted_eq (s : State) : s.counted = { s with freq := freqTable s.source } := rfl

theorem State.freqOf_freqTable (s : State) (d : ByteSeq) (b : Byte) :
    ({ s with freq := freqTable d } : State).freqOf b = BitVec.ofNat 64 (d.count b) := by
  simp [freqOf, freqTable]

/-- The count of a byte in the source fits a counter (R22). -/
theorem State.count_source_lt (s : State) (b : Byte) : s.source.count b < 2 ^ 64 := by
  have h1 := List.count_le_length (l := s.source) (a := b)
  have h2 : s.source.length = s.inLen.toNat := by simp [source]
  have := s.inLen.isLt
  omega

theorem State.toNat_freqOf_counted (s : State) (b : Byte) : (s.counted.freqOf b).toNat = s.source.count b := by
  rw [counted_eq, freqOf_freqTable, BitVec.toNat_ofNat, Nat.mod_eq_of_lt (s.count_source_lt b)]

/-- The counts of the source sum to IN_LEN (R117). -/
theorem State.total_counted (s : State) : s.counted.total = s.inLen.toNat := by
  have hlen : s.source.length = s.inLen.toNat := by simp [source]
  rw [total, sum_range_eq fun b => (s.counted.freqOf b).toNat,
    List.map_congr_left fun b _ => s.toNat_freqOf_counted b, sum_count, hlen]

/-- Counting from cleared counters gives the table. -/
theorem State.countSeq_cleared (s : State) (d : ByteSeq) :
    ({ s with freq := Vector.replicate 256 0 } : State).countSeq d = { s with freq := freqTable d } := by
  rw [countSeq_eq]
  have h : ∀ b, (({ s with freq := Vector.replicate 256 0 } : State).countSeq d).freqOf b = BitVec.ofNat 64 (d.count b) := by
    intro b
    rw [freqOf_countSeq]
    simp [freqOf]
  have : (({ s with freq := Vector.replicate 256 0 } : State).countSeq d).freq = freqTable d := by
    apply Vector.ext
    intro k hk
    have := h (BitVec.ofNat 8 k)
    simp only [freqOf, BitVec.toNat_ofNat, show k % 2 ^ 8 = k by omega] at this
    rw [this, freqTable, Vector.getElem_ofFn]
  rw [this]

/-- All FSCAN's body can do: count the source, or raise IoRead at the first source address that cannot be
read, the bytes before it counted. -/
theorem stageFscan_cases (s : State) :
    (s.inReadable s.inLen.toNat ∧ stageFscan s = .ok ()
      { s with
        freq := freqTable s.source
        origSize := s.inLen
        status := Stage.sets .fscan (Stage.clears .fscan s.status) }) ∨
    ∃ a < s.inLen.toNat, s.inReadable a ∧ (s.platform.inCap.toNat ≤ a ∨ a ∈ s.platform.inFault) ∧
      stageFscan s = .raised (faultEntry .ioRead (BitVec.ofNat 64 a)
        { s with freq := freqTable (s.inSeq 0 a), status := Stage.clears .fscan s.status }) := by
  have hopen : openStage .fscan s = .ok () { s with status := Stage.clears .fscan s.status } := rfl
  simp only [stageFscan, hopen, Run.andThen_ok]
  rcases scanBytes_cases s.inLen.toNat 0
    { s with status := Stage.clears .fscan s.status, freq := Vector.replicate 256 0 } with
    ⟨hr, he⟩ | ⟨k, hk, hbad, hr, he⟩
  · refine .inl ⟨fun a ha => hr a (by omega) (by omega), ?_⟩
    refine (congrArg (fun r => Run.andThen r _) he).trans ?_
    exact congrArg (fun u => closeStage .fscan { u with origSize := u.inLen })
      (State.countSeq_cleared { s with status := Stage.clears .fscan s.status } _)
  · rw [Nat.zero_add] at hbad hr he
    refine .inr ⟨k, hk, fun a ha => hr a (by omega) ha, hbad, ?_⟩
    refine (congrArg (fun r => Run.andThen r _) he).trans ?_
    exact congrArg (fun u => Run.raised (faultEntry .ioRead (BitVec.ofNat 64 k) u))
      (State.countSeq_cleared { s with status := Stage.clears .fscan s.status } _)

/-! ### TBUILD, CBUILD, TSER, TDES -/

theorem State.symbols_congr {s s' : State} (h : s.freq = s'.freq) : s.symbols = s'.symbols := by
  have hf : ∀ b, s.freqOf b = s'.freqOf b := fun b => by simp only [freqOf, h]
  simp only [symbols, hf]

theorem State.weight_congr {s s' : State} (h : s.freq = s'.freq) (t : Tree) : s.weight t = s'.weight t := by
  induction t with
  | leaf b => simp only [weight, freqOf, h]
  | node l r ihl ihr => simp only [weight, ihl, ihr]

/-- All TBUILD's body can do (R121). -/
theorem stageTbuild_cases (s : State) :
    (s.status.freqV = false ∧ stageTbuild s = .raised (faultEntry .sequence 0x11 s)) ∨
    (s.status.freqV = true ∧ s.distinct < 2 ∧
      stageTbuild s = .raised (faultEntry .insufficientAlphabet (BitVec.ofNat 64 s.distinct)
        { s with status := Stage.clears .tbuild s.status })) ∨
    (s.status.freqV = true ∧ 2 ≤ s.distinct ∧ ∃ t, s.builtTree = some t ∧ stageTbuild s = .ok ()
      { s with tree := t, status := Stage.sets .tbuild (Stage.clears .tbuild s.status) }) := by
  cases hf : s.status.freqV with
  | false => exact .inl ⟨rfl, by simp only [stageTbuild]; rw [openStage_fault (g := .tbuild) (s := s) hf]; rfl⟩
  | true =>
    right
    simp only [stageTbuild]
    rw [openStage_ok (g := .tbuild) (s := s) hf, Run.andThen_ok]
    have hsym : ({ s with status := Stage.clears .tbuild s.status } : State).symbols = s.symbols :=
      State.symbols_congr rfl
    have hbt : ({ s with status := Stage.clears .tbuild s.status } : State).builtTree = s.builtTree :=
      State.builtTree_congr rfl
    rw [hsym, hbt, s.length_symbols]
    by_cases hd : s.distinct < 2
    · exact .inl ⟨trivial, hd, (if_pos hd).trans rfl⟩
    · obtain ⟨t, ht, _⟩ := s.builtTree_spec (by rw [s.length_symbols]; omega)
      refine .inr ⟨trivial, by omega, t, ht, (if_neg hd).trans ?_⟩
      rw [ht]
      rfl

/-- CBUILD's body with a tree (R131). -/
theorem stageCbuild_ok {s : State} (h : s.status.treeV = true) :
    stageCbuild s = .ok ()
      { s with code := codeTable s.tree, status := Stage.sets .cbuild (Stage.clears .cbuild s.status) } := by
  simp only [stageCbuild]
  rw [openStage_ok (g := .cbuild) (s := s) h]
  rfl

theorem stageCbuild_sequence {s : State} (h : s.status.treeV = false) :
    stageCbuild s = .raised (faultEntry .sequence 0x12 s) := by
  simp only [stageCbuild]
  rw [openStage_fault (g := .cbuild) (s := s) h]
  rfl

/-- `s` with the serialization of its tree in SHAPE, LEAVES and the three lengths (R139). -/
def State.serialized (s : State) : State :=
  { s with
    shape := overwrite 0 (pack s.tree.shapeBits) s.shape
    leaves := overwrite 0 s.tree.leaves s.leaves
    shapeBitLen := BitVec.ofNat 16 s.tree.shapeBits.length
    shapeByteLen := BitVec.ofNat 16 (pack s.tree.shapeBits).length
    leafCount := BitVec.ofNat 16 s.tree.leaves.length }

/-- TSER's body with a tree (R139). -/
theorem stageTser_ok {s : State} (h : s.status.treeV = true) :
    stageTser s = .ok ()
      { s.serialized with status := Stage.sets .tser (Stage.clears .tser s.status) } := by
  simp only [stageTser]
  rw [openStage_ok (g := .tser) (s := s) h]
  rfl

theorem stageTser_sequence {s : State} (h : s.status.treeV = false) :
    stageTser s = .raised (faultEntry .sequence 0x13 s) := by
  simp only [stageTser]
  rw [openStage_fault (g := .tser) (s := s) h]
  rfl

theorem bits8_getElem (b : Byte) (i : Nat) (h : i < 8) : (bits8 b)[i]'(by simpa using h) = b.getLsbD (7 - i) := by
  have : i = 0 ∨ i = 1 ∨ i = 2 ∨ i = 3 ∨ i = 4 ∨ i = 5 ∨ i = 6 ∨ i = 7 := by omega
  rcases this with rfl | rfl | rfl | rfl | rfl | rfl | rfl | rfl <;> rfl

/-- Bit i of a byte sequence is bit `7 - i mod 8` of its byte `i div 8` (R11). -/
theorem getElem_flatMap_bits8 (bs : ByteSeq) (i : Nat) (h : i / 8 < bs.length) :
    (bs.flatMap bits8)[i]? = some (bs[i / 8].getLsbD (7 - i % 8)) := by
  induction bs generalizing i with
  | nil => simp at h
  | cons b bs ih =>
    rw [List.flatMap_cons]
    by_cases hi : i < 8
    · rw [List.getElem?_append_left (by simpa using hi), List.getElem?_eq_getElem (by simpa using hi),
        bits8_getElem b i hi]
      simp [show i / 8 = 0 by omega, show i % 8 = i by omega]
    · obtain ⟨j, rfl⟩ : ∃ j, i = j + 8 := ⟨i - 8, by omega⟩
      simp only [List.length_cons] at h
      rw [List.getElem?_append_right (by simp), length_bits8, Nat.add_sub_cancel, ih j (by omega)]
      simp [show (j + 8) / 8 = j / 8 + 1 by omega]

/-- SHAPE bits are the bits of the bytes of SHAPE. -/
theorem State.shapeBit_of_bytes {s : State} {bs : ByteSeq} (h : ∀ k (hk : k < bs.length), s.shapeByte k = bs[k])
    (i : Nat) (hi : i / 8 < bs.length) : (bs.flatMap bits8)[i]? = some (s.shapeBit i) := by
  rw [getElem_flatMap_bits8 bs i hi, shapeBit, h _ hi]

/-- SHAPE after a copy to its first bytes. -/
theorem State.shapeByte_overwrite (s : State) (bs : ByteSeq) (v : Vector Byte 64) (hv : s.shape = overwrite 0 bs v)
    (hl : bs.length ≤ 64) (k : Nat) :
    s.shapeByte k = if h : k < bs.length then bs[k] else (v[k]?).getD (Config.beyondBuffer k) := by
  by_cases hk : k < 64
  · simp only [shapeByte, hv, Vector.getElem?_eq_getElem hk, Option.getD_some, getElem_overwrite]
    by_cases hk' : k < bs.length
    · rw [dif_pos hk', if_pos (by omega)]
      simp [List.getElem?_eq_getElem hk']
    · rw [dif_neg hk', if_neg (by omega)]
  · rw [dif_neg (by omega)]
    simp [shapeByte, hk]

/-- LEAVES after a copy to its first bytes. -/
theorem State.leafByte_overwrite (s : State) (bs : ByteSeq) (v : Vector Byte 256) (hv : s.leaves = overwrite 0 bs v)
    (hl : bs.length ≤ 256) (k : Nat) :
    s.leafByte k = if h : k < bs.length then bs[k] else (v[k]?).getD (Config.beyondBuffer k) := by
  by_cases hk : k < 256
  · simp only [leafByte, hv, Vector.getElem?_eq_getElem hk, Option.getD_some, getElem_overwrite]
    by_cases hk' : k < bs.length
    · rw [dif_pos hk', if_pos (by omega)]
      simp [List.getElem?_eq_getElem hk']
    · rw [dif_neg hk', if_neg (by omega)]
  · rw [dif_neg (by omega)]
    simp [leafByte, hk]

/-- Where the bytes of SHAPE are a packed bit sequence of SHAPE_BITLEN bits, the shape bits are that sequence and
the pad bits are 0. -/
theorem State.shapeSeq_of_bytes {s : State} {q : BitSeq} (hn : s.shapeBitLen.toNat = q.length)
    (hb : ∀ k (hk : k < (pack q).length), s.shapeByte k = (pack q)[k]) :
    s.shapeSeq = q ∧ ∀ i, q.length ≤ i → i < 8 * ceil8 q.length → s.shapeBit i = false := by
  have hge := ceil8_mul_ge q.length
  have hbit : ∀ i, i < 8 * ceil8 q.length →
      (q ++ zeros (8 * ceil8 q.length - q.length))[i]? = some (s.shapeBit i) := by
    intro i hi
    rw [← flatMap_bits8_pack]
    exact State.shapeBit_of_bytes hb i (by rw [length_pack]; omega)
  constructor
  · apply List.ext_getElem
    · rw [length_shapeSeq, hn]
    · intro i hi hi'
      have := hbit i (by omega)
      rw [List.getElem?_append_left hi', List.getElem?_eq_getElem hi'] at this
      simp only [shapeSeq, List.getElem_map, List.getElem_range]
      exact (Option.some.inj this).symm
  · intro i hi hi'
    have := hbit i hi'
    rw [List.getElem?_append_right hi] at this
    have h4 := (List.getElem?_eq_some_iff.mp this).2
    simpa [zeros] using h4.symm

theorem State.leafSeq_of_bytes {s : State} {bs : ByteSeq} (hn : s.leafCount.toNat = bs.length)
    (hb : ∀ k (hk : k < bs.length), s.leafByte k = bs[k]) : s.leafSeq = bs := by
  apply List.ext_getElem
  · rw [length_leafSeq, hn]
  · intro i hi hi'
    simp only [leafSeq, List.getElem_map, List.getElem_range]
    exact hb i hi'

/-- A tree within capacity has at most 511 shape bits, in at most 64 bytes (R7). -/
theorem Tree.shape_fits {t : Tree} (h : t.leaves.length ≤ Config.maxLeaves) :
    t.shapeBits.length ≤ 511 ∧ (pack t.shapeBits).length ≤ 64 := by
  have hn := t.nodes_eq
  simp only [Config.maxLeaves] at h
  rw [length_pack, length_shapeBits]
  unfold ceil8
  omega

theorem State.shapeByte_serialized (s : State) (k : Nat) (h : s.tree.leaves.length ≤ Config.maxLeaves) :
    s.serialized.shapeByte k =
      if hk : k < (pack s.tree.shapeBits).length then (pack s.tree.shapeBits)[k] else s.shapeByte k :=
  s.serialized.shapeByte_overwrite _ s.shape rfl (Tree.shape_fits h).2 k

theorem State.leafByte_serialized (s : State) (k : Nat) (h : s.tree.leaves.length ≤ Config.maxLeaves) :
    s.serialized.leafByte k = if hk : k < s.tree.leaves.length then s.tree.leaves[k] else s.leafByte k :=
  s.serialized.leafByte_overwrite _ s.leaves rfl h k

/-- What TSER leaves is the serialization of the tree, pad bits 0 (R139). -/
theorem State.serialized_spec (s : State) (h : s.tree.leaves.length ≤ Config.maxLeaves) :
    Serialized s.serialized s.tree ∧ s.serialized.shapeBitLen.toNat = s.tree.shapeBits.length ∧
      s.serialized.shapeByteLen.toNat = ceil8 s.tree.shapeBits.length ∧
      s.serialized.leafCount.toNat = s.tree.leaves.length := by
  obtain ⟨hf1, hf2⟩ := Tree.shape_fits h
  rw [length_pack] at hf2
  have h' := h
  simp only [Config.maxLeaves] at h'
  have h1 : s.serialized.shapeBitLen.toNat = s.tree.shapeBits.length := by
    simp only [serialized, BitVec.toNat_ofNat]; omega
  have h2 : s.serialized.shapeByteLen.toNat = ceil8 s.tree.shapeBits.length := by
    simp only [serialized, BitVec.toNat_ofNat, length_pack]; omega
  have h3 : s.serialized.leafCount.toNat = s.tree.leaves.length := by
    simp only [serialized, BitVec.toNat_ofNat]; omega
  obtain ⟨hs, hp⟩ := State.shapeSeq_of_bytes h1 fun k hk => by rw [s.shapeByte_serialized k h, dif_pos hk]
  refine ⟨⟨hs, ?_, by rw [h1, h2], by rwa [h1, h2]⟩, h1, h2, h3⟩
  exact State.leafSeq_of_bytes h3 fun k hk => by rw [s.leafByte_serialized k h, dif_pos hk]

/-- All TDES's body can do (R142): the outcome of des() over the whole shape, within capacity. -/
theorem stageTdes_eq {s : State} (h : s.status.serV = true) :
    stageTdes s =
      if s.shapeBitLen.toNat ≤ Config.maxShapeBits ∧ s.leafCount.toNat ≤ Config.maxLeaves then
        match des s s.shapeBitLen.toNat 0 0 with
        | .bad c info => .raised (faultEntry c (BitVec.ofNat 64 info) { s with status := Stage.clears .tdes s.status })
        | .tree t sp lp =>
          if sp = s.shapeBitLen.toNat ∧ lp = s.leafCount.toNat then
            .ok () { s with tree := t, status := Stage.sets .tdes (Stage.clears .tdes s.status) }
          else .raised (faultEntry .treeLeftover (BitVec.ofNat 64 sp) { s with status := Stage.clears .tdes s.status })
      else .raised (faultEntry .treeCapacity 0 { s with status := Stage.clears .tdes s.status }) := by
  have hdes : ∀ (fuel sp lp : Nat), des { s with status := Stage.clears .tdes s.status } fuel sp lp = des s fuel sp lp := by
    intro fuel
    induction fuel with
    | zero => intro sp lp; rfl
    | succ fuel ih => intro sp lp; simp only [des, ih]; rfl
  simp only [stageTdes]
  rw [openStage_ok (g := .tdes) (s := s) h, Run.andThen_ok]
  by_cases hcap : s.shapeBitLen.toNat ≤ Config.maxShapeBits ∧ s.leafCount.toNat ≤ Config.maxLeaves
  · rw [if_pos hcap]
    refine (if_neg (not_not.mpr hcap)).trans ?_
    rw [hdes]
    show (match des s s.shapeBitLen.toNat 0 0 with | .bad c info => _ | .tree t sp lp => _) = _
    cases des s s.shapeBitLen.toNat 0 0 with
    | bad c info => rfl
    | tree t sp lp =>
      simp only
      by_cases hu : sp = s.shapeBitLen.toNat ∧ lp = s.leafCount.toNat
      · rw [if_pos hu]
        exact (if_neg (not_not.mpr hu)).trans rfl
      · rw [if_neg hu]
        exact (if_pos hu).trans rfl
  · rw [if_neg hcap]
    exact (if_pos hcap).trans rfl

theorem stageTdes_sequence {s : State} (h : s.status.serV = false) :
    stageTdes s = .raised (faultEntry .sequence 0x21 s) := by
  simp only [stageTdes]
  rw [openStage_fault (g := .tdes) (s := s) h]
  rfl

/-- TDES on the serialization of a tree rebuilds it (R146). -/
theorem stageTdes_of_serialized {s : State} {t : Tree} (h : s.status.serV = true)
    (hcap : t.leaves.length ≤ Config.maxLeaves) (hs : s.shapeSeq = t.shapeBits) (hl : s.leafSeq = t.leaves) :
    stageTdes s = .ok () { s with tree := t, status := Stage.sets .tdes (Stage.clears .tdes s.status) } := by
  have hn := t.nodes_eq
  have hlen := t.length_shapeBits
  have h1 : s.shapeBitLen.toNat = t.nodes := by rw [← hlen, ← hs, State.length_shapeSeq]
  have h2 : s.leafCount.toNat = t.leaves.length := by rw [← hl, State.length_leafSeq]
  simp only [Config.maxLeaves] at hcap
  have hd := des_of_serialized s t 0 0 s.shapeBitLen.toNat [] [] (by omega) (by omega) (by omega)
    (by simpa using hs) (by simpa using hl)
  rw [stageTdes_eq h, if_pos ⟨by simp only [Config.maxShapeBits]; omega, by simp only [Config.maxLeaves]; omega⟩, hd]
  simp only [Nat.zero_add]
  rw [if_pos ⟨h1.symm, h2.symm⟩]

/-! ### HEMIT, PACK, UNPACK, HPARSE -/

theorem State.length_headerAndTree (s : State) :
    s.headerAndTree.length = Config.hdrBytes + s.shapeByteLen.toNat + s.leafCount.toNat := by
  simp [headerAndTree, header, Config.hdrBytes]
  omega

/-- All HEMIT's body can do (R171): its bytes emitted from address 0, or IoWrite at the first address that
cannot be written, the bytes before it emitted. -/
theorem stageHemit_cases {s : State} (hs : s.status.serV = true) (hf : s.status.freqV = true) :
    (s.outWritable 0 s.headerAndTree.length ∧ stageHemit s = .ok ()
      { ({ s with outLen := 0 } : State).emitted s.headerAndTree with
        status := Stage.sets .hemit (Stage.clears .hemit s.status) }) ∨
    ∃ n < s.headerAndTree.length, s.outWritable 0 n ∧ (s.platform.outCap.toNat ≤ n ∨ n ∈ s.platform.outFault) ∧
      stageHemit s = .raised (faultEntry .ioWrite (BitVec.ofNat 64 n)
        { ({ s with outLen := 0 } : State).emitted (s.headerAndTree.take n) with
          status := Stage.clears .hemit s.status }) := by
  simp only [stageHemit]
  rw [openStage_ok (by simp [Stage.requires, hs, hf]), Run.andThen_ok]
  have hb : ({ s with status := Stage.clears .hemit s.status } : State).headerAndTree = s.headerAndTree := rfl
  rw [hb]
  rcases emitAll_cases s.headerAndTree { s with status := Stage.clears .hemit s.status, outLen := 0 } with
    ⟨hw, he⟩ | ⟨n, hn, hw, hbad, he⟩
  · refine .inl ⟨by simpa using hw, ?_⟩
    exact (congrArg (fun r => Run.andThen r _) he).trans rfl
  · refine .inr ⟨n, hn, by simpa using hw, by simpa using hbad, ?_⟩
    have hz : ({ s with status := Stage.clears .hemit s.status, outLen := 0 } : State).outLen.toNat + n = n := by simp
    rw [hz] at he
    exact (congrArg (fun r => Run.andThen r _) he).trans rfl

theorem stageHemit_sequence {s : State} (h : s.status.serV = false ∨ s.status.freqV = false) :
    stageHemit s = .raised (faultEntry .sequence 0x14 s) := by
  simp only [stageHemit]
  rw [openStage_fault (by rcases h with h | h <;> simp [Stage.requires, h])]
  rfl

/-- PACK's body past its checks is the pack of the source (R153). -/
theorem stagePack_eq {s : State} (hc : s.status.codeV = true) (hh : s.status.hdrw = true) (hl : s.inLen = s.origSize) :
    stagePack s = packBytes s.inLen.toNat 0 [] { s with status := { s.status with hdrw := false } } := by
  simp only [stagePack]
  rw [openStage_ok (by simp [Stage.requires, hc, hh]), Run.andThen_ok]
  refine (if_neg (not_not.mpr hl)).trans ?_
  show (packBytes s.inLen.toNat 0 [] { s with status := { s.status with hdrw := false } }).andThen _ = _
  cases packBytes s.inLen.toNat 0 [] { s with status := { s.status with hdrw := false } } <;> rfl

/-- PACK's body on readable, coded source bytes into writable OUT bytes (R153, R154). -/
theorem stagePack_ok {s : State} (hc : s.status.codeV = true) (hh : s.status.hdrw = true) (hl : s.inLen = s.origSize)
    (hr : s.inReadable s.inLen.toNat) (hp : ∀ b ∈ s.source, (s.codeOf b).present = true)
    (hw : s.outWritable s.outLen.toNat (s.outLen.toNat + ceil8 (s.codeBits s.source).length)) :
    stagePack s = .ok () { s.emitted (pack (s.codeBits s.source)) with status := { s.status with hdrw := false } } := by
  rw [stagePack_eq hc hh hl]
  exact packBytes_ok s.inLen.toNat 0 [] { s with status := { s.status with hdrw := false } } (by simp)
    (fun x _ hx => hr x (by omega)) hp (by rw [List.nil_append]; exact hw)

/-- A PACK body that completes met every condition of `stagePack_ok`. -/
theorem stagePack_completes {s t : State} (h : stagePack s = .ok () t) :
    s.status.codeV = true ∧ s.status.hdrw = true ∧ s.inLen = s.origSize ∧ s.inReadable s.inLen.toNat ∧
      (∀ b ∈ s.source, (s.codeOf b).present = true) ∧
      s.outWritable s.outLen.toNat (s.outLen.toNat + ceil8 (s.codeBits s.source).length) := by
  simp only [stagePack] at h
  cases hreq : Stage.requires .pack s.status with
  | false => rw [openStage_fault hreq] at h; exact absurd h (by simp)
  | true =>
    rw [openStage_ok hreq, Run.andThen_ok] at h
    simp only [Stage.requires, Bool.and_eq_true] at hreq
    by_cases hl : s.inLen = s.origSize
    · have h' := (if_neg (not_not.mpr hl)).symm.trans h
      obtain ⟨_, u, hp, _⟩ := Run.andThen_eq_ok.mp h'
      obtain ⟨h1, h2, h3⟩ := packBytes_completes _ _ _ _ _ (by simp) hp
      exact ⟨hreq.1, hreq.2, hl, fun a ha => h1 a (by omega) (by rw [Nat.zero_add]; exact ha), h2,
        by rw [List.nil_append] at h3; exact h3⟩
    · have h' := (if_pos hl).symm.trans h
      exact absurd h' (by simp [raise_eq])

theorem stagePack_changed {s : State} (hc : s.status.codeV = true) (hh : s.status.hdrw = true)
    (hl : s.inLen ≠ s.origSize) :
    stagePack s = .raised (faultEntry .inputChanged s.inLen { s with status := { s.status with hdrw := false } }) := by
  simp only [stagePack]
  rw [openStage_ok (by simp [Stage.requires, hc, hh]), Run.andThen_ok]
  refine (if_pos hl).trans ?_
  rw [raise_eq]
  simp [Stage.clears]

theorem stagePack_sequence {s : State} (h : s.status.codeV = false ∨ s.status.hdrw = false) :
    stagePack s = .raised (faultEntry .sequence 0x15 s) := by
  simp only [stagePack]
  rw [openStage_fault (by rcases h with h | h <;> simp [Stage.requires, h])]
  rfl

/-- UNPACK's body past its check is the loop over the payload, OUT_LEN being 0 (R162). -/
theorem stageUnpack_eq {s : State} (ht : s.status.treeV = true) (hp : s.status.parsed = true) :
    stageUnpack s = unpackBytes (s.inLen.toNat - s.payloadOff.toNat) s.payloadOff.toNat s.tree { s with outLen := 0 } := by
  simp only [stageUnpack]
  rw [openStage_ok (by simp [Stage.requires, ht, hp]), Run.andThen_ok]
  show (unpackBytes (s.inLen.toNat - s.payloadOff.toNat) s.payloadOff.toNat s.tree { s with outLen := 0 }).andThen _ = _
  cases unpackBytes (s.inLen.toNat - s.payloadOff.toNat) s.payloadOff.toNat s.tree { s with outLen := 0 } <;> rfl

/-- UNPACK's body on a tree that is no single leaf (R162): what the walk over the payload's bits decodes,
up to ORIG_SIZE bytes; PayloadEof where that falls short. -/
theorem stageUnpack_node {s : State} {l r : Tree} (ht : s.status.treeV = true) (hp : s.status.parsed = true)
    (htr : s.tree = .node l r) (hpos : s.payloadOff.toNat ≤ s.inLen.toNat) (hr : s.inReadable s.inLen.toNat)
    {out : ByteSeq} (hout : ((Tree.node l r).trace s.origSize.toNat (.node l r)
      ((s.inSeq s.payloadOff.toNat (s.inLen.toNat - s.payloadOff.toNat)).flatMap bits8)).1 = out)
    (hw : s.outWritable 0 out.length) :
    stageUnpack s =
      if out.length = s.origSize.toNat then .ok () (({ s with outLen := 0 } : State).emitted out)
      else .raised (faultEntry .payloadEof s.inLen (({ s with outLen := 0 } : State).emitted out)) := by
  rw [stageUnpack_eq ht hp]
  have := unpackBytes_spec l r (s.inLen.toNat - s.payloadOff.toNat) s.payloadOff.toNat s.origSize.toNat l r
    { s with outLen := 0 } htr (by simp) (by simp; omega) hr (by
      have : ({ s with outLen := 0 } : State).inSeq = s.inSeq := rfl
      rw [this, hout]
      simpa using hw)
  have hin : ({ s with outLen := 0 } : State).inSeq = s.inSeq := rfl
  rw [hin, hout] at this
  exact (congrArg (fun t => unpackBytes (s.inLen.toNat - s.payloadOff.toNat) s.payloadOff.toNat t
    { s with outLen := 0 }) htr).trans this

theorem stageUnpack_sequence {s : State} (h : s.status.treeV = false ∨ s.status.parsed = false) :
    stageUnpack s = .raised (faultEntry .sequence 0x22 s) := by
  simp only [stageUnpack]
  rw [openStage_fault (by rcases h with h | h <;> simp [Stage.requires, h])]
  rfl

/-- `s` with the four header registers as IN spells them (R173, R95 to R99). -/
def State.withHeader (s : State) : State := setHeader (s.inSeq 0 Config.hdrBytes) { s with status := Stage.clears .hparse s.status }

/-- The four header registers hold the big-endian numbers IN spells (R95 to R99). -/
theorem State.withHeader_fields (s : State) :
    s.withHeader.origSize.toNat = ube (s.inSeq 0 8) ∧ s.withHeader.shapeBitLen.toNat = ube (s.inSeq 8 2) ∧
      s.withHeader.shapeByteLen.toNat = ube (s.inSeq 10 2) ∧ s.withHeader.leafCount.toNat = ube (s.inSeq 12 2) := by
  have h8 := ube_lt (s.inSeq 0 8)
  have hb := ube_lt (s.inSeq 8 2)
  have hB := ube_lt (s.inSeq 10 2)
  have hl := ube_lt (s.inSeq 12 2)
  rw [length_inSeq] at h8 hb hB hl
  have e1 : s.inSeq 0 14 = s.inSeq 0 8 ++ (s.inSeq 8 2 ++ (s.inSeq 10 2 ++ s.inSeq 12 2)) := by
    rw [show 14 = 8 + (2 + (2 + 2)) by rfl, inSeq_add, inSeq_add, inSeq_add]
  have d10 : ∀ x : ByteSeq, (s.inSeq 0 8 ++ (s.inSeq 8 2 ++ x)).drop 10 = x := fun x => by
    rw [← List.append_assoc, List.drop_left' (by simp)]
  have d12 : ∀ x : ByteSeq, (s.inSeq 0 8 ++ (s.inSeq 8 2 ++ (s.inSeq 10 2 ++ x))).drop 12 = x := fun x => by
    rw [← List.append_assoc, ← List.append_assoc, List.drop_left' (by simp)]
  simp only [withHeader, setHeader_origSize, setHeader_shapeBitLen, setHeader_shapeByteLen, setHeader_leafCount,
    Config.hdrBytes, e1, BitVec.toNat_ofNat]
  refine ⟨?_, ?_, ?_, ?_⟩
  · rw [List.take_left' (by simp)]; omega
  · rw [List.drop_left' (by simp), List.take_left' (by simp)]; omega
  · rw [d10, List.take_left' (by simp)]; omega
  · rw [d12, List.take_of_length_le (by simp)]; omega

/-- HPARSE's body where the fixed header can be read goes on with the checks of R173. -/
theorem stageHparse_eq {s : State} (hl : Config.hdrBytes ≤ s.inLen.toNat) (hr : s.inReadable Config.hdrBytes) :
    stageHparse s = parseTree s.withHeader := by
  have hopen : openStage .hparse s = .ok () { s with status := Stage.clears .hparse s.status } := rfl
  simp only [stageHparse, hopen, Run.andThen_ok]
  refine (if_neg (not_not.mpr hl)).trans ?_
  rw [readBytes_ok Config.hdrBytes 0 { s with status := Stage.clears .hparse s.status } fun x _ hx => hr x (by omega)]
  rfl

theorem stageHparse_short {s : State} (hl : ¬ Config.hdrBytes ≤ s.inLen.toNat) :
    stageHparse s = .raised (faultEntry .hdrEof 14 { s with status := Stage.clears .hparse s.status }) := by
  have hopen : openStage .hparse s = .ok () { s with status := Stage.clears .hparse s.status } := rfl
  simp only [stageHparse, hopen, Run.andThen_ok]
  exact (if_pos hl).trans rfl

/-- HPARSE past the checks: the copies and the flags (R173). -/
theorem parseTree_ok {s : State} (h1 : s.shapeBitLen.toNat ≤ 8 * s.shapeByteLen.toNat)
    (h2 : s.shapeBitLen.toNat ≤ Config.maxShapeBits ∧ s.leafCount.toNat ≤ Config.maxLeaves)
    (h3 : s.treeEnd ≤ s.inLen.toNat) (hr : s.inReadable s.treeEnd) :
    parseTree s = .ok ()
      { s with
        shape := overwrite 0 (s.inSeq Config.hdrBytes (ceil8 s.shapeBitLen.toNat)) s.shape
        leaves := overwrite 0 (s.inSeq (Config.hdrBytes + s.shapeByteLen.toNat) s.leafCount.toNat) s.leaves
        payloadOff := BitVec.ofNat 64 s.treeEnd
        status := Stage.sets .hparse s.status } := by
  have hc : ceil8 s.shapeBitLen.toNat ≤ s.shapeByteLen.toNat := by unfold ceil8; omega
  have hend : s.treeEnd = Config.hdrBytes + s.shapeByteLen.toNat + s.leafCount.toNat := rfl
  simp only [parseTree]
  rw [if_neg (not_not.mpr h1), if_neg (not_not.mpr h2), if_neg (not_not.mpr h3)]
  rcases loadShape_cases (ceil8 s.shapeBitLen.toNat) 0 Config.hdrBytes s with ⟨_, he⟩ | ⟨j, hj, hbad, _⟩
  swap
  · have := hr (Config.hdrBytes + j) (by omega)
    rcases hbad with h | h
    · omega
    · exact absurd h this.2
  rw [he, Run.andThen_ok]
  rcases loadLeaves_cases s.leafCount.toNat 0 (Config.hdrBytes + s.shapeByteLen.toNat)
    { s with shape := overwrite 0 (s.inSeq Config.hdrBytes (ceil8 s.shapeBitLen.toNat)) s.shape } with
    ⟨_, he⟩ | ⟨j, hj, hbad, _⟩
  · refine (congrArg (fun r => Run.andThen r _) he).trans ?_
    rfl
  · have := hr (Config.hdrBytes + s.shapeByteLen.toNat + j) (by omega)
    rcases hbad with h | h
    · have h' : s.platform.inCap.toNat ≤ Config.hdrBytes + s.shapeByteLen.toNat + j := h
      omega
    · exact absurd h this.2

/-! ### What depends on which registers -/

theorem State.distinct_congr {s s' : State} (h : s.freq = s'.freq) : s.distinct = s'.distinct := by
  rw [← s.length_symbols, ← s'.length_symbols, symbols_congr h]

theorem State.total_congr {s s' : State} (h : s.freq = s'.freq) : s.total = s'.total := by
  simp only [total, freqOf, h]

theorem State.shapeSeq_congr {s s' : State} (h : s.shape = s'.shape) (hl : s.shapeBitLen = s'.shapeBitLen) :
    s.shapeSeq = s'.shapeSeq := by
  have hb : s.shapeBit = s'.shapeBit := by funext i; simp only [shapeBit, shapeByte, h]
  simp only [shapeSeq, hb, hl]

theorem State.leafSeq_congr {s s' : State} (h : s.leaves = s'.leaves) (hl : s.leafCount = s'.leafCount) :
    s.leafSeq = s'.leafSeq := by
  have hb : s.leafByte = s'.leafByte := by funext i; simp only [leafByte, h]
  simp only [leafSeq, hb, hl]

theorem Serialized.congr {s s' : State} {t : Tree} (h : Serialized s t) (h1 : s.shape = s'.shape)
    (h2 : s.leaves = s'.leaves) (h3 : s.shapeBitLen = s'.shapeBitLen) (h4 : s.shapeByteLen = s'.shapeByteLen)
    (h5 : s.leafCount = s'.leafCount) : Serialized s' t := by
  have hb : s.shapeBit = s'.shapeBit := by funext i; simp only [State.shapeBit, State.shapeByte, h1]
  refine ⟨?_, ?_, ?_, ?_⟩
  · rw [← State.shapeSeq_congr h1 h3, h.shape]
  · rw [← State.leafSeq_congr h2 h5, h.leaves]
  · rw [← h3, ← h4, h.byteLen]
  · rw [← h3, ← h4, ← hb]; exact h.pad

theorem State.codeBits_congr {s s' : State} (h : s.code = s'.code) (d : ByteSeq) : s.codeBits d = s'.codeBits d := by
  have hc : s.codeOf = s'.codeOf := by funext b; simp only [codeOf, h]
  simp only [codeBits, hc]

/-! ### The code table of a tree with distinct leaves -/

theorem State.codeOf_of_mem {s : State} {t : Tree} (h : s.code = codeTable t) (hnd : t.leaves.Nodup)
    {x : Byte × BitSeq} (hx : x ∈ t.paths) : s.codeOf x.1 = CodeEntry.ofPath x.2 := by
  rw [← codeTable_of_mem hnd hx x.1.isLt]
  simp only [codeOf, h]

theorem State.codeOf_absent {s : State} {t : Tree} (h : s.code = codeTable t) {b : Byte} (hb : b ∉ t.leaves) :
    s.codeOf b = CodeEntry.absent := by
  rw [← codeTable_absent hb b.isLt]
  simp only [codeOf, h]

/-- Exactly the leaves' symbols have codes. -/
theorem State.present_iff {s : State} {t : Tree} (h : s.code = codeTable t) {b : Byte} :
    (s.codeOf b).present = true ↔ b ∈ t.leaves := by
  by_cases hb : b ∈ t.leaves
  · obtain ⟨p, hp⟩ := Tree.mem_leaves_iff.mp hb
    have hne : (t.paths.filter fun y => y.1 == b) ≠ [] := List.ne_nil_of_mem (List.mem_filter.mpr ⟨hp, by simp⟩)
    have hget : s.codeOf b = _ := (show s.codeOf b = (codeTable t)[b.toNat] by simp only [codeOf, h]).trans
      (codeTable_get t b b.isLt)
    rw [hget, List.getLast?_eq_some_getLast hne]
    exact ⟨fun _ => hb, fun _ => rfl⟩
  · simp [codeOf_absent h hb, hb, CodeEntry.absent]

/-- The code of a leaf's symbol is the tree's (R105, R131). -/
theorem State.seq_of_mem {s : State} {t : Tree} (h : s.code = codeTable t) (hnd : t.leaves.Nodup)
    (hcap : t.leaves.length ≤ Config.maxLeaves) {b : Byte} (hb : b ∈ t.leaves) : (s.codeOf b).seq = t.code b := by
  obtain ⟨p, hp⟩ := Tree.mem_leaves_iff.mp hb
  rw [codeOf_of_mem h hnd hp, t.code_of_mem hnd hp, CodeEntry.seq_ofPath _ (Tree.length_path_le_255 hcap hp)]

/-- The code bits of bytes that are all leaves are the tree's payload bits. -/
theorem State.codeBits_eq_payloadBits {s : State} {t : Tree} (h : s.code = codeTable t) (hnd : t.leaves.Nodup)
    (hcap : t.leaves.length ≤ Config.maxLeaves) {d : ByteSeq} (hd : ∀ b ∈ d, b ∈ t.leaves) :
    s.codeBits d = t.payloadBits d := by
  simp only [codeBits, Tree.payloadBits]
  exact List.flatMap_congr fun b hb => seq_of_mem h hnd hcap (hd b hb)

/-- A sum over all byte values that only the leaves of a tree contribute to. -/
theorem sum_allBytes_paths {t : Tree} (hnd : t.leaves.Nodup) (f : Byte → Nat) (g : BitSeq → Nat)
    (h1 : ∀ x ∈ t.paths, f x.1 = g x.2) (h0 : ∀ b, b ∉ t.leaves → f b = 0) :
    (allBytes.map f).sum = (t.paths.map fun x => g x.2).sum := by
  have : f = fun c => t.leaves.count c * f c := by
    funext c
    by_cases hc : c ∈ t.leaves
    · rw [List.count_eq_one_of_mem hnd hc, one_mul]
    · rw [h0 c hc, Nat.mul_zero]
  rw [this, sum_count_mul, ← Tree.paths_map_fst, List.map_map]
  congr 1
  exact List.map_congr_left h1

end Sys2Proof.Machine
end

