-- ==== Sys2Proof/Laws/Macros.lean ====
section
/-! SUPPORT. The macro commands (46_container.md R176, R180): what the stages of each do one after another. -/

namespace Sys2Proof.Machine

theorem runStage_eq (g : Stage) (body : State → Run Unit) (s : State) :
    runStage g body s = body { s with status := { s.status with phase := g.number } } := rfl

/-! ### Output from OUT address 0 -/

/-- The result after the bytes `bs` have been emitted from OUT address 0. -/
theorem State.result_restarted (s u : State) (bs : ByteSeq)
    (hm : u.outMem = (({ s with outLen := 0 } : State).emitted bs).outMem)
    (hl : u.outLen = (({ s with outLen := 0 } : State).emitted bs).outLen) (hb : bs.length < 2 ^ 64) :
    u.outLen.toNat = bs.length ∧ u.result = bs ∧ ∀ a, u.outLen.toNat ≤ a → u.outByte a = s.outByte a := by
  have h1 : u.outLen.toNat = bs.length := by
    rw [hl, State.outLen_emitted _ _ (by simpa using hb)]; simp
  have h2 := State.outSeq_emitted ({ s with outLen := 0 } : State) bs
  have h3 := State.outByte_emitted ({ s with outLen := 0 } : State) bs
  have hob : ∀ a, u.outByte a = (({ s with outLen := 0 } : State).emitted bs).outByte a :=
    fun a => by simp only [outByte, hm]
  refine ⟨h1, ?_, fun a ha => ?_⟩
  · rw [result, h1]
    refine Eq.trans ?_ h2
    simp only [outSeq, hob]
    rfl
  · rw [hob, h3, if_neg]
    · rfl
    · rw [h1] at ha
      simp; omega

/-! ### COMPRESS (R176) -/

/-- Header, shape and leaves, followed by the payload, are the container (R95). -/
theorem State.headerAndTree_container {s : State} {t : Tree} {d : ByteSeq} (ho : s.origSize.toNat = d.length)
    (h1 : s.shapeBitLen.toNat = t.shapeBits.length) (h2 : s.shapeByteLen.toNat = ceil8 t.shapeBits.length)
    (h3 : s.leafCount.toNat = t.leaves.length)
    (hb : ∀ k (hk : k < (pack t.shapeBits).length), s.shapeByte k = (pack t.shapeBits)[k]) (hl : s.leafSeq = t.leaves) :
    s.headerAndTree ++ pack (t.payloadBits d) = container t d := by
  have a1 : (List.range s.shapeByteLen.toNat).map s.shapeByte = pack t.shapeBits := by
    apply List.ext_getElem
    · rw [List.length_map, List.length_range, length_pack]; exact h2
    · intro i hi hi'
      simp only [List.getElem_map, List.getElem_range]
      exact hb i hi'
  have a2 : (List.range s.leafCount.toNat).map s.leafByte = t.leaves := hl
  rw [headerAndTree, a1, a2, container, header, ho, h1, h2, h3]

/-- HEMIT and PACK one after the other write the container (R171, R154). -/
theorem hemit_pack (s : State) (d : ByteSeq) (t : Tree) (hnd : t.leaves.Nodup)
    (hcap : t.leaves.length ≤ Config.maxLeaves) (hmem : ∀ b ∈ d, b ∈ t.leaves) (h1 : s.status.serV = true)
    (h2 : s.status.freqV = true) (h3 : s.status.codeV = true) (hr : s.inReadable s.inLen.toNat)
    (hht : s.headerAndTree ++ pack (t.payloadBits d) = container t d)
    (hw : s.outWritable 0 (container t d).length) (hsrc : s.source = d) (hosz : s.inLen = s.origSize)
    (hco : s.code = codeTable t) :
    (stageHemit s).andThen (fun _ s => stagePack { s with status := { s.status with phase := Stage.pack.number } }) =
      .ok ()
      { ({ s with outLen := 0 } : State).emitted (container t d) with
        status := { s.status with phase := 6, hdrw := false } } := by
  have hcb : s.codeBits d = t.payloadBits d := State.codeBits_eq_payloadBits hco hnd hcap hmem
  rw [← hht] at hw ⊢
  rw [List.length_append, length_pack] at hw
  have hlt := s.outWritable_lt (lo := 0) hw (by omega) (by omega)
  rcases stageHemit_cases (s := s) h1 h2 with ⟨_, h⟩ | ⟨n, hn, _, hbad, _⟩
  swap
  · have := hw n (by omega) (by omega)
    rcases hbad with h | h
    · exact absurd this.1 (Nat.not_lt.mpr h)
    · exact absurd h this.2
  rw [h, Run.andThen_ok]
  have hl0 : (State.emitted { s with outLen := 0 } s.headerAndTree).outLen.toNat = s.headerAndTree.length := by
    rw [State.outLen_emitted { s with outLen := 0 } s.headerAndTree (by simp; omega)]; simp
  generalize hs5 : ({ State.emitted { s with outLen := 0 } s.headerAndTree with
    status := { s.status with phase := 6, hdrw := true } } : State) = s5
  have q1 : s5.codeBits s5.source = t.payloadBits d := by
    rw [← hcb, ← hsrc, ← hs5]; rfl
  have hp := stagePack_ok (s := s5) (by rw [← hs5]; exact h3) (by rw [← hs5]) (by rw [← hs5]; exact hosz)
    (by rw [← hs5]; exact hr)
    (by
      intro b hb
      have hb' : b ∈ d := by rw [← hsrc]; rw [← hs5] at hb; exact hb
      have hc5 : s5.code = codeTable t := by rw [← hs5]; exact hco
      exact (State.present_iff hc5).mpr (hmem b hb'))
    (by
      intro a ha ha'
      rw [q1] at ha
      have hl5 : s5.outLen.toNat = s.headerAndTree.length := by rw [← hs5]; exact hl0
      have := hw a (by omega) (by omega)
      rw [← hs5]
      exact this)
  refine Eq.trans ?_ (hp.trans ?_)
  · rw [← hs5]; simp [Stage.sets, Stage.clears, Stage.number]
  · rw [q1, ← State.emitted_append _ _ _ (by simp; omega), ← hs5]
    simp [State.emitted]

/-- `s` with what FSCAN leaves inside COMPRESS (R116, R176). -/
def State.scanned (s : State) : State :=
  { s with
    freq := freqTable s.source
    origSize := s.inLen
    status := { s.status with
      phase := 1, freqV := true, treeV := false, codeV := false, serV := false, hdrw := false, parsed := false } }

/-- ... and the tree `t` TBUILD leaves (R121). -/
def State.treed (s : State) (t : Tree) : State :=
  { s.scanned with
    tree := t
    status := { s.status with
      phase := 2, freqV := true, treeV := true, codeV := false, serV := false, hdrw := false, parsed := false } }

/-- ... and its code table (R131). -/
def State.coded (s : State) (t : Tree) : State :=
  { s.treed t with
    code := codeTable t
    status := { s.status with
      phase := 3, freqV := true, treeV := true, codeV := true, serV := false, hdrw := false, parsed := false } }

/-- ... and its serialization (R139). -/
def State.built (s : State) (t : Tree) : State :=
  { (s.coded t).serialized with
    status := { s.status with
      phase := 4, freqV := true, treeV := true, codeV := true, serV := true, hdrw := false, parsed := false } }

/-- `s` where COMPRESS completes on it with the built tree `t`, before DONE is set (R176). -/
def State.compressed (s : State) (t : Tree) : State :=
  { ({ s.built t with outLen := 0 } : State).emitted (container t s.source) with
    status := { s.status with
      phase := 6, freqV := true, treeV := true, codeV := true, serV := true, hdrw := false, parsed := false } }

@[simp] theorem State.compressed_errCode (s : State) (t : Tree) : (s.compressed t).errCode = s.errCode := rfl
@[simp] theorem State.compressed_errInfo (s : State) (t : Tree) : (s.compressed t).errInfo = s.errInfo := rfl
@[simp] theorem State.compressed_inLen (s : State) (t : Tree) : (s.compressed t).inLen = s.inLen := rfl
@[simp] theorem State.compressed_origSize (s : State) (t : Tree) : (s.compressed t).origSize = s.inLen := rfl
@[simp] theorem State.compressed_freq (s : State) (t : Tree) : (s.compressed t).freq = freqTable s.source := rfl
@[simp] theorem State.compressed_tree (s : State) (t : Tree) : (s.compressed t).tree = t := rfl
@[simp] theorem State.compressed_code (s : State) (t : Tree) : (s.compressed t).code = codeTable t := rfl
@[simp] theorem State.compressed_status (s : State) (t : Tree) : (s.compressed t).status =
    { s.status with
      phase := 6, freqV := true, treeV := true, codeV := true, serV := true, hdrw := false, parsed := false } := rfl
theorem State.compressed_outMem (s : State) (t : Tree) :
    (s.compressed t).outMem = (({ s with outLen := 0 } : State).emitted (container t s.source)).outMem := by
  have h : (s.built t).outMem = s.outMem := rfl
  simp only [compressed, emitted, h]
theorem State.compressed_outLen (s : State) (t : Tree) :
    (s.compressed t).outLen = (({ s with outLen := 0 } : State).emitted (container t s.source)).outLen := by
  simp only [compressed, emitted]

/-- The tree built from the source's counts has exactly the source's bytes as leaves, each once (R121). -/
theorem State.builtTree_counted (s : State) {t : Tree} (hd : 2 ≤ s.counted.distinct)
    (ht : s.counted.builtTree = some t) :
    t.leaves.Nodup ∧ t.leaves.length ≤ Config.maxLeaves ∧ (∀ b, b ∈ t.leaves ↔ b ∈ s.source) ∧
      t.leaves.length = s.counted.distinct := by
  obtain ⟨t', ht', hperm, _⟩ := s.counted.builtTree_spec (by rw [length_symbols]; omega)
  rw [ht] at ht'; cases ht'
  refine ⟨hperm.nodup_iff.mpr s.counted.nodup_symbols, ?_, fun b => ?_, ?_⟩
  · rw [hperm.length_eq, length_symbols, distinct]
    exact (List.length_filter_le _ _).trans (by simp [Config.maxLeaves])
  · rw [hperm.mem_iff, mem_symbols, toNat_freqOf_counted]
    exact List.count_pos_iff
  · rw [hperm.length_eq, length_symbols]

theorem runStage_fscan (s : State) (hr : s.inReadable s.inLen.toNat) :
    runStage .fscan stageFscan s = .ok () s.scanned := by
  rcases stageFscan_cases { s with status := { s.status with phase := Stage.fscan.number } } with
    ⟨_, h⟩ | ⟨a, ha, _, hbad, _⟩
  · exact h
  · have := hr a ha
    rcases hbad with h | h
    · exact absurd this.1 (Nat.not_lt.mpr h)
    · exact absurd h this.2

theorem runStage_tbuild (s : State) (t : Tree) (hd : 2 ≤ s.counted.distinct) (ht : s.counted.builtTree = some t) :
    runStage .tbuild stageTbuild s.scanned = .ok () (s.treed t) := by
  have hf : ({ s.scanned with status := { s.scanned.status with phase := Stage.tbuild.number } } : State).freq
      = s.counted.freq := rfl
  rcases stageTbuild_cases { s.scanned with status := { s.scanned.status with phase := Stage.tbuild.number } } with
    ⟨h, _⟩ | ⟨_, h, _⟩ | ⟨_, _, t', ht', h⟩
  · exact absurd h (by simp [State.scanned])
  · rw [State.distinct_congr hf] at h; omega
  · rw [State.builtTree_congr hf, ht] at ht'
    cases ht'
    exact h

theorem runStage_cbuild (s : State) (t : Tree) : runStage .cbuild stageCbuild (s.treed t) = .ok () (s.coded t) :=
  stageCbuild_ok (s := { s.treed t with status := { (s.treed t).status with phase := Stage.cbuild.number } }) rfl

theorem runStage_tser (s : State) (t : Tree) : runStage .tser stageTser (s.coded t) = .ok () (s.built t) :=
  stageTser_ok (s := { s.coded t with status := { (s.coded t).status with phase := Stage.tser.number } }) rfl

/-- The first four stages of COMPRESS on a readable source of at least two byte values (R176). -/
theorem macroCompress_built (s : State) (hr : s.inReadable s.inLen.toNat) (t : Tree) (hd : 2 ≤ s.counted.distinct)
    (ht : s.counted.builtTree = some t) :
    macroCompress s = (runStage .hemit stageHemit (s.built t)).andThen fun _ s => runStage .pack stagePack s := by
  rw [macroCompress, runStage_fscan s hr, Run.andThen_ok, runStage_tbuild s t hd ht, Run.andThen_ok, runStage_cbuild,
    Run.andThen_ok, runStage_tser, Run.andThen_ok]

/-- The header registers of `State.built` (R95 to R99). -/
theorem State.built_container (s : State) (t : Tree) (hcap : t.leaves.length ≤ Config.maxLeaves) :
    (s.built t).headerAndTree ++ pack (t.payloadBits s.source) = container t s.source := by
  have hser := (s.coded t).serialized_spec hcap
  have hlen : s.source.length = s.inLen.toNat := by simp [State.source]
  refine State.headerAndTree_container hlen.symm hser.2.1 hser.2.2.1 hser.2.2.2 (fun i h => ?_) ?_
  · exact ((s.coded t).shapeByte_serialized i hcap).trans (dif_pos h)
  · exact (State.leafSeq_congr rfl rfl).trans hser.1.leaves

/-- COMPRESS's body on a readable source of at least two byte values, into OUT bytes that can hold the
container (R176). -/
theorem macroCompress_ok (s : State) (hr : s.inReadable s.inLen.toNat) (t : Tree) (hd : 2 ≤ s.counted.distinct)
    (ht : s.counted.builtTree = some t) (hw : s.outWritable 0 (container t s.source).length) :
    macroCompress s = .ok () (s.compressed t) := by
  obtain ⟨hnd, hcap, hmem, _⟩ := s.builtTree_counted hd ht
  rw [macroCompress_built s hr t hd ht]
  exact hemit_pack { s.built t with status := { (s.built t).status with phase := 5 } } s.source t hnd hcap (fun b hb
      => (hmem b).mpr hb) rfl rfl rfl hr
    (s.built_container t hcap) hw rfl rfl rfl

/-! ### DECOMPRESS (R180) -/

theorem State.inSeq_of_prefix {s : State} {a n m : Nat} {p q : ByteSeq} (h : s.inSeq a (n + m) = p ++ q)
    (hn : p.length = n) : s.inSeq a n = p ∧ s.inSeq (a + n) m = q := by
  rw [inSeq_add] at h
  exact List.append_inj h (by simp [hn])

/-- The parts of a container in IN (R95). -/
theorem State.inSeq_container {s : State} {t : Tree} {d : ByteSeq} (hd : d.length < 2 ^ 64)
    (hcap : t.leaves.length ≤ Config.maxLeaves) (h : s.inSeq 0 (container t d).length = container t d) :
    ube (s.inSeq 0 8) = d.length ∧ ube (s.inSeq 8 2) = t.shapeBits.length ∧
      ube (s.inSeq 10 2) = ceil8 t.shapeBits.length ∧ ube (s.inSeq 12 2) = t.leaves.length ∧
      s.inSeq 14 (ceil8 t.shapeBits.length) = pack t.shapeBits ∧
      s.inSeq (14 + ceil8 t.shapeBits.length) t.leaves.length = t.leaves ∧
      s.inSeq (14 + ceil8 t.shapeBits.length + t.leaves.length) (ceil8 (t.payloadBits d).length)
        = pack (t.payloadBits d) := by
  obtain ⟨hf1, hf2⟩ := Tree.shape_fits hcap
  rw [length_pack] at hf2
  simp only [Config.maxLeaves] at hcap
  have hlen : (container t d).length = 8 + (2 + (2 + (2 + (ceil8 t.shapeBits.length + (t.leaves.length +
      ceil8 (t.payloadBits d).length))))) := by
    simp [container]
  have hassoc : container t d = be 8 d.length ++ (be 2 t.shapeBits.length ++ (be 2 (ceil8 t.shapeBits.length) ++
      (be 2 t.leaves.length ++ (pack t.shapeBits ++ (t.leaves ++ pack (t.payloadBits d)))))) := by
    simp [container]
  rw [hlen, hassoc] at h
  obtain ⟨h1, h⟩ := State.inSeq_of_prefix h (by simp)
  obtain ⟨h2, h⟩ := State.inSeq_of_prefix h (by simp)
  obtain ⟨h3, h⟩ := State.inSeq_of_prefix h (by simp)
  obtain ⟨h4, h⟩ := State.inSeq_of_prefix h (by simp)
  obtain ⟨h5, h⟩ := State.inSeq_of_prefix h (by simp)
  obtain ⟨h6, h7⟩ := State.inSeq_of_prefix h rfl
  simp only [Nat.zero_add, Nat.reduceAdd] at h2 h3 h4 h5 h6 h7
  exact ⟨by rw [h1, ube_be _ _ (by omega)], by rw [h2, ube_be _ _ (by omega)], by rw [h3, ube_be _ _ (by omega)],
    by rw [h4, ube_be _ _ (by omega)], h5, h6, h7⟩

/-- The length of a container (R95). -/
theorem length_container (t : Tree) (d : ByteSeq) :
    (container t d).length =
      14 + ceil8 t.shapeBits.length + t.leaves.length + ceil8 (t.payloadBits d).length := by
  simp [container]; omega

/-- HPARSE's body on a container in IN (R173). -/
theorem stageHparse_container (s : State) (t : Tree) (d : ByteSeq) (hr : s.inReadable s.inLen.toNat)
    (hd : d.length < 2 ^ 64) (hcap : t.leaves.length ≤ Config.maxLeaves)
    (hle : (container t d).length ≤ s.inLen.toNat) (hc : s.inSeq 0 (container t d).length = container t d) :
    ∃ u, stageHparse s = .ok () u ∧ u.origSize.toNat = d.length ∧
      u.payloadOff.toNat = 14 + ceil8 t.shapeBits.length + t.leaves.length ∧ u.shapeSeq = t.shapeBits ∧
      u.leafSeq = t.leaves ∧ u.status = Stage.sets .hparse (Stage.clears .hparse s.status) ∧
      u = { s with
        origSize := u.origSize, payloadOff := u.payloadOff, shapeBitLen := u.shapeBitLen
        shapeByteLen := u.shapeByteLen, leafCount := u.leafCount, shape := u.shape, leaves := u.leaves
        status := u.status } := by
  obtain ⟨h1, h2, h3, h4, h5, h6, _⟩ := State.inSeq_container hd hcap hc
  obtain ⟨w1, w2, w3, w4⟩ := s.withHeader_fields
  rw [h1] at w1; rw [h2] at w2; rw [h3] at w3; rw [h4] at w4
  obtain ⟨hf1, hf2⟩ := Tree.shape_fits hcap
  rw [length_pack] at hf2
  have hlen := length_container t d
  have hend : s.withHeader.treeEnd = 14 + ceil8 t.shapeBits.length + t.leaves.length := by
    rw [State.treeEnd, w3, w4]; rfl
  have hc8 := ceil8_mul_ge t.shapeBits.length
  have hpt := parseTree_ok (s := s.withHeader) (by omega)
    ⟨by simp only [Config.maxShapeBits]; omega, by rw [w4]; exact hcap⟩
    (by rw [hend]; show _ ≤ s.inLen.toNat; omega) (by rw [hend]; intro a ha; exact hr a (by omega))
  rw [← stageHparse_eq (by simp only [Config.hdrBytes]; omega)
    (fun a ha => hr a (by simp only [Config.hdrBytes] at ha; omega))] at hpt
  generalize hu : ({ s.withHeader with
    shape := overwrite 0 (s.withHeader.inSeq Config.hdrBytes (ceil8 s.withHeader.shapeBitLen.toNat)) s.withHeader.shape
    leaves := overwrite 0 (s.withHeader.inSeq (Config.hdrBytes + s.withHeader.shapeByteLen.toNat)
      s.withHeader.leafCount.toNat) s.withHeader.leaves
    payloadOff := BitVec.ofNat 64 s.withHeader.treeEnd
    status := Stage.sets .hparse s.withHeader.status } : State) = u at hpt
  refine ⟨u, hpt, by rw [← hu]; exact w1, ?_, ?_, ?_, by rw [← hu]; rfl, by rw [← hu]; rfl⟩
  · rw [← hu]
    simp only []
    rw [hend, BitVec.toNat_ofNat, Nat.mod_eq_of_lt]
    simp only [Config.maxLeaves] at hcap
    omega
  · have e : s.withHeader.inSeq Config.hdrBytes (ceil8 s.withHeader.shapeBitLen.toNat) = pack t.shapeBits := by
      rw [w2]; exact h5
    refine (State.shapeSeq_of_bytes (s := u) (q := t.shapeBits) (by rw [← hu]; exact w2) fun k hk => ?_).1
    rw [State.shapeByte_overwrite _ (pack t.shapeBits) s.withHeader.shape (by rw [← e, ← hu])
      (by rw [length_pack]; exact hf2) k, dif_pos hk]
  · have e : s.withHeader.inSeq (Config.hdrBytes + s.withHeader.shapeByteLen.toNat) s.withHeader.leafCount.toNat
        = t.leaves := by rw [w3, w4]; exact h6
    refine State.leafSeq_of_bytes (s := u) (by rw [← hu]; exact w4) fun k hk => ?_
    rw [State.leafByte_overwrite _ t.leaves s.withHeader.leaves (by rw [← e, ← hu]) hcap k, dif_pos hk]

/-- The payload of a container decodes to the source bytes, whatever follows it (R102, R105). -/
theorem Tree.trace_container (l r : Tree) (d : ByteSeq) (hnd : (Tree.node l r).leaves.Nodup)
    (hd : ∀ b ∈ d, b ∈ (Tree.node l r).leaves) (rest : BitSeq) :
    ((Tree.node l r).trace d.length (.node l r) ((Tree.node l r).payloadBits d ++ rest)).1 = d := by
  have h := Tree.trace_paths l r (d.map fun b => (b, (Tree.node l r).code b)) 0 rest (by
    intro x hx
    obtain ⟨b, hb, rfl⟩ := List.mem_map.mp hx
    obtain ⟨p, hp⟩ := Tree.mem_leaves_iff.mp (hd b hb)
    have := Tree.code_of_mem hnd hp
    simp only at this
    rwa [this])
  rw [List.length_map, List.flatMap_map, Nat.add_zero] at h
  have h' := congrArg Prod.fst h
  simp only [Tree.trace_zero, List.append_nil, List.map_map] at h'
  exact h'.trans (List.map_id' d)

/-- DECOMPRESS's body on a container in IN of a tree with at least two distinct leaves (R180). -/
theorem macroDecompress_ok (s : State) (t : Tree) (d : ByteSeq) (hr : s.inReadable s.inLen.toNat)
    (h2 : 2 ≤ t.leaves.length) (hnd : t.leaves.Nodup) (hd : ∀ b ∈ d, b ∈ t.leaves) (hd64 : d.length < 2 ^ 64)
    (hle : (container t d).length ≤ s.inLen.toNat) (hc : s.inSeq 0 (container t d).length = container t d)
    (hw : s.outWritable 0 d.length) :
    ∃ u, macroDecompress s = .ok () u ∧ u.outMem = (({ s with outLen := 0 } : State).emitted d).outMem ∧
      u.outLen = (({ s with outLen := 0 } : State).emitted d).outLen ∧ u.tree = t ∧ u.origSize.toNat = d.length ∧
      u.errCode = s.errCode ∧ u.errInfo = s.errInfo ∧
      u.status = { s.status with
        phase := 9, freqV := false, treeV := true, codeV := false, serV := true, hdrw := false, parsed := true } := by
  have hcap : t.leaves.length ≤ Config.maxLeaves := by
    have : t.leaves.Subperm allBytes := List.Nodup.subperm hnd fun b _ => mem_allBytes b
    simpa [Config.maxLeaves, allBytes] using this.length_le
  obtain ⟨h, hh, e1, e2, e3, e4, e5, e6⟩ :=
    stageHparse_container { s with status := { s.status with phase := 7 } } t d hr hd64 hcap hle hc
  have hmd : macroDecompress s = (runStage .tdes stageTdes h).andThen fun _ s => runStage .unpack stageUnpack s := by
    simp only [macroDecompress, runStage_eq]
    exact (congrArg (fun r => Run.andThen r _) hh).trans rfl
  have ht := stageTdes_of_serialized (s := { h with status := { h.status with phase := 8 } }) (t := t)
    (by rw [e5]; rfl) hcap e3 e4
  have hmd2 := hmd.trans ((congrArg (fun r => Run.andThen r _) ht).trans rfl)
  have hl : h.inLen = s.inLen := by rw [e6]
  have hp : h.platform = s.platform := by rw [e6]
  have hm : h.inMem = s.inMem := by rw [e6]
  have hin : h.inSeq = s.inSeq := by funext a n; simp only [State.inSeq, State.inByte, hm]
  cases htr : t with
  | leaf b => rw [htr] at h2; simp [Tree.leaves] at h2
  | node l r =>
    rw [← htr]
    have hlen := length_container t d
    have hpay := (State.inSeq_container hd64 hcap hc).2.2.2.2.2.2
    obtain ⟨n, hn⟩ : ∃ n, s.inLen.toNat - h.payloadOff.toNat = ceil8 (t.payloadBits d).length + n :=
      ⟨s.inLen.toNat - h.payloadOff.toNat - ceil8 (t.payloadBits d).length, by omega⟩
    have hbits : (s.inSeq h.payloadOff.toNat (s.inLen.toNat - h.payloadOff.toNat)).flatMap bits8 =
        t.payloadBits d ++ (zeros (8 * ceil8 (t.payloadBits d).length - (t.payloadBits d).length) ++
          (s.inSeq (h.payloadOff.toNat + ceil8 (t.payloadBits d).length) n).flatMap bits8) := by
      rw [hn, State.inSeq_add, e2, hpay, List.flatMap_append, flatMap_bits8_pack, List.append_assoc]
    have hout := Tree.trace_container l r d (htr ▸ hnd) (htr ▸ hd)
      (zeros (8 * ceil8 (t.payloadBits d).length - (t.payloadBits d).length) ++
        (s.inSeq (h.payloadOff.toNat + ceil8 (t.payloadBits d).length) n).flatMap bits8)
    rw [← htr, ← hbits, htr] at hout
    have hu := stageUnpack_node
      (s := { h with
        tree := t
        status := { Stage.sets .tdes (Stage.clears .tdes { h.status with phase := 8 }) with phase := 9 } })
      (l := l) (r := r) (out := d) rfl (by rw [e5]; rfl) htr
      (by show h.payloadOff.toNat ≤ h.inLen.toNat; rw [hl]; omega)
      (by intro a ha; rw [hl] at ha; rw [hp]; exact hr a ha)
      (by
        show ((Tree.node l r).trace h.origSize.toNat (.node l r)
          ((h.inSeq h.payloadOff.toNat (h.inLen.toNat - h.payloadOff.toNat)).flatMap bits8)).1 = d
        rw [hin, hl, e1]
        exact hout)
      (by intro a ha ha'; rw [hp]; exact hw a ha ha')
    rw [if_pos e1.symm] at hu
    refine ⟨_, hmd2.trans hu, ?_, rfl, rfl, e1, ?_, ?_, ?_⟩
    · simp only [State.emitted]; rw [e6]
    · simp only [State.emitted]; rw [e6]
    · simp only [State.emitted]; rw [e6]
    · simp only [State.emitted, e5]; rfl

end Sys2Proof.Machine
end

