-- ==== Sys2Proof/Laws/Optimal.lean ====
section
/-! SUPPORT. Huffman optimality (41_tree_builder.md R124 (d)): the Kraft inequality of prefix codes, the exchange of
lengths, and the bound on the tree the merges build. -/

namespace Sys2Proof.Machine

/-! ### The Kraft inequality of a prefix code -/

/-- The bit sequences of a list that begin with `b`, without it. -/
def tailsOf (b : Bool) (cs : List BitSeq) : List BitSeq :=
  cs.filterMap fun c => match c with | [] => none | x :: r => if x = b then some r else none

theorem mem_tailsOf {b : Bool} {cs : List BitSeq} {r : BitSeq} : r ∈ tailsOf b cs ↔ b :: r ∈ cs := by
  simp only [tailsOf, List.mem_filterMap]
  constructor
  · rintro ⟨c, hc, h⟩
    cases c with
    | nil => simp at h
    | cons x c =>
      simp only [Option.ite_none_right_eq_some, Option.some.injEq] at h
      rw [← h.1, ← h.2]; exact hc
  · exact fun h => ⟨_, h, by simp⟩

theorem tailsOf_pairwise {b : Bool} {cs : List BitSeq} (h : cs.Pairwise fun x y => ¬ x <+: y ∧ ¬ y <+: x) :
    (tailsOf b cs).Pairwise fun x y => ¬ x <+: y ∧ ¬ y <+: x := by
  refine List.Pairwise.filterMap _ ?_ h
  intro x y hxy r hr r' hr'
  cases x with
  | nil => simp at hr
  | cons a x =>
    cases y with
    | nil => simp at hr'
    | cons a' y =>
      simp only [Option.ite_none_right_eq_some, Option.some.injEq] at hr hr'
      obtain ⟨rfl, rfl⟩ := hr
      obtain ⟨rfl, rfl⟩ := hr'
      simpa [List.cons_prefix_cons] using hxy

/-- The Kraft sum of a list of bit sequences none of them empty, from those of the two halves. -/
theorem sum_tailsOf (D : Nat) (cs : List BitSeq) (h : ∀ c ∈ cs, c ≠ []) :
    (cs.map fun c => 2 ^ (D + 1 - c.length)).sum =
      ((tailsOf false cs).map fun c => 2 ^ (D - c.length)).sum + ((tailsOf true cs).map fun c => 2 ^ (D -
          c.length)).sum := by
  induction cs with
  | nil => rfl
  | cons c cs ih =>
    have ih := ih fun x hx => h x (List.mem_cons_of_mem _ hx)
    cases c with
    | nil => exact absurd rfl (h [] (List.mem_cons_self ..))
    | cons x c =>
      simp only [tailsOf] at ih ⊢
      cases x <;> simp [ih] <;> omega

/-- A prefix code that has the empty sequence has nothing else. -/
theorem eq_nil_of_nil_mem {cs : List BitSeq} (h : cs.Pairwise fun x y => ¬ x <+: y ∧ ¬ y <+: x) (hn : [] ∈ cs) :
    cs = [[]] := by
  obtain ⟨a, b, rfl⟩ := List.append_of_mem hn
  rw [List.pairwise_append] at h
  obtain ⟨_, hb, hab⟩ := h
  have ha : a = [] := by
    cases a with
    | nil => rfl
    | cons x a => exact absurd List.nil_prefix (hab x (by simp) [] (by simp)).2
  have hb' : b = [] := by
    cases b with
    | nil => rfl
    | cons x b => exact absurd List.nil_prefix ((List.pairwise_cons.mp hb).1 x (by simp)).1
  rw [ha, hb']
  rfl

/-- The Kraft inequality: a prefix code's sum of 2^-length is at most 1 (times 2^D). -/
theorem kraft_le (D : Nat) (cs : List BitSeq) (hl : ∀ c ∈ cs, c.length ≤ D)
    (h : cs.Pairwise fun x y => ¬ x <+: y ∧ ¬ y <+: x) : (cs.map fun c => 2 ^ (D - c.length)).sum ≤ 2 ^ D := by
  induction D generalizing cs with
  | zero =>
    cases cs with
    | nil => simp
    | cons c cs =>
      have hc := List.length_eq_zero_iff.mp (Nat.le_zero.mp (hl c (by simp)))
      rw [eq_nil_of_nil_mem h (by simp [hc])]
      simp
  | succ D ih =>
    by_cases hnil : [] ∈ cs
    · rw [eq_nil_of_nil_mem h hnil]; simp
    · have key : ∀ b, ((tailsOf b cs).map fun c => 2 ^ (D - c.length)).sum ≤ 2 ^ D := fun b =>
        ih (tailsOf b cs)
          (fun c hc => by have := hl _ (mem_tailsOf.mp hc); simp only [List.length_cons] at this; omega)
          (tailsOf_pairwise h)
      rw [sum_tailsOf D cs fun c hc h => hnil (h ▸ hc), pow_succ]
      have h1 := key false
      have h2 := key true
      omega

/-! ### Exchanging lengths -/

/-- The cost of weights with lengths. -/
def cost (ps : List (Nat × Nat)) : Nat := (ps.map fun p => p.1 * p.2).sum

/-- The Kraft sum of lengths, times 2^D. -/
def kraftSum (D : Nat) (ls : List Nat) : Nat := (ls.map fun l => 2 ^ (D - l)).sum

theorem kraftSum_perm {D : Nat} {a b : List Nat} (h : a.Perm b) : kraftSum D a = kraftSum D b := (h.map _).sum_eq

theorem cost_perm {a b : List (Nat × Nat)} (h : a.Perm b) : cost a = cost b := (h.map _).sum_eq

/-- Among a weight `w` and weights no lighter, giving `w` the largest length costs no more. -/
theorem exchange (w l : Nat) (r : List (Nat × Nat)) (h : ∀ p ∈ r, w ≤ p.1) :
    ∃ L r', (∀ p ∈ r', p.2 ≤ L) ∧ r'.map Prod.fst = r.map Prod.fst ∧
      (L :: r'.map Prod.snd).Perm (l :: r.map Prod.snd) ∧ w * L + cost r' ≤ w * l + cost r := by
  induction r with
  | nil => exact ⟨l, [], by simp, rfl, .refl _, Nat.le_refl _⟩
  | cons p r ih =>
    obtain ⟨w', l'⟩ := p
    have hw : w ≤ w' := h (w', l') (by simp)
    obtain ⟨L, r', h1, h2, h3, h4⟩ := ih fun p hp => h p (List.mem_cons_of_mem _ hp)
    by_cases hle : l' ≤ L
    · refine ⟨L, (w', l') :: r', ?_, by simp [h2], ?_, ?_⟩
      · intro p hp
        rcases List.mem_cons.mp hp with rfl | hp
        · exact hle
        · exact h1 p hp
      · exact (List.Perm.swap ..).trans ((h3.cons l').trans (List.Perm.swap ..))
      · simp only [cost, List.map_cons, List.sum_cons] at h4 ⊢
        omega
    · refine ⟨l', (w', L) :: r', ?_, by simp [h2], ?_, ?_⟩
      · intro p hp
        rcases List.mem_cons.mp hp with rfl | hp
        · simp only; omega
        · exact (h1 p hp).trans (by omega)
      · exact (h3.cons l').trans (List.Perm.swap ..)
      · have hx : w * l' + w' * L ≤ w * L + w' * l' := by
          obtain ⟨k, rfl⟩ : ∃ k, l' = L + k := ⟨l' - L, by omega⟩
          have := Nat.mul_le_mul_right k hw
          simp only [Nat.mul_add]
          omega
        simp only [cost, List.map_cons, List.sum_cons] at h4 ⊢
        omega

/-- Powers of two of lengths at most `k` are multiples of the smallest of them. -/
theorem dvd_kraftSum {D k : Nat} {ls : List Nat} (h : ∀ l ∈ ls, l ≤ k) : 2 ^ (D - k) ∣ kraftSum D ls := by
  induction ls with
  | nil => simp [kraftSum]
  | cons l ls ih =>
    simp only [kraftSum, List.map_cons, List.sum_cons]
    refine Nat.dvd_add (pow_dvd_pow 2 ?_) (ih fun x hx => h x (List.mem_cons_of_mem _ hx))
    have := h l (by simp)
    omega

theorem perm_cons_of_map_perm {α β : Type} {f : α → β} {ps : List α} {b : β} {bs : List β}
    (h : (ps.map f).Perm (b :: bs)) : ∃ a r, f a = b ∧ ps.Perm (a :: r) ∧ (r.map f).Perm bs := by
  classical
  have hb : b ∈ ps.map f := h.mem_iff.mpr (by simp)
  obtain ⟨a, ha, rfl⟩ := List.mem_map.mp hb
  have hp := List.perm_cons_erase ha
  refine ⟨a, ps.erase a, rfl, hp, ?_⟩
  exact ((hp.map f).symm.trans h).cons_inv

/-- With the two lightest weights given one length, merging them frees one bit each: from lengths of a prefix
code for `a`, `b` and heavier weights, lengths for `a + b` and the rest that cost `a + b` less. -/
theorem merge_lengths (D a b : Nat) (ws : List Nat) (hab : a ≤ b) (hb : ∀ w ∈ ws, b ≤ w) (ps : List (Nat × Nat))
    (hp : (ps.map Prod.fst).Perm (a :: b :: ws)) (hD : ∀ p ∈ ps, p.2 ≤ D) (hk : kraftSum D (ps.map Prod.snd) ≤ 2 ^ D) :
    ∃ qs : List (Nat × Nat), (qs.map Prod.fst).Perm ((a + b) :: ws) ∧ (∀ p ∈ qs, p.2 ≤ D) ∧
      kraftSum D (qs.map Prod.snd) ≤ 2 ^ D ∧ cost qs + (a + b) ≤ cost ps := by
  obtain ⟨⟨a', la⟩, r, ha, hpr, hr⟩ := perm_cons_of_map_perm hp
  simp only at ha
  subst ha
  have hra : ∀ p ∈ r, a' ≤ p.1 := by
    intro p hp
    have : p.1 ∈ b :: ws := hr.mem_iff.mp (List.mem_map_of_mem hp)
    rcases List.mem_cons.mp this with h | h
    · omega
    · exact hab.trans (hb _ h)
  obtain ⟨L, r1, h1, h2, h3, h4⟩ := exchange a' la r hra
  rw [← h2] at hr
  obtain ⟨⟨b', lb⟩, r2, hbb, hpr2, hr2⟩ := perm_cons_of_map_perm hr
  simp only at hbb
  subst hbb
  have hrb : ∀ p ∈ r2, b' ≤ p.1 := fun p hp => hb _ (hr2.mem_iff.mp (List.mem_map_of_mem hp))
  obtain ⟨M, r3, g1, g2, g3, g4⟩ := exchange b' lb r2 hrb
  -- the lengths are still those of `ps`
  have hlens : (L :: M :: r3.map Prod.snd).Perm (ps.map Prod.snd) := by
    refine List.Perm.trans ?_ (hpr.map Prod.snd).symm
    refine List.Perm.trans ?_ h3
    refine List.Perm.cons L (g3.trans ?_)
    exact (hpr2.map Prod.snd).symm
  have hlD : ∀ l ∈ L :: M :: r3.map Prod.snd, l ≤ D := by
    intro l hl
    obtain ⟨p, hp, rfl⟩ := List.mem_map.mp (hlens.mem_iff.mp hl)
    exact hD p hp
  have hLD : L ≤ D := hlD L (by simp)
  have hMD : M ≤ D := hlD M (by simp)
  have hML : M ≤ L := by
    have : M ∈ r1.map Prod.snd := by
      have := (g3.trans (hpr2.map Prod.snd).symm).mem_iff.mp (List.mem_cons_self ..)
      exact this
    obtain ⟨p, hp, rfl⟩ := List.mem_map.mp this
    exact h1 p hp
  have hcost : a' * L + (b' * M + cost r3) ≤ cost ps := by
    rw [cost_perm hpr]
    have e1 : cost ((a', la) :: r) = a' * la + cost r := by simp [cost]
    have e2 : cost r1 = b' * lb + cost r2 := by rw [cost_perm hpr2]; simp [cost]
    omega
  have hkraft : 2 ^ (D - L) + (2 ^ (D - M) + kraftSum D (r3.map Prod.snd)) ≤ 2 ^ D := by
    rw [← kraftSum_perm hlens] at hk
    simpa [kraftSum] using hk
  have hg1 : ∀ l ∈ r3.map Prod.snd, l ≤ M := by
    intro l hl
    obtain ⟨p, hp, rfl⟩ := List.mem_map.mp hl
    exact g1 p hp
  -- both may have the smaller length
  have hk2 : 2 ^ (D - M) + (2 ^ (D - M) + kraftSum D (r3.map Prod.snd)) ≤ 2 ^ D := by
    obtain ⟨x, hx⟩ := dvd_kraftSum (D := D) hg1
    obtain ⟨y, hy⟩ : 2 ^ (D - M) ∣ 2 ^ D := pow_dvd_pow 2 (by omega)
    have hpos : 0 < 2 ^ (D - L) := Nat.two_pow_pos _
    have hlt : 2 ^ (D - M) * (1 + x) < 2 ^ (D - M) * y := by
      rw [← hy, Nat.mul_add, Nat.mul_one, ← hx]; omega
    have hlt' := Nat.lt_of_mul_lt_mul_left hlt
    have := Nat.mul_le_mul_left (2 ^ (D - M)) (show 2 + x ≤ y by omega)
    rw [← hy, Nat.mul_add, ← hx] at this
    omega
  have hM : 1 ≤ M := by
    rcases Nat.eq_zero_or_pos M with h0 | h0
    · rw [h0, Nat.sub_zero] at hk2
      have := Nat.two_pow_pos D
      omega
    · exact h0
  have hpow : 2 ^ (D - (M - 1)) = 2 * 2 ^ (D - M) := by
    rw [show D - (M - 1) = D - M + 1 by omega, pow_succ]; ring
  refine ⟨(a' + b', M - 1) :: r3, ?_, ?_, ?_, ?_⟩
  · rw [List.map_cons, g2]; exact hr2.cons _
  · intro p hp
    rcases List.mem_cons.mp hp with rfl | hp
    · simp only; omega
    · exact hlD p.2 (by simp only [List.mem_cons]; exact .inr (.inr (List.mem_map_of_mem hp)))
  · simp only [kraftSum, List.map_cons, List.sum_cons] at hk2 ⊢
    rw [hpow]; omega
  · have e : cost ((a' + b', M - 1) :: r3) = (a' + b') * (M - 1) + cost r3 := by simp [cost]
    obtain ⟨k, rfl⟩ : ∃ k, M = k + 1 := ⟨M - 1, by omega⟩
    have hLk := Nat.mul_le_mul_left a' hML
    rw [e, Nat.add_sub_cancel]
    simp only [Nat.mul_add, Nat.mul_one, Nat.add_mul] at hcost hLk ⊢
    omega

/-! ### The tree the merges build -/

/-- The sum of the counts of a tree's leaves: its weight, where that does not wrap (R196). -/
def State.exactWeight (s : State) : Tree → Nat
  | .leaf b => (s.freqOf b).toNat
  | .node l r => s.exactWeight l + s.exactWeight r

theorem State.exactWeight_eq (s : State) (t : Tree) :
    s.exactWeight t = (t.leaves.map fun b => (s.freqOf b).toNat).sum := by
  induction t with
  | leaf b => simp [exactWeight, Tree.leaves]
  | node l r ihl ihr => simp [exactWeight, Tree.leaves, ihl, ihr]

theorem State.toNat_weight (s : State) (t : Tree) : (s.weight t).toNat = s.exactWeight t % 2 ^ 64 := by
  induction t with
  | leaf b => simp only [weight, exactWeight]; have := (s.freqOf b).isLt; omega
  | node l r ihl ihr => simp only [weight, exactWeight, BitVec.toNat_add]; omega

/-- Where the counts sum to less than 2^64, no sum of counts of distinct byte values wraps (R196). -/
theorem State.sum_symbols_le (s : State) : (s.symbols.map fun b => (s.freqOf b).toNat).sum ≤ s.total := by
  rw [total, sum_range_eq fun b => (s.freqOf b).toNat]
  exact List.Sublist.sum_le_sum (List.Sublist.map _ List.filter_sublist) fun _ _ => Nat.zero_le _

/-- The weighted path length of a tree: the sum of the weights of its internal nodes. -/
def State.pathCost (s : State) : Tree → Nat
  | .leaf _ => 0
  | .node l r => s.exactWeight l + s.exactWeight r + s.pathCost l + s.pathCost r

/-- The weighted path length is the sum over the leaves of weight times code length. -/
theorem State.pathCost_eq (s : State) (t : Tree) :
    (t.paths.map fun x => (s.freqOf x.1).toNat * x.2.length).sum = s.pathCost t := by
  have hw : ∀ t : Tree, (t.paths.map fun x => (s.freqOf x.1).toNat).sum = s.exactWeight t := by
    intro t
    rw [exactWeight_eq, ← Tree.paths_map_fst, List.map_map]
    rfl
  induction t with
  | leaf b => simp [Tree.paths, Tree.pathsFrom, pathCost]
  | node l r ihl ihr =>
    have hs : ∀ t : Tree, (t.paths.map fun x => (s.freqOf x.1).toNat * (x.2.length + 1)).sum
        = (t.paths.map fun x => (s.freqOf x.1).toNat * x.2.length).sum + s.exactWeight t := by
      intro t
      rw [← hw t, ← List.sum_map_add]
      simp only [Nat.mul_add, Nat.mul_one]
    rw [Tree.paths_node, List.map_append, List.sum_append, List.map_map, List.map_map]
    have e1 := hs l
    have e2 := hs r
    simp only [Function.comp_def, List.length_cons, pathCost]
    omega

/-- Whatever lengths of a prefix code are given to the entries of the queue, the tree the merges build costs no
more, where the weights do not wrap. -/
theorem MergeRun.optimal {s : State} (D : Nat) {next : Nat} {q : List Entry} {ms : List (Entry × Entry)} {t : Tree}
    (h : MergeRun next q ms t) (hw : ∀ e ∈ q, e.w.toNat = s.exactWeight e.t)
    (hb : (q.map fun e => e.w.toNat).sum < 2 ^ 64) (ps : List (Nat × Nat))
    (hp : (ps.map Prod.fst).Perm (q.map fun e => e.w.toNat)) (hD : ∀ p ∈ ps, p.2 ≤ D)
    (hkr : kraftSum D (ps.map Prod.snd) ≤ 2 ^ D) :
    s.pathCost t ≤ (q.map fun e => s.pathCost e.t).sum + cost ps := by
  induction h generalizing ps with
  | root => simp
  | @merge next q rest a b ms t hq ha hbr _ ih =>
    have hw' := fun e he => hw e (hq.mem_iff.mpr he)
    rw [(hq.map fun e => e.w.toNat).sum_eq] at hb
    rw [(hq.map fun e => s.pathCost e.t).sum_eq]
    simp only [List.map_cons, List.sum_cons] at hb ⊢
    have hab : a.w.toNat ≤ b.w.toNat := by
      have := (Entry.before_iff _ _).mp (ha b (by simp)); omega
    have hsum : (a.w + b.w).toNat = a.w.toNat + b.w.toNat := by rw [BitVec.toNat_add]; omega
    have hle : ∀ w ∈ rest.map fun e => e.w.toNat, b.w.toNat ≤ w := by
      intro w h
      obtain ⟨e, he, rfl⟩ := List.mem_map.mp h
      have := (Entry.before_iff _ _).mp (hbr e he); omega
    obtain ⟨qs, h1, h2, h3, h4⟩ := merge_lengths D a.w.toNat b.w.toNat (rest.map fun e => e.w.toNat) hab hle ps
      (hp.trans (hq.map fun e => e.w.toNat)) hD hkr
    have haw := hw' a (by simp)
    have hbw := hw' b (by simp)
    have := ih
      (by
        intro x hx
        rcases List.mem_cons.mp hx with rfl | hx
        · simp only [State.exactWeight, hsum, haw, hbw]
        · exact hw' x (by simp [hx]))
      (by simp only [List.map_cons, List.sum_cons, hsum]; omega) qs
      (by simpa only [List.map_cons, hsum] using h1) h2 h3
    simp only [List.map_cons, List.sum_cons, State.pathCost] at this
    omega

/-- The built tree's weighted path length is at most that of any lengths of a prefix code for the symbols. -/
theorem State.builtTree_optimal (s : State) (t : Tree) (htot : s.total < 2 ^ 64) (ht : s.builtTree = some t)
    (c : Byte → BitSeq) (hc : s.symbols.Pairwise fun b b' => ¬ c b <+: c b' ∧ ¬ c b' <+: c b) :
    s.pathCost t ≤ (s.symbols.map fun b => (s.freqOf b).toNat * (c b).length).sum := by
  have hpos : 0 < s.symbols.length := by
    rcases Nat.eq_zero_or_pos s.symbols.length with h | h
    · rw [List.length_eq_zero_iff] at h
      simp [builtTree, h, enqueueLeaves, mergeQueue] at ht
    · exact h
  obtain ⟨t', ht', _, ms, hm⟩ := s.builtTree_spec hpos
  obtain rfl : t' = t := Option.some.inj (ht'.symm.trans ht)
  obtain ⟨D, hD⟩ : ∃ D, ∀ b ∈ s.symbols, (c b).length ≤ D :=
    ⟨(s.symbols.map fun b => (c b).length).sum, fun b hb => List.single_le_sum (by simp) _ (List.mem_map_of_mem hb)⟩
  have hk := kraft_le D (s.symbols.map c) (by simpa using hD) (List.pairwise_map.mpr hc)
  have hws : (s.leafEntries.map fun e => e.w.toNat) = s.symbols.map fun b => (s.freqOf b).toNat := by
    conv_rhs => rw [← List.zipIdx_map_fst 0 s.symbols, List.map_map]
    rw [leafEntries, List.map_map]
    rfl
  have hz : (s.leafEntries.map fun e => s.pathCost e.t).sum = 0 := by
    simp [leafEntries, pathCost, Function.comp_def]
  have := hm.optimal D (s := s) (by simp only [leafEntries, List.forall_mem_map]; exact fun _ _ => rfl)
    (by rw [hws]; exact s.sum_symbols_le.trans_lt htot)
    (s.symbols.map fun b => ((s.freqOf b).toNat, (c b).length))
    (by rw [hws, List.map_map]; exact .refl _)
    (by simpa using hD)
    (by simp only [kraftSum, List.map_map]; rw [List.map_map] at hk; exact hk)
  rw [hz, Nat.zero_add, cost, List.map_map] at this
  exact this

end Sys2Proof.Machine
end

