-- ==== Sys2Proof/Laws/Invariants.lean ====
section
/-! SUPPORT. How an invariant goes through a run: what every stage body keeps, every command keeps; the stage bodies
keep the memory invariant and what the flags promise. -/

namespace Sys2Proof.Machine

/-! ### From the stage bodies to the commands, acceptance and the host actions -/

/-- A predicate both parts of a run keep, the run keeps. -/
theorem Run.final_andThen {α β : Type} {P : State → Prop} {r : Run α} {k : α → State → Run β} (h : P r.final)
    (hk : ∀ a s, P s → P (k a s).final) : P (r.andThen k).final := by
  cases r with
  | ok a s => exact hk a s h
  | raised s => exact h

/-- The body of each stage. -/
def stageBody : Stage → State → Run Unit
  | .fscan => stageFscan
  | .tbuild => stageTbuild
  | .cbuild => stageCbuild
  | .tser => stageTser
  | .hemit => stageHemit
  | .pack => stagePack
  | .hparse => stageHparse
  | .tdes => stageTdes
  | .unpack => stageUnpack

/-- A predicate that BUSY, DONE and PHASE do not touch. -/
def Unframed (P : State → Prop) : Prop :=
  ∀ (s : State) (b d : Bool) (p : BitVec 4), P s → P { s with status := { s.status with busy := b, done := d, phase
      := p } }

theorem runStage_keeps {P : State → Prop} (hu : Unframed P) (hb : ∀ g s, P s → P (stageBody g s).final) (g : Stage)
    {s : State} (h : P s) : P (runStage g (stageBody g) s).final :=
  hb g _ (hu s s.status.busy s.status.done g.number h)

theorem runCommand_keeps {P : State → Prop} (hu : Unframed P) {body : State → Run Unit}
    (hb : ∀ s, P s → P (body s).final) {s t : State} (h : P s) (he : runCommand body s = .next t) : P t := by
  have h0 := hb _ (hu s true false s.status.phase h)
  rcases runCommand_cases body s with ⟨u, hx, hn⟩ | ⟨u, hx, hn⟩ <;> rw [hn] at he <;> cases he <;> rw [hx] at h0
  · exact hu u false true 0 h0
  · exact h0

/-- What every stage body and CLR keep, every command keeps. -/
theorem exec_keeps {P : State → Prop} (hu : Unframed P) (hb : ∀ g s, P s → P (stageBody g s).final)
    (hc : ∀ s, P s → P (clearRecord s)) {i : Instr} {s t : State} (h : P s) (he : exec i s = .next t) : P t := by
  have hr : ∀ g s, P s → P (runStage g (stageBody g) s).final := fun g s => runStage_keeps hu hb g
  cases i
  case nop => cases he; exact h
  case clr => cases he; exact hc s h
  case fscan => exact runCommand_keeps hu (hr .fscan) h he
  case tbuild => exact runCommand_keeps hu (hr .tbuild) h he
  case cbuild => exact runCommand_keeps hu (hr .cbuild) h he
  case tser => exact runCommand_keeps hu (hr .tser) h he
  case hemit => exact runCommand_keeps hu (hr .hemit) h he
  case pack => exact runCommand_keeps hu (hr .pack) h he
  case hparse => exact runCommand_keeps hu (hr .hparse) h he
  case tdes => exact runCommand_keeps hu (hr .tdes) h he
  case unpack => exact runCommand_keeps hu (hr .unpack) h he
  case compress =>
    exact runCommand_keeps hu (body := macroCompress) (fun s h => Run.final_andThen (hr .fscan s h) fun _ s h =>
      Run.final_andThen (hr .tbuild s h) fun _ s h => Run.final_andThen (hr .cbuild s h) fun _ s h =>
      Run.final_andThen (hr .tser s h) fun _ s h => Run.final_andThen (hr .hemit s h) fun _ s h => hr .pack s h) h he
  case decompress =>
    exact runCommand_keeps hu (body := macroDecompress) (fun s h => Run.final_andThen (hr .hparse s h) fun _ s h =>
      Run.final_andThen (hr .tdes s h) fun _ s h => hr .unpack s h) h he

/-- All acceptance can do (R186): ignore the word, run a command, or record IllegalCmd. -/
theorem accept_cases {w : Word32} {s t : State} (h : accept w s = .next t) :
    t = s ∨ (∃ i, s.status.busy = false ∧ (s.status.err = false ∨ i = .clr) ∧ w = encode i ∧ exec i s = .next t) ∨
      (s.status.busy = false ∧ s.status.err = false ∧ t = faultEntry .illegalCmd (w.setWidth 64) s) := by
  simp only [accept] at h
  split at h
  · cases h; exact .inl rfl
  · rename_i hb
    rw [Bool.not_eq_true] at hb
    split at h
    · rename_i hw
      exact .inr (.inl ⟨.clr, hb, .inr rfl, hw, h⟩)
    · split at h
      · cases h; exact .inl rfl
      · rename_i he
        rw [Bool.not_eq_true] at he
        cases hd : decode w with
        | ok i =>
          rw [hd] at h
          refine .inr (.inl ⟨i, hb, .inl he, ?_, h⟩)
          simp only [decode] at hd
          split at hd
          · rename_i row hrow
            have hall : ∀ row ∈ opcodeTable, row.1 = encode row.2 := by decide
            have hw := List.find?_some hrow
            simp only [beq_iff_eq] at hw
            cases hd
            rw [← hw, hall _ (List.mem_of_find?_eq_some hrow)]
          · cases hd
        | error e =>
          rw [hd] at h
          cases h
          exact .inr (.inr ⟨hb, he, rfl⟩)

/-- All a step can do: hold the state, or perform the first pending host action (assumption 1). -/
theorem step_cases {s t : State} (h : step s = .next t) :
    (s.host = [] ∧ t = s) ∨ ∃ a rest, s.host = a :: rest ∧ perform a { s with host := rest } = .next t := by
  simp only [step] at h
  split at h
  · rename_i hh; cases h; exact .inl ⟨hh, rfl⟩
  · rename_i a rest hh; exact .inr ⟨a, rest, hh, h⟩

/-- A register read changes nothing but what the host was handed and the number of draws (R64). -/
theorem readReg_eq (n : Nat) (s : State) :
    readReg n s = { s with hostRead := (readReg n s).hostRead, draws := (readReg n s).draws } := by
  simp only [readReg]
  split
  · rfl
  · split
    · split <;> rfl
    · split <;> rfl

/-! ### From a frame to equal registers -/

theorem freq_of_same {s t : State} (h : Part.same s t .freq) : t.freq = s.freq := by
  apply Vector.ext
  intro k hk
  have := h (BitVec.ofNat 8 k)
  simpa only [State.freqOf, BitVec.toNat_ofNat, show k % 2 ^ 8 = k by omega] using this

theorem code_of_same {s t : State} (h : Part.same s t .code) : t.code = s.code := by
  apply Vector.ext
  intro k hk
  have := h (BitVec.ofNat 8 k)
  simpa only [State.codeOf, BitVec.toNat_ofNat, show k % 2 ^ 8 = k by omega] using this

theorem shape_of_same {s t : State} (h : Part.same s t .shape) : t.shape = s.shape := by
  apply Vector.ext
  intro k hk
  have := h k
  simpa [State.shapeByte, hk] using this

theorem leaves_of_same {s t : State} (h : Part.same s t .leaves) : t.leaves = s.leaves := by
  apply Vector.ext
  intro k hk
  have := h k
  simpa [State.leafByte, hk] using this

/-! ### Predicates about the memories, OUT_LEN and the platform -/

/-- A predicate of the memories, OUT_LEN and the platform that appending bytes and restarting the output keep. -/
structure OutClosed (P : State → Prop) : Prop where
  of_eq : ∀ {s t : State}, P s → t.inMem = s.inMem → t.outMem = s.outMem → t.outLen = s.outLen →
    t.platform = s.platform → P t
  emitted : ∀ {s : State}, P s → ∀ bs : ByteSeq, s.outWritable s.outLen.toNat (s.outLen.toNat + bs.length) →
    P (s.emitted bs)
  restart : ∀ {s : State}, P s → P { s with outLen := 0 }

variable {P : State → Prop}

theorem OutClosed.after_emitAll (c : OutClosed P) {s : State} (h : P s) (bs : ByteSeq) : P (emitAll bs s).final := by
  rcases emitAll_cases bs s with ⟨hw, he⟩ | ⟨n, hn, hw, _, he⟩ <;> rw [he]
  · exact c.emitted h bs hw
  · rw [← Nat.min_eq_left (Nat.le_of_lt hn), ← List.length_take] at hw
    exact c.of_eq (c.emitted h (bs.take n) hw) rfl rfl rfl rfl

theorem OutClosed.after_faultEntry (c : OutClosed P) {s : State} (h : P s) (x i) : P (faultEntry x i s) :=
    c.of_eq h rfl rfl rfl rfl

theorem OutClosed.after_memRead (c : OutClosed P) {s : State} (h : P s) (a) : P (memRead a s).final := by
  rcases memRead_cases a s with ⟨_, _, he⟩ | ⟨_, he⟩ <;> rw [he]
  · exact h
  · exact c.after_faultEntry h _ _

theorem OutClosed.after_openStage (c : OutClosed P) {s : State} (h : P s) (g) : P (openStage g s).final := by
  simp only [openStage]; split
  · exact c.of_eq h rfl rfl rfl rfl
  · exact c.after_faultEntry h _ _

theorem OutClosed.after_closeStage (c : OutClosed P) {s : State} (h : P s) (g) : P (closeStage g s).final :=
    c.of_eq h rfl rfl rfl rfl

theorem OutClosed.after_emit (c : OutClosed P) {s : State} (h : P s) (b) : P (emit b s).final := by
  rw [emit_eq_emitAll]; exact c.after_emitAll h _

theorem OutClosed.after_packBytes (c : OutClosed P) (n i acc) (s : State) (h : P s) : P (packBytes n i acc s).final := by
  induction n generalizing i acc s with
  | zero => simp only [packBytes, flush]; split; exact h; exact c.after_emit h _
  | succ n ih =>
    refine Run.final_andThen (P := P) (c.after_memRead h i) fun b s1 h1 => ?_
    split
    · exact c.after_faultEntry h1 _ _
    · exact Run.final_andThen (P := P) (c.after_emitAll h1 _) fun _ s2 h2 => ih _ _ _ h2

theorem OutClosed.after_unpackBytes (c : OutClosed P) (n i cur) (s : State) (h : P s) : P (unpackBytes n i cur s).final := by
  have hb : ∀ a bits cur (s : State), P s → P (walkBits a bits cur s).final := by
    intro a bits
    induction bits with
    | nil => intro cur s h; exact h
    | cons b bits ih =>
      intro cur s h
      simp only [walkBits]
      split
      · exact h
      · refine Run.final_andThen (P := P) ?_ fun c s1 h1 => ih c s1 h1
        simp only [walkBit]
        split
        · exact c.after_faultEntry h _ _
        · split
          · exact Run.final_andThen (P := P) (c.after_emit h _) fun _ _ h => h
          · exact h
  induction n generalizing i cur s with
  | zero => simp only [unpackBytes]; split; exact c.after_faultEntry h _ _; exact h
  | succ n ih =>
    simp only [unpackBytes]
    split
    · exact h
    · split
      · exact c.after_faultEntry h _ _
      · exact Run.final_andThen (P := P) (c.after_memRead h i) fun b s1 h1 => Run.final_andThen (P :=
            P) (hb _ _ _ _ h1) fun _ s2 h2 => ih _ _ _ h2

theorem OutClosed.after_scanBytes (c : OutClosed P) (n i) (s : State) (h : P s) : P (scanBytes n i s).final := by
  induction n generalizing i s with
  | zero => exact h
  | succ n ih =>
      exact Run.final_andThen (P := P) (c.after_memRead h i) fun b s1 h1 => ih _ _ (c.of_eq
          h1 rfl rfl rfl rfl)

theorem OutClosed.after_loadShape (c : OutClosed P) (n k a) (s : State) (h : P s) : P (loadShape n k a s).final := by
  induction n generalizing k a s with
  | zero => exact h
  | succ n ih =>
      exact Run.final_andThen (P := P) (c.after_memRead h a) fun b s1 h1 => ih _ _ _ (c.of_eq
          h1 rfl rfl rfl rfl)

theorem OutClosed.after_loadLeaves (c : OutClosed P) (n k a) (s : State) (h : P s) : P (loadLeaves n k a s).final := by
  induction n generalizing k a s with
  | zero => exact h
  | succ n ih =>
      exact Run.final_andThen (P := P) (c.after_memRead h a) fun b s1 h1 => ih _ _ _ (c.of_eq
          h1 rfl rfl rfl rfl)

theorem OutClosed.after_stageFscan (c : OutClosed P) {s} (h : P s) : P (stageFscan s).final :=
  Run.final_andThen (P := P) (c.after_openStage h _) fun _ s1 h1 => Run.final_andThen (P :=
      P) (c.after_scanBytes _ _ _ (c.of_eq h1 rfl rfl rfl rfl)) fun _ s2 h2 =>
      c.of_eq h2 rfl rfl rfl rfl

theorem OutClosed.after_stageTbuild (c : OutClosed P) {s} (h : P s) : P (stageTbuild s).final := by
  refine Run.final_andThen (P := P) (c.after_openStage h _) fun _ s1 h1 => ?_
  split
  · exact c.after_faultEntry h1 _ _
  · split
    · exact c.of_eq h1 rfl rfl rfl rfl
    · exact c.after_faultEntry h1 _ _

theorem OutClosed.after_stageCbuild (c : OutClosed P) {s} (h : P s) : P (stageCbuild s).final :=
  Run.final_andThen (P := P) (c.after_openStage h _) fun _ s1 h1 => c.of_eq h1 rfl rfl rfl rfl

theorem OutClosed.after_stageTser (c : OutClosed P) {s} (h : P s) : P (stageTser s).final :=
  Run.final_andThen (P := P) (c.after_openStage h _) fun _ s1 h1 => c.of_eq h1 rfl rfl rfl rfl

theorem OutClosed.after_stageHemit (c : OutClosed P) {s} (h : P s) : P (stageHemit s).final :=
  Run.final_andThen (P := P) (c.after_openStage h _) fun _ s1 h1 => Run.final_andThen (P :=
      P) (c.after_emitAll (c.restart h1) _) fun _ s2 h2 => c.after_closeStage h2 _

theorem OutClosed.after_stagePack (c : OutClosed P) {s} (h : P s) : P (stagePack s).final := by
  refine Run.final_andThen (P := P) (c.after_openStage h _) fun _ s1 h1 => ?_
  split
  · exact c.after_faultEntry h1 _ _
  · exact Run.final_andThen (P := P) (c.after_packBytes _ _ _ _ h1) fun _ s2 h2 =>
        c.after_closeStage h2 _

theorem OutClosed.after_stageUnpack (c : OutClosed P) {s} (h : P s) : P (stageUnpack s).final :=
  Run.final_andThen (P := P) (c.after_openStage h _) fun _ s1 h1 => Run.final_andThen (P :=
      P) (c.after_unpackBytes _ _ _ _ (c.restart h1)) fun _ s2 h2 =>
      c.after_closeStage h2 _

theorem OutClosed.after_stageTdes (c : OutClosed P) {s} (h : P s) : P (stageTdes s).final := by
  refine Run.final_andThen (P := P) (c.after_openStage h _) fun _ s1 h1 => ?_
  split
  · exact c.after_faultEntry h1 _ _
  · split
    · exact c.after_faultEntry h1 _ _
    · split
      · exact c.after_faultEntry h1 _ _
      · exact c.of_eq h1 rfl rfl rfl rfl

theorem OutClosed.after_stageHparse (c : OutClosed P) {s} (h : P s) : P (stageHparse s).final := by
  refine Run.final_andThen (P := P) (c.after_openStage h _) fun _ s1 h1 => ?_
  split
  · exact c.after_faultEntry h1 _ _
  · have : P (readBytes Config.hdrBytes 0 s1).final := by
      rcases readBytes_cases Config.hdrBytes 0 s1 with he | ⟨x, _, _, he⟩ <;> rw [he]
      · exact h1
      · exact c.after_faultEntry h1 _ _
    refine Run.final_andThen (P := P) this fun b s2 h2 => ?_
    have h3 : P (setHeader b s2) := c.of_eq h2 rfl rfl rfl rfl
    generalize setHeader b s2 = s3 at h3
    simp only [parseTree]
    split
    · exact c.after_faultEntry h3 _ _
    · split
      · exact c.after_faultEntry h3 _ _
      · split
        · exact c.after_faultEntry h3 _ _
        · exact Run.final_andThen (P := P) (c.after_loadShape _ _ _ _ h3) fun _ s4 h4 =>
              Run.final_andThen (P := P) (c.after_loadLeaves _ _ _ _ h4) fun _ s5 h5 =>
              c.of_eq h5 rfl rfl rfl rfl

/-- Every stage body keeps such a predicate. -/
theorem OutClosed.after_stageBody (c : OutClosed P) (g : Stage) (s : State) (h : P s) : P (stageBody g s).final := by
  cases g
  case fscan => exact c.after_stageFscan h
  case tbuild => exact c.after_stageTbuild h
  case cbuild => exact c.after_stageCbuild h
  case tser => exact c.after_stageTser h
  case hemit => exact c.after_stageHemit h
  case pack => exact c.after_stagePack h
  case hparse => exact c.after_stageHparse h
  case tdes => exact c.after_stageTdes h
  case unpack => exact c.after_stageUnpack h

/-- Every command keeps such a predicate. -/
theorem OutClosed.after_exec (c : OutClosed P) {i : Instr} {s t : State} (h : P s) (he : exec i s = .next t) : P t :=
  exec_keeps (fun _ _ _ _ h => c.of_eq h rfl rfl rfl rfl) c.after_stageBody
    (fun _ h => c.of_eq (c.restart h) rfl rfl rfl rfl) h he

/-! ### The memory invariant, and what is listed stays listed -/

theorem MemoryInv.of_eq {s t : State} (h : MemoryInv s) (h1 : t.inMem = s.inMem) (h2 : t.outMem = s.outMem) (h3 :
    t.outLen = s.outLen) (h4 : t.platform = s.platform) : MemoryInv t :=
  ⟨h1 ▸ h.inWf, h2 ▸ h.outWf, by rw [h3, h4]; exact h.outCap, by rw [h2, h3]; exact h.written⟩

theorem MemoryInv.emitted {s : State} (h : MemoryInv s) (bs : ByteSeq) (hw : s.outWritable s.outLen.toNat
    (s.outLen.toNat + bs.length)) : MemoryInv (s.emitted bs) := by
  have hlt := s.outWritable_lt hw s.outLen.isLt (by omega)
  have hl := s.outLen_emitted bs hlt
  refine ⟨h.inWf, Memory.wf_writeAll h.outWf _ _, ?_, ?_⟩
  · rw [hl]
    rcases Nat.eq_zero_or_pos bs.length with h0 | h0
    · rw [h0]; exact h.outCap
    · have := (hw (s.outLen.toNat + bs.length - 1) (by omega) (by omega)).1
      show _ ≤ s.platform.outCap.toNat
      omega
  · intro a ha
    rw [hl] at ha
    show ((s.outMem.writeAll _ bs).read? a).isSome = true
    rw [Memory.read?_writeAll]
    split
    · rw [List.getElem?_eq_getElem (by omega)]; rfl
    · exact h.written a (by omega)

/-- MemoryInv is such a predicate. -/
theorem MemoryInv.outClosed : OutClosed MemoryInv where
  of_eq := MemoryInv.of_eq
  emitted h bs hw := MemoryInv.emitted h bs hw
  restart h := ⟨h.inWf, h.outWf, by simp, by simp⟩

/-- What OUT lists at the start, it lists after every command. -/
theorem outListed_outClosed (s₀ : State) :
    OutClosed fun t => ∀ a, (s₀.outMem.read? a).isSome = true → (t.outMem.read? a).isSome = true where
  of_eq h _ h2 _ _ a ha := by rw [h2]; exact h a ha
  emitted {s} h bs _ a ha := by
    show ((s.outMem.writeAll _ bs).read? a).isSome = true
    rw [Memory.read?_writeAll]
    split
    · rw [List.getElem?_eq_getElem (by omega)]; rfl
    · exact h a ha
  restart h := h

/-! ### What the flags promise -/

def quietParts : List Part := [.outMem, .outLen, .busy, .done, .err, .phase, .errCode, .errInfo, .inLen, .inMem,
    .host, .hostRead, .draws, .platform]

/-- The data the flags speak of is the same. -/
structure SameData (s t : State) : Prop where
  freq : t.freq = s.freq
  code : t.code = s.code
  shape : t.shape = s.shape
  leaves : t.leaves = s.leaves
  tree : t.tree = s.tree
  orig : t.origSize = s.origSize
  sbl : t.shapeBitLen = s.shapeBitLen
  sByl : t.shapeByteLen = s.shapeByteLen
  lc : t.leafCount = s.leafCount
  po : t.payloadOff = s.payloadOff

theorem DataInv.of_same {s t : State} (h : DataInv s) (hS : SameData s t) (hf : FlagInv t)
   (h1 : t.status.freqV = true → s.status.freqV = true) (h2 : t.status.treeV = true → s.status.treeV = true) (h3 :
       t.status.codeV = true → s.status.codeV = true)
   (h4 : t.status.serV = true → s.status.serV = true) (h6 : t.status.parsed = true → s.status.parsed = true) :
       DataInv t := by
  refine ⟨hf, by rw [hS.tree]; exact h.capacity, ?_, ?_, ?_, ?_, ?_, ?_⟩
  · intro hh; rw [hS.sbl, hS.sByl, hS.lc]; exact h.lengths (h4 hh)
  · intro hh; rw [State.total_congr hS.freq, hS.orig]; exact h.counted (h1 hh)
  · intro a b; rw [State.builtTree_congr hS.freq, hS.tree]; exact h.built (h1 a) (h2 b)
  · intro a; rw [hS.code, hS.tree]; exact h.table (h3 a)
  · intro a b
    obtain ⟨x, hx, hy⟩ := h.serialized (h1 a) (h4 b)
    exact ⟨x, (State.builtTree_congr hS.freq).trans hx, hy.congr hS.shape.symm hS.leaves.symm hS.sbl.symm
        hS.sByl.symm hS.lc.symm⟩
  · intro a; rw [hS.po]; exact h.payload (h6 a)

theorem SameData.of_frame {w : List Part} {s t : State} (h : Frame w s t) (hw : ∀ p ∈ w, p ∈ Part.hdrw :: quietParts)
    : SameData s t := by
  have : ∀ p, p ∉ Part.hdrw :: quietParts → p.same s t := fun p hp => h p fun hm => hp (hw p hm)
  exact ⟨freq_of_same (this .freq (by decide)), code_of_same (this .code (by decide)), shape_of_same (this .shape (by
      decide)), leaves_of_same (this .leaves (by decide)),
    this .tree (by decide), this .origSize (by decide), this .shapeBitLen (by decide), this .shapeByteLen (by
        decide), this .leafCount (by decide), this .payloadOff (by decide)⟩

theorem DataInv.of_frame {w : List Part} {s t : State} (hd : DataInv s) (h : Frame w s t) (hw : ∀ p ∈ w, p ∈
    Part.hdrw :: quietParts)
   (hh : t.status.hdrw = true → s.status.freqV = true ∧ s.status.serV = true) : DataInv t := by
  have := SameData.of_frame h hw
  have hp : ∀ p, p ∉ Part.hdrw :: quietParts → p.same s t := fun p hp => h p fun hm => hp (hw p hm)
  have e1 : t.status.freqV = s.status.freqV := hp .freqV (by decide)
  have e2 : t.status.treeV = s.status.treeV := hp .treeV (by decide)
  have e3 : t.status.codeV = s.status.codeV := hp .codeV (by decide)
  have e4 : t.status.serV = s.status.serV := hp .serV (by decide)
  have e5 : t.status.parsed = s.status.parsed := hp .parsed (by decide)
  refine DataInv.of_same hd this ⟨?_, ?_, ?_⟩ (e1 ▸ id) (e2 ▸ id) (e3 ▸ id) (e4 ▸ id) (e5 ▸ id)
  · rw [e1, e5]; exact hd.flags.notBoth
  · intro h; rw [e1, e4]; exact hh h
  · rw [e2, e3]; exact hd.flags.table

theorem DataInv.of_quiet {w : List Part} {s t : State} (hd : DataInv s) (h : Frame w s t) (hw : ∀ p ∈ w, p ∈
    quietParts) : DataInv t :=
  DataInv.of_frame hd h (fun p hp => List.mem_cons_of_mem _ (hw p hp)) (by
    have : t.status.hdrw = s.status.hdrw := h .hdrw (fun hm => absurd (hw _ hm) (by decide))
    rw [this]; exact hd.flags.header)
theorem DataInv.after_fault {s : State} (h : DataInv s) (c i) : DataInv (faultEntry c i s) := DataInv.of_quiet h
    (faultEntry_frame c i s) (by decide)

theorem DataInv.of_no_flag {t : State} (hc : t.tree.leaves.length ≤ 256) (h1 : t.status.freqV = false) (h2 :
    t.status.treeV = false) (h3 : t.status.codeV = false) (h4 : t.status.serV = false) (h5 : t.status.hdrw = false)
    (h6 : t.status.parsed = false) : DataInv t := by
  refine ⟨⟨?_, ?_, ?_⟩, hc, ?_, ?_, ?_, ?_, ?_, ?_⟩ <;> simp [h1, h2, h3, h4, h5, h6]

theorem DataInv.after_fscan {s : State} (h : DataInv s) : DataInv (stageFscan s).final := by
  rcases stageFscan_cases s with ⟨_, he⟩ | ⟨a, _, _, _, he⟩ <;> rw [he]
  · refine ⟨⟨?_, ?_, ?_⟩, h.capacity, ?_, ?_, ?_, ?_, ?_, ?_⟩
    · simp [Stage.sets, Stage.clears]
    · simp [Stage.sets, Stage.clears]
    · simp [Stage.sets, Stage.clears]
    · simp [Stage.sets, Stage.clears]
    · exact fun _ => s.total_counted
    · simp [Stage.sets, Stage.clears]
    · simp [Stage.sets, Stage.clears]
    · simp [Stage.sets, Stage.clears]
    · simp [Stage.sets, Stage.clears]
  · exact DataInv.after_fault (s := { s with freq := _, status := Stage.clears .fscan s.status }) (DataInv.of_no_flag
        h.capacity rfl rfl rfl rfl rfl rfl) _ _

theorem DataInv.after_tbuild {s : State} (h : DataInv s) : DataInv (stageTbuild s).final := by
  rcases stageTbuild_cases s with ⟨_, he⟩ | ⟨hf, _, he⟩ | ⟨hf, hd, t, ht, he⟩ <;> rw [he]
  · exact DataInv.after_fault h _ _
  · refine DataInv.after_fault (s := { s with status := Stage.clears .tbuild s.status }) (DataInv.of_same h ⟨rfl,
        rfl, rfl, rfl, rfl, rfl, rfl, rfl, rfl, rfl⟩ ⟨?_, ?_, ?_⟩ id ?_ ?_ ?_ ?_) _ _ <;> simp [Stage.clears]
  · obtain ⟨t', ht', hp, _⟩ := s.builtTree_spec (by rw [s.length_symbols]; omega)
    rw [ht] at ht'; cases ht'
    refine ⟨⟨?_, ?_, ?_⟩, ?_, ?_, fun _ => h.counted hf, ?_, ?_, ?_, ?_⟩
    · simp [Stage.sets, Stage.clears]
    · simp [Stage.sets, Stage.clears]
    · simp [Stage.sets, Stage.clears]
    · show t.leaves.length ≤ 256
      rw [hp.length_eq, s.length_symbols, State.distinct]
      exact (List.length_filter_le _ _).trans (by simp)
    · simp [Stage.sets, Stage.clears]
    · intro _ _; exact by refine Eq.trans ?_ ht; exact State.builtTree_congr rfl
    · simp [Stage.sets, Stage.clears]
    · simp [Stage.sets, Stage.clears]
    · simp [Stage.sets, Stage.clears]

theorem DataInv.after_cbuild {s : State} (h : DataInv s) : DataInv (stageCbuild s).final := by
  cases ht : s.status.treeV with
  | false => rw [stageCbuild_sequence ht]; exact DataInv.after_fault h _ _
  | true =>
    rw [stageCbuild_ok ht]
    refine ⟨⟨h.flags.notBoth, h.flags.header, fun _ => ht⟩, h.capacity, h.lengths, h.counted, ?_, ?_, ?_, h.payload⟩
    · intro a b; refine Eq.trans ?_ (h.built a b); exact State.builtTree_congr rfl
    · intro _; rfl
    · intro a b
      obtain ⟨x, hx, hy⟩ := h.serialized a b
      exact ⟨x, by refine Eq.trans ?_ hx; exact State.builtTree_congr rfl, hy.congr rfl rfl rfl rfl rfl⟩

theorem DataInv.after_tser {s : State} (h : DataInv s) : DataInv (stageTser s).final := by
  cases ht : s.status.treeV with
  | false => rw [stageTser_sequence ht]; exact DataInv.after_fault h _ _
  | true =>
    rw [stageTser_ok ht]
    obtain ⟨hS, e1, e2, e3⟩ := s.serialized_spec h.capacity
    have hfit := Tree.shape_fits h.capacity
    refine ⟨⟨h.flags.notBoth, ?_, h.flags.table⟩, h.capacity, ?_, h.counted, ?_, h.table, ?_, h.payload⟩
    · simp [Stage.sets, Stage.clears]
    · intro _
      show s.serialized.shapeBitLen.toNat ≤ 511 ∧ s.serialized.leafCount.toNat ≤ 256 ∧ s.serialized.shapeBitLen.toNat
          ≤ 8 * s.serialized.shapeByteLen.toNat
      rw [e1, e2, e3]
      exact ⟨hfit.1, h.capacity, ceil8_mul_ge _⟩
    · intro a b; refine Eq.trans ?_ (h.built a b); exact State.builtTree_congr rfl
    · intro a _
      exact ⟨s.tree, by refine Eq.trans ?_ (h.built a ht); exact State.builtTree_congr rfl, hS.congr rfl rfl rfl rfl
          rfl⟩

theorem DataInv.after_tdes {s : State} (h : DataInv s) : DataInv (stageTdes s).final := by
  cases ht : s.status.serV with
  | false => rw [stageTdes_sequence ht]; exact DataInv.after_fault h _ _
  | true =>
    have hcl : DataInv { s with status := Stage.clears .tdes s.status } :=
      DataInv.of_same h ⟨rfl, rfl, rfl, rfl, rfl, rfl, rfl, rfl, rfl, rfl⟩ ⟨h.flags.notBoth, h.flags.header, by simp
          [Stage.clears]⟩ id (by simp [Stage.clears]) (by simp [Stage.clears]) id id
    rw [stageTdes_eq ht]
    split
    · rename_i hcap
      have hspec := des_spec s s.shapeBitLen.toNat 0 0 (by omega) (by omega) (by omega)
      split
      · exact DataInv.after_fault hcl _ _
      · rename_i t sp lp hdes
        rw [hdes] at hspec
        split
        · rename_i hu
          obtain ⟨_, h2, _, _, h5, h6⟩ := hspec
          have z1 : s.shapeSeq.drop sp = [] := List.drop_of_length_le (by simp; omega)
          have z2 : s.leafSeq.drop lp = [] := List.drop_of_length_le (by simp; omega)
          rw [z1, List.append_nil, List.drop_zero] at h5
          rw [z2, List.append_nil, List.drop_zero] at h6
          refine ⟨⟨h.flags.notBoth, h.flags.header, by simp [Stage.sets, Stage.clears]⟩, ?_, h.lengths, h.counted,
              ?_, by simp [Stage.sets, Stage.clears], ?_, h.payload⟩
          · show t.leaves.length ≤ _
            have := hcap.2
            omega
          · intro a _
            obtain ⟨x, hx, hy⟩ := h.serialized a ht
            have : t = x := Tree.eq_of_shapeBits_leaves t x (by rw [← h5, hy.shape]) (by rw [← h6, hy.leaves])
            rw [this]
            refine Eq.trans ?_ hx; exact State.builtTree_congr rfl
          · intro a b
            obtain ⟨x, hx, hy⟩ := h.serialized a b
            exact ⟨x, by refine Eq.trans ?_ hx; exact State.builtTree_congr rfl, hy.congr rfl rfl rfl rfl rfl⟩
        · exact DataInv.after_fault hcl _ _
    · exact DataInv.after_fault hcl _ _

theorem DataInv.after_hemit {s : State} (h : DataInv s) : DataInv (stageHemit s).final := by
  have hfr := stageHemit_frame s
  cases hr : Stage.requires .hemit s.status with
  | false =>
    simp only [stageHemit]; rw [openStage_fault hr]; exact DataInv.after_fault h _ _
  | true =>
    simp only [Stage.requires, Bool.and_eq_true] at hr
    exact DataInv.of_frame h hfr (by decide) fun _ => ⟨hr.2, hr.1⟩
theorem DataInv.after_pack {s : State} (h : DataInv s) : DataInv (stagePack s).final := by
  simp only [stagePack]
  cases hr : Stage.requires .pack s.status with
  | false => rw [openStage_fault hr]; exact DataInv.after_fault h _ _
  | true =>
    rw [openStage_ok hr, Run.andThen_ok]
    have hcl : DataInv { s with status := Stage.clears .pack s.status } :=
      DataInv.of_same h ⟨rfl, rfl, rfl, rfl, rfl, rfl, rfl, rfl, rfl, rfl⟩ ⟨h.flags.notBoth, by simp [Stage.clears],
          h.flags.table⟩ id id id id id
    split
    · exact DataInv.after_fault hcl _ _
    · exact Run.final_andThen (P := DataInv) (DataInv.of_quiet hcl (packBytes_frame _ _ _ _) (by decide)) fun _ s2 h2
          => h2
theorem DataInv.after_unpack {s : State} (h : DataInv s) : DataInv (stageUnpack s).final := by
  simp only [stageUnpack]
  cases hr : Stage.requires .unpack s.status with
  | false => rw [openStage_fault hr]; exact DataInv.after_fault h _ _
  | true =>
    rw [openStage_ok hr, Run.andThen_ok]
    exact Run.final_andThen (P := DataInv) (DataInv.of_quiet (DataInv.of_quiet h (restart_frame _) (by decide))
        (unpackBytes_frame _ _ _ _) (by decide)) fun _ s2 h2 => h2
def NoFlags (t : State) : Prop := t.tree.leaves.length ≤ 256 ∧ t.status.freqV = false ∧ t.status.treeV = false ∧
    t.status.codeV = false ∧ t.status.serV = false ∧ t.status.hdrw = false ∧ t.status.parsed = false
theorem NoFlags.of_frame {w : List Part} {s t : State} (h : NoFlags s) (hf : Frame w s t) (hw : ∀ p ∈ w, p ∉
    [Part.tree, .freqV, .treeV, .codeV, .serV, .hdrw, .parsed]) : NoFlags t := by
  have hp : ∀ p, p ∈ [Part.tree, .freqV, .treeV, .codeV, .serV, .hdrw, .parsed] → p.same s t := fun p hp => hf p fun
      hm => hw p hm hp
  refine ⟨?_, ?_, ?_, ?_, ?_, ?_, ?_⟩
  · have : t.tree = s.tree := hp .tree (by decide)
    rw [this]; exact h.1
  · exact (show t.status.freqV = s.status.freqV from hp .freqV (by decide)).trans h.2.1
  · exact (show t.status.treeV = s.status.treeV from hp .treeV (by decide)).trans h.2.2.1
  · exact (show t.status.codeV = s.status.codeV from hp .codeV (by decide)).trans h.2.2.2.1
  · exact (show t.status.serV = s.status.serV from hp .serV (by decide)).trans h.2.2.2.2.1
  · exact (show t.status.hdrw = s.status.hdrw from hp .hdrw (by decide)).trans h.2.2.2.2.2.1
  · exact (show t.status.parsed = s.status.parsed from hp .parsed (by decide)).trans h.2.2.2.2.2.2
theorem NoFlags.dataInv {t : State} (h : NoFlags t) : DataInv t := DataInv.of_no_flag h.1 h.2.1 h.2.2.1 h.2.2.2.1
    h.2.2.2.2.1 h.2.2.2.2.2.1 h.2.2.2.2.2.2
theorem DataInv.after_parse {s3 : State} (h3 : NoFlags s3) : DataInv (parseTree s3).final := by
  have hf : ∀ c i u, NoFlags u → DataInv (faultEntry c i u) := fun c i u hu => NoFlags.dataInv (NoFlags.of_frame hu
      (faultEntry_frame _ _ _) (by decide))
  simp only [parseTree]
  split
  · exact hf _ _ _ h3
  · rename_i g1
    split
    · exact hf _ _ _ h3
    · rename_i g2
      split
      · exact hf _ _ _ h3
      · rcases loadShape_cases (ceil8 s3.shapeBitLen.toNat) 0 Config.hdrBytes s3 with ⟨_, he⟩ | ⟨j, _, _, he⟩ <;> rw
            [he]
        · rw [Run.andThen_ok]
          rcases loadLeaves_cases s3.leafCount.toNat 0 (Config.hdrBytes + s3.shapeByteLen.toNat) { s3 with
              shape := overwrite 0 (s3.inSeq Config.hdrBytes (ceil8 s3.shapeBitLen.toNat)) s3.shape } with ⟨_, he⟩ |
                  ⟨j, _, _,
              he⟩
          · have he' := congrArg (fun r => Run.final (Run.andThen r fun _ s => closeStage .hparse
              { s with payloadOff := BitVec.ofNat 64 s.treeEnd })) he
            refine (congrArg DataInv he').mpr ?_
            simp only [Run.andThen_ok]
            have b1 := s3.shapeByteLen.isLt
            simp only [not_not, Config.maxShapeBits, Config.maxLeaves] at g1 g2
            refine ⟨⟨?_, ?_, ?_⟩, h3.1, ?_, ?_, ?_, ?_, ?_, ?_⟩
            · simp [closeStage, Stage.sets, h3.2.1]
            · simp [closeStage, Stage.sets, h3.2.2.2.2.2.1]
            · simp [closeStage, Stage.sets, h3.2.2.2.1]
            · intro _; exact ⟨g2.1, g2.2, g1⟩
            · simp [closeStage, Stage.sets, h3.2.1]
            · simp [closeStage, Stage.sets, h3.2.1]
            · simp [closeStage, Stage.sets, h3.2.2.2.1]
            · simp [closeStage, Stage.sets, h3.2.1]
            · intro _
              show 14 ≤ (BitVec.ofNat 64 (State.treeEnd _)).toNat ∧ (BitVec.ofNat 64 (State.treeEnd _)).toNat ≤ 65805
              simp only [State.treeEnd, Config.hdrBytes, BitVec.toNat_ofNat]
              omega
          · have he' := congrArg (fun r => Run.final (Run.andThen r fun _ s => closeStage .hparse
              { s with payloadOff := BitVec.ofNat 64 s.treeEnd })) he
            refine (congrArg DataInv he').mpr ?_
            exact hf _ _ _ h3
        · exact hf _ _ _ h3
theorem DataInv.after_hparse {s : State} (h : DataInv s) : DataInv (stageHparse s).final := by
  have hopen : openStage .hparse s = .ok () { s with status := Stage.clears .hparse s.status } := rfl
  simp only [stageHparse, hopen, Run.andThen_ok]
  have h0 : NoFlags { s with status := Stage.clears .hparse s.status } := ⟨h.capacity, rfl, rfl, rfl, rfl, rfl, rfl⟩
  split
  · exact NoFlags.dataInv (NoFlags.of_frame h0 (faultEntry_frame _ _ _) (by decide))
  · rcases readBytes_cases Config.hdrBytes 0 { s with status := Stage.clears .hparse s.status } with he | ⟨x, _, _,
        he⟩ <;> rw [he]
    · rw [Run.andThen_ok]
      exact DataInv.after_parse h0
    · exact NoFlags.dataInv (NoFlags.of_frame h0 (faultEntry_frame _ _ _) (by decide))

end Sys2Proof.Machine
end

