-- ==== Sys2Proof/Laws/PerInstr.lean ====
section
/-! SUPPORT. What is said of every command as syntax, one lemma a constructor: its fields are well formed, and
its word is the three fields of format C side by side (30_encoding.md R85, R87). -/

namespace Sys2Proof.Laws

/-- 30_encoding.md R85 and R87: the command is one of the thirteen, and its word is its fields. -/
def FormatC.Statement (i : Instr) : Prop := i.wellFormed = true ∧ encode i = i.fields.toWord

theorem FormatC.nop : FormatC.Statement .nop := ⟨rfl, rfl⟩
theorem FormatC.clr : FormatC.Statement .clr := ⟨rfl, rfl⟩
theorem FormatC.fscan : FormatC.Statement .fscan := ⟨rfl, rfl⟩
theorem FormatC.tbuild : FormatC.Statement .tbuild := ⟨rfl, rfl⟩
theorem FormatC.cbuild : FormatC.Statement .cbuild := ⟨rfl, rfl⟩
theorem FormatC.tser : FormatC.Statement .tser := ⟨rfl, rfl⟩
theorem FormatC.hemit : FormatC.Statement .hemit := ⟨rfl, rfl⟩
theorem FormatC.pack : FormatC.Statement .pack := ⟨rfl, rfl⟩
theorem FormatC.compress : FormatC.Statement .compress := ⟨rfl, rfl⟩
theorem FormatC.hparse : FormatC.Statement .hparse := ⟨rfl, rfl⟩
theorem FormatC.tdes : FormatC.Statement .tdes := ⟨rfl, rfl⟩
theorem FormatC.unpack : FormatC.Statement .unpack := ⟨rfl, rfl⟩
theorem FormatC.decompress : FormatC.Statement .decompress := ⟨rfl, rfl⟩

end Sys2Proof.Laws
end

