-- ==== Sys2Proof/Tests/Slice0.lean ====
section
/-! SUPPORT. The model's own tests. Expected values are those of spec/95_test_vectors.md and of the worked
examples in the rules; the source of each is named. After them, for every obligation with hypotheses, a
witness: a concrete state and operands that meet them together. -/

namespace Sys2Proof.Tests

open Sys2Proof Sys2Proof.Machine

set_option Elab.async false

/-! ### Small states -/

/-- The state of an outcome, if it is a next state. -/
def next? : Host.Outcome State Fault Refusal → Option State
  | .next t => some t
  | _ => none

/-- Bytes listed from address `a` on. -/
def cellsAt : Nat → List Nat → Memory
  | _, [] => []
  | a, b :: bs => (a, BitVec.ofNat 8 b) :: cellsAt (a + 1) bs

/-- `LOAD IN` (R91) after reset. -/
def loaded (bs : List Nat) : State :=
  { State.reset with inMem := cellsAt 0 bs, inLen := BitVec.ofNat 64 bs.length }

/-- The state after commands, `State.reset` if there is none. -/
def ran (is : List Instr) (s : State) : State := (next? (runCommands is s)).getD State.reset

/-- STATUS, ERRCODE, ERRINFO, OUT_LEN as numbers. -/
def record (s : State) : Nat × Nat × Nat × Nat :=
  (s.status.toWord.toNat, s.errCode.toNat, s.errInfo.toNat, s.outLen.toNat)

/-- The bytes OUT lists, as numbers. -/
def outBytes (s : State) : List Nat := s.outMem.map fun c => c.2.toNat

/-- Header bytes, `H(s, b, y, l)` of 95_test_vectors.md, for sizes below 256. -/
def hdr (s b y l : Nat) : List Nat := [0, 0, 0, 0, 0, 0, 0, s, b / 256, b % 256, y / 256, y % 256, l / 256, l % 256]

/-- V1's source. -/
def v1 : List Nat := [0x41, 0x41, 0x41, 0x42, 0x42, 0x43]

/-- V1's container. -/
def v1c : List Nat := hdr 6 5 1 3 ++ [0xA0, 0x41, 0x43, 0x42, 0x1F, 0x00]

/-- V1's tree. -/
def v1tree : Tree := .node (.leaf 0x41) (.node (.leaf 0x43) (.leaf 0x42))

/-- V8's source, "abracadabra". -/
def v8 : List Nat := [0x61, 0x62, 0x72, 0x61, 0x63, 0x61, 0x64, 0x61, 0x62, 0x72, 0x61]

/-- V8's tree. -/
def v8tree : Tree := .node (.leaf 0x61) (.node (.node (.leaf 0x63) (.leaf 0x64)) (.node (.leaf 0x62) (.leaf 0x72)))

/-- V1 after FSCAN, as 95_test_vectors.md 2.2 gives it. -/
def scanned1 : State :=
  { loaded v1 with
    freq := ((State.reset.freq.set 0x41 3).set 0x42 2).set 0x43 1
    origSize := 6
    status := { Status.zero with done := true, freqV := true } }

/-- V1 after FSCAN, TBUILD and CBUILD, its tree as the vector gives it. -/
def coded1 : State :=
  { scanned1 with
    tree := v1tree
    code := codeTable v1tree
    status := { Status.zero with done := true, freqV := true, treeV := true, codeV := true } }

/-- And after TSER. -/
def serialized1 : State :=
  { coded1 with
    shape := State.reset.shape.set 0 0xA0
    leaves := ((State.reset.leaves.set 0 0x41).set 1 0x43).set 2 0x42
    shapeBitLen := 5
    shapeByteLen := 1
    leafCount := 3
    status := { coded1.status with serV := true } }

/-- And after HEMIT: V1 just before PACK. -/
def packing : State :=
  { serialized1 with
    outMem := cellsAt 0 (v1c.take 18)
    outLen := 18
    status := { serialized1.status with hdrw := true } }

/-- V1 after COMPRESS (P1). -/
def finished1 : State := { serialized1 with outMem := cellsAt 0 v1c, outLen := 20 }

/-- V8 after FSCAN, TBUILD and CBUILD; FREQ is of no matter to the stages after them. -/
def coded8 : State :=
  { loaded v8 with
    origSize := 11
    tree := v8tree
    code := codeTable v8tree
    status := { Status.zero with done := true, freqV := true, treeV := true, codeV := true } }

/-- V2 (P3): COMPRESS of one byte has been rejected. -/
def rejected : State :=
  { loaded [0x41] with
    freq := State.reset.freq.set 0x41 1
    origSize := 1
    errCode := 0x10
    errInfo := 1
    status := { Status.zero with err := true, phase := 2, freqV := true } }

/-! ### Decoding: words written out from the table of 30_encoding.md R87 -/

/-- A word from its 8 opcode bits, bit 7 first; bits 31 to 8 are 0 (R85). -/
def wordOf (b7 b6 b5 b4 b3 b2 b1 b0 : Bool) : Word32 :=
  (0 : BitVec 24) ++ BitVec.ofBool b7 ++ BitVec.ofBool b6 ++ BitVec.ofBool b5 ++ BitVec.ofBool b4
    ++ BitVec.ofBool b3 ++ BitVec.ofBool b2 ++ BitVec.ofBool b1 ++ BitVec.ofBool b0

theorem test_decode_control :
    decode? (wordOf false false false false false false false false) = some .nop ∧
    decode? (wordOf false false false false false false false true) = some .clr := by decide

theorem test_decode_encoder_path :
    decode? (wordOf false false false true false false false false) = some .fscan ∧
    decode? (wordOf false false false true false false false true) = some .tbuild ∧
    decode? (wordOf false false false true false false true false) = some .cbuild ∧
    decode? (wordOf false false false true false false true true) = some .tser ∧
    decode? (wordOf false false false true false true false false) = some .hemit ∧
    decode? (wordOf false false false true false true false true) = some .pack ∧
    decode? (wordOf false false false true true true true true) = some .compress := by decide

theorem test_decode_decoder_path :
    decode? (wordOf false false true false false false false false) = some .hparse ∧
    decode? (wordOf false false true false false false false true) = some .tdes ∧
    decode? (wordOf false false true false false false true false) = some .unpack ∧
    decode? (wordOf false false true false true true true true) = some .decompress := by decide

/-- R89: the ends of every illegal range, and high bits. -/
theorem test_decode_illegal_bounds :
    ([0x02, 0x0F, 0x16, 0x1E, 0x23, 0x2E, 0x30, 0xFF, 0x100, 0x110, 0x80000000, 0xFFFFFFFF] : List Word32).all
      (fun w => (decode? w).isNone) = true := by decide

/-- R89: by name. -/
theorem test_decode_illegal_names :
    decode 0x16 = .error .reservedOpcode ∧ decode 0x110 = .error .highBits := ⟨rfl, rfl⟩

/-- Fields and words agree (R85). -/
theorem test_encode_fields : Instr.all.all (fun i => encode i == i.fields.toWord) = true := by decide

theorem test_decodeTableWord :
    Instr.all.all (fun i => decodeTableWord 32 (encode i).toNat == some i) = true ∧
    decodeTableWord 32 0x16 = none ∧ decodeTableWord 8 0x1F = some .compress := by decide

/-! ### WellFormed refuses an ill-formed term for each check -/

/-- R85: a non-zero bit in 31:8. -/
theorem test_wf_zero : CmdFields.zeroOk ⟨1, 0, 0⟩ = false ∧ CmdFields.wellFormed ⟨1, 0, 0⟩ = false := by decide

/-- R85: group 3 is not assigned. -/
theorem test_wf_group : CmdFields.groupOk ⟨0, 3, 0⟩ = false ∧ CmdFields.wellFormed ⟨0, 3, 0⟩ = false := by decide

/-- R89: 0x02, 0x16, 0x23 are reserved. -/
theorem test_wf_op : CmdFields.opOk ⟨0, 0, 2⟩ = false ∧ CmdFields.opOk ⟨0, 1, 6⟩ = false ∧
    CmdFields.opOk ⟨0, 2, 3⟩ = false ∧ CmdFields.wellFormed ⟨0, 1, 6⟩ = false := by decide

theorem test_wf_all : Instr.all.all Instr.wellFormed = true := by decide

/-! ### The interface -/

/-- Every command runs as the first instruction after reset: it answers a next state with nothing pending, and
STATUS is that of 95_test_vectors.md 2.8 and 2.2 (Sequence for the stages with preconditions; FSCAN of an
empty IN completes; HPARSE of one is HdrEof; COMPRESS of one is InsufficientAlphabet). -/
theorem test_withFetchWord :
    Instr.all.map (fun i => (next? (step (State.reset.withFetchWord 32 (encode i).toNat))).map
      fun t => (t.status.toWord.toNat, t.host.length)) =
    [some (0x000, 0), some (0x000, 0), some (0x102, 0), some (0x024, 0), some (0x034, 0), some (0x044, 0),
      some (0x054, 0), some (0x064, 0), some (0x124, 0), some (0x074, 0), some (0x084, 0), some (0x094, 0),
      some (0x074, 0)] := by decide +kernel

theorem test_reset_memory_canonical : Memory.wf State.reset.inMem = true ∧ Memory.wf State.reset.outMem = true := by
  decide

/-! ### Commands -/

/-- 2.8: NOP after COMPRESS of V1 keeps STATUS = 0x00000F02 (R188, example). -/
theorem test_nop : (next? (exec .nop finished1)).map record = some (0xF02, 0, 0, 20) := by
  decide +kernel

/-- 2.8: CLR in V2's faulted state; IN_LEN is kept. -/
theorem test_clr : (next? (exec .clr rejected)).map (fun t => (record t, t.inLen)) =
    some ((0, 0, 0, 0), 1) := by decide +kernel

/-- 2.2, second row. -/
theorem test_fscan : (next? (exec .fscan (loaded v1))).map (fun t => (record t, t.freqOf 0x41, t.freqOf 0x42,
    t.freqOf 0x43, t.freqOf 0x00, t.origSize)) = some ((0x102, 0, 0, 0), 3, 2, 1, 0, 6) := by decide +kernel

/-- 2.2, last row: in_fault(2). -/
theorem test_fscan_ioread : (next? (exec .fscan { loaded v1 with
    platform := { Platform.unbounded with inFault := [2] } })).map record = some (0x14, 0x30, 2, 0) := by
  decide +kernel

/-- 41_tree_builder.md R127, and P2's STATUS. -/
theorem test_tbuild : (next? (exec .tbuild scanned1)).map (fun t => (record t, t.tree)) =
    some ((0x302, 0, 0, 0), v1tree) := by decide +kernel

/-- 2.3: three equal counts. -/
theorem test_tbuild_ties : (next? (exec .tbuild (ran [.fscan] (loaded [0x41, 0x42, 0x43])))).map State.tree =
    some (.node (.leaf 0x43) (.node (.leaf 0x41) (.leaf 0x42))) := by decide +kernel

/-- V8: code lengths and words through the register map (R42). -/
theorem test_cbuild : (next? (exec .cbuild coded8)).map (fun t =>
    [0x261, 0x262, 0x272, 0x200, 0x400 + 4 * 0x62, 0x400 + 4 * 0x64, 0x401 + 4 * 0x64].map fun n =>
      (readReg n t).hostRead.map BitVec.toNat) =
    some [some 0x101, some 0x103, some 0x103, some 0, some 0xC000000000000000, some 0xA000000000000000, some 0] := by
  decide +kernel

/-- 2.4, last line: the later leaf wins. -/
theorem test_cbuild_repeated_leaf : (next? (exec .cbuild { State.reset with
    tree := .node (.leaf 0x41) (.leaf 0x41), status := { Status.zero with treeV := true } })).map (fun t =>
      ((readReg 0x241 t).hostRead, (readReg (0x400 + 4 * 0x41) t).hostRead)) =
    some (some 0x101, some 0x8000000000000000) := by decide +kernel

/-- 2.5, V8's tree. -/
theorem test_tser : (next? (exec .tser coded8)).map (fun t => (t.shapeByte 0, t.shapeByte 1,
    t.leafSeq, t.shapeBitLen, t.shapeByteLen, t.leafCount)) =
    some (0xB2, 0x00, [0x61, 0x63, 0x64, 0x62, 0x72], 9, 2, 5) := by decide +kernel

/-- 46_container.md R171, example. -/
theorem test_hemit : (next? (exec .hemit (serialized1))).map (fun t =>
    (outBytes t, record t)) = some (hdr 6 5 1 3 ++ [0xA0, 0x41, 0x43, 0x42], (0x1F02, 0, 0, 18)) := by decide +kernel

/-- 2.6: PACK of V8 appends `6E 8A DC`. -/
theorem test_pack : (next? (exec .pack (ran [.tser, .hemit] coded8))).map (fun t =>
    ((outBytes t).drop 21, record t)) = some ([0x6E, 0x8A, 0xDC], (0xF02, 0, 0, 24)) := by decide +kernel

/-- 2.6: PACK after the host replaced IN[3] by 7A. -/
theorem test_pack_nocode : (next? (exec .pack { ran [.tser, .hemit] coded8 with
    inMem := cellsAt 0 [0x61, 0x62, 0x72, 0x7A, 0x63, 0x61, 0x64, 0x61, 0x62, 0x72, 0x61] })).map record =
    some (0xF64, 0x42, 3, 21) := by decide +kernel

/-- V1 (P1). -/
theorem test_compress : (next? (exec .compress (loaded v1))).map (fun t => (outBytes t, record t)) =
    some (v1c, (0xF02, 0, 0, 20)) := by decide +kernel

/-- V2 (P3). -/
theorem test_compress_rejects : (next? (exec .compress (loaded [0x41]))).map record = some (0x124, 0x10, 1, 0) := by
  decide +kernel

/-- D5: a surplus shape byte is skipped. -/
theorem test_hparse : (next? (exec .hparse (loaded (hdr 6 5 2 3 ++ [0xA0, 0xFF, 0x41, 0x43, 0x42, 0x1F, 0x00])))).map
    (fun t => (record t, t.shapeByte 0, t.leafSeq, t.payloadOff, t.origSize)) =
    some ((0x2802, 0, 0, 0), 0xA0, [0x41, 0x43, 0x42], 19, 6) := by decide +kernel

/-- D13c: HdrField is checked before TreeCapacity. -/
theorem test_hparse_order : (next? (exec .hparse (loaded (hdr 6 600 1 300 ++ List.replicate 10 0)))).map record =
    some (0x74, 0x21, 600, 0) := by decide +kernel

/-- 2.5: TDES ignores pad bits (`A7` instead of `A0`). -/
theorem test_tdes : (next? (exec .tdes (ran [.hparse] (loaded (hdr 6 5 1 3 ++ [0xA7, 0x41, 0x43, 0x42]))))).map
    (fun t => (record t, t.tree)) = some ((0x2A02, 0, 0, 0), v1tree) := by decide +kernel

/-- D16. -/
theorem test_tdes_leftover : (next? (exec .tdes (ran [.hparse] (loaded (hdr 1 4 1 2 ++ [0x80, 0x41, 0x42, 0x00]))))).map
    record = some (0x2884, 0x25, 3, 0) := by decide +kernel

/-- D6: the count stops the walk. -/
theorem test_unpack : (next? (exec .unpack (ran [.hparse, .tdes] (loaded (hdr 4 5 1 3 ++
    [0xA0, 0x41, 0x43, 0x42, 0x1F, 0x00]))))).map (fun t => (outBytes t, record t)) =
    some ([0x41, 0x41, 0x41, 0x42], (0x2A02, 0, 0, 4)) := by decide +kernel

/-- D17: a single leaf. -/
theorem test_unpack_absent_child : (next? (exec .unpack (ran [.hparse, .tdes] (loaded (hdr 1 1 1 1 ++
    [0x00, 0x41, 0x00]))))).map record = some (0x2A94, 0x26, 16, 0) := by decide +kernel

/-- D8: a size one too large decodes a pad bit. -/
theorem test_decompress : (next? (exec .decompress (loaded (hdr 7 5 1 3 ++ [0xA0, 0x41, 0x43, 0x42, 0x1F, 0x00])))).map
    (fun t => (outBytes t, record t)) = some ([0x41, 0x41, 0x41, 0x42, 0x42, 0x43, 0x41], (0x2A02, 0, 0, 7)) := by
  decide +kernel

/-- D8c: payload exhaustion. -/
theorem test_decompress_eof : (next? (exec .decompress (loaded (hdr 14 5 1 3 ++
    [0xA0, 0x41, 0x43, 0x42, 0x1F, 0x00])))).map record = some (0x2A94, 0x27, 20, 13) := by decide +kernel

/-- 2.8: IllegalCmd keeps the flags and clears DONE. -/
theorem test_illegal : (next? (accept 0x16 finished1)).map record = some (0xF04, 0x40, 0x16, 20) := by
  decide +kernel

/-- 2.8: a faulted block ignores COMPRESS and does not decode 0xFF. -/
theorem test_faulted : (next? (accept 0x1F rejected)).map record = some (0x124, 0x10, 1, 0) ∧
    (next? (accept 0xFF rejected)).map record = some (0x124, 0x10, 1, 0) := by
  decide +kernel

/-! ### Witnesses: hypotheses of the obligations, met together -/

/-- A write to CMD next. -/
def cmd (v : Word64) (s : State) : State := { s with host := [.writeReg 0x000 v] }

/-- A state of V1's container after the commands listed. -/
def v1cAfter (is : List Instr) : State := ran is (loaded v1c)

/-- A block with every validity flag a read needs, and a running command or not. -/
def flagged (busy : Bool) : State :=
  { State.reset with
    shapeBitLen := 9
    leafCount := 5
    status := ⟨busy, false, false, if busy then 6 else 0, true, true, true, true, false, false⟩ }

theorem illegal_ne (w : Word32) (h : (decode? w).isNone = true) (i : Instr) : encode i ≠ w := by
  intro he
  rw [← he] at h
  cases i <;> simp [decode?, decode, opcodeTable, encode, Except.toOption] at h

theorem witness_IllegalWordRaisesIllegalCmd :
    (cmd 0x16 State.reset).host = [.writeReg 0x000 0x16] ∧ (cmd 0x16 State.reset).status.busy = false ∧
    (cmd 0x16 State.reset).status.err = false ∧ ∀ i, encode i ≠ (0x16 : Word64).setWidth 32 :=
  ⟨rfl, rfl, rfl, illegal_ne _ (by decide)⟩

theorem witness_StepRunsAcceptedCommand :
    decode ((0x1F : Word64).setWidth 32) = .ok .compress ∧ (cmd 0x1F State.reset).status.busy = false ∧
    (cmd 0x1F State.reset).status.err = false := ⟨rfl, rfl, rfl⟩

theorem witness_StepRunsAcceptedCommand_clr :
    decode ((0x1 : Word64).setWidth 32) = .ok .clr ∧ rejected.status.busy = false ∧
    rejected.status.err = true := ⟨rfl, by decide +kernel, by decide +kernel⟩

theorem witness_FaultedBlockAcceptsOnlyClr :
    rejected.status.busy = false ∧ rejected.status.err = true ∧
    (0x1F : Word64).setWidth 32 ≠ (0x1 : Word32) ∧ (0x1 : Word64).setWidth 32 = (0x1 : Word32) := by decide +kernel

theorem witness_BusyBlockIgnoresWritesAndReadsDraws :
    (flagged true).status.busy = true ∧ (regView 0x000 (flagged true)).isSome = true ∧
    (regView 0x9FF (flagged true)).isSome = true := by decide +kernel

theorem witness_WindowsShowTheRegisterFiles :
    (flagged false).status.busy = false ∧ (flagged false).status.freqV = true ∧ (flagged false).status.codeV = true ∧
    (flagged false).status.serV = true ∧ 1 < ceil8 (flagged false).shapeBitLen.toNat ∧
    4 < (flagged false).leafCount.toNat := by decide +kernel

theorem witness_ScalarRegistersRead :
    (flagged false).status.busy = false ∧ (flagged false).status.freqV = true ∧ (flagged false).status.serV = true ∧
    (v1cAfter [.hparse]).status.busy = false ∧ (v1cAfter [.hparse]).status.parsed = true := by decide +kernel

/-- One register number at each end of each clause. -/
theorem witness_MeaninglessReadsAreDraws :
    State.reset.status.busy = false ∧ State.reset.status.freqV = false ∧ State.reset.status.codeV = false ∧
    State.reset.status.serV = false ∧ State.reset.status.parsed = false ∧
    ([0x100, 0x1FF, 0x200, 0x2FF, 0x400, 0x7FF, 0x800, 0x83F, 0x900, 0x9FF, 0x007, 0x009, 0x006, 0x00A].map fun n =>
      (regView n State.reset).map fun r => (r.width, r.meaningful)) =
    [some (64, false), some (64, false), some (9, false), some (9, false), some (64, false), some (64, false),
      some (8, false), some (8, false), some (8, false), some (8, false), some (16, false), some (16, false),
      some (64, false), some (64, false)] := by decide +kernel

/-- The clauses about SHAPE and LEAVES past the recorded lengths, at their first number. -/
theorem witness_MeaninglessReadsAreDraws_past_the_lengths :
    (flagged false).status.busy = false ∧ 0x800 + ceil8 (flagged false).shapeBitLen.toNat = 0x802 ∧
    0x900 + (flagged false).leafCount.toNat = 0x905 ∧
    ([0x801, 0x802, 0x904, 0x905].map fun n => (regView n (flagged false)).map RegView.meaningful) =
      [some true, some false, some true, some false] := by decide +kernel

/-- The ends of the four ranges, and their neighbours. -/
theorem witness_ReservedRegistersReadZero :
    ([0x00B, 0x0FF, 0x300, 0x3FF, 0x840, 0x8FF, 0xA00].map fun n => (regView n State.reset).isSome) =
      [false, false, false, false, false, false, false] ∧
    ([0x00A, 0x100, 0x2FF, 0x400, 0x83F, 0x900, 0x9FF].map fun n => (regView n State.reset).isSome) =
      [true, true, true, true, true, true, true] := by decide +kernel

theorem witness_HostWritesOnlyInLen : State.reset.status.busy = false := rfl

theorem witness_ResetValues :
    ([0x006, 0x00A, 0x100, 0x9FF].map fun n => (regView n State.reset).isSome) = [true, true, true, true] := by
  decide +kernel

theorem witness_ResetClearsTheBlock :
    ({ flagged false with host := [.reset] } : State).host = .reset :: [] := rfl

theorem witness_ResetDuringACommandAbandonsIt :
    (next? (accept ((0x15 : Word64).setWidth 32) packing)).map record = some (0xF02, 0, 0, 20) := by decide +kernel

/-- A platform whose IN and OUT hold 20 bytes, with a failing address 5 in each. -/
def tight : State := { State.reset with platform := ⟨20, 20, [5], [5]⟩ }

theorem witness_MemoriesReturnTheStoredByte :
    tight.platform.inCap.toNat ≤ 20 ∧ 5 ∈ tight.platform.inFault ∧ 19 < tight.platform.inCap.toNat ∧
    19 ∉ tight.platform.inFault := by decide +kernel

/-- The host's clauses, at the last byte of each memory, the last below OUT_LEN, the first above, and past the end. -/
theorem witness_MemoriesReturnTheStoredByte_host :
    tight.status.busy = false ∧ (19 : Word64).toNat < tight.platform.inCap.toNat ∧
    (19 : Word64).toNat < tight.platform.outCap.toNat ∧
    (18 : Word64).toNat < ({ tight with outLen := 19 } : State).outLen.toNat ∧
    ({ tight with outLen := 19 } : State).outLen.toNat ≤ (19 : Word64).toNat ∧
    tight.platform.inCap.toNat ≤ (20 : Word64).toNat ∧ tight.platform.outCap.toNat ≤ (20 : Word64).toNat := by
  decide +kernel

theorem witness_EmitAppendsOneByte :
    tight.platform.outCap.toNat ≤ ({ tight with outLen := 20 } : State).outLen.toNat ∧
    ({ tight with outLen := 5 } : State).outLen.toNat ∈ tight.platform.outFault ∧
    ({ tight with outLen := 19 } : State).outLen.toNat < tight.platform.outCap.toNat ∧
    ({ tight with outLen := 19 } : State).outLen.toNat ∉ tight.platform.outFault := by decide +kernel

theorem witness_FaultEntryWritesTheRecord : 2 ^ 64 - 1 < 2 ^ 64 := by decide

theorem witness_StageOutOfOrderRaisesSequence :
    State.reset.status.freqV = false ∧ State.reset.status.treeV = false ∧ State.reset.status.serV = false ∧
    State.reset.status.codeV = false ∧ State.reset.status.hdrw = false ∧ State.reset.status.parsed = false := by decide

/-- A macro command that faults with no fault recorded before: V2, and D10. -/
theorem witness_StageOutOfOrderRaisesSequence_macro :
    (loaded [0x41]).errCode = 0 ∧
    (next? (exec .compress (loaded [0x41]))).map record = some (0x124, 0x10, 1, 0) ∧
    (next? (exec .decompress State.reset)).map record = some (0x74, 0x20, 14, 0) :=
  ⟨rfl, test_compress_rejects, by decide +kernel⟩

theorem witness_FscanCountsTheSource : (loaded v1).inReadable (loaded v1).inLen.toNat := by decide +kernel

theorem witness_FscanRecordsTheUnreadableAddress :
    ({ loaded v1 with platform := tight.platform } : State).inReadable 5 ∧ 5 < (loaded v1).inLen.toNat ∧
    5 ∈ tight.platform.inFault := by decide +kernel

theorem scanned1_distinct : scanned1.distinct = 3 := by decide +kernel

theorem witness_TbuildBuildsATreeOfTheAlphabet :
    scanned1.status.freqV = true ∧ 2 ≤ scanned1.distinct ∧
    (next? (exec .tbuild scanned1)).map (fun t => (record t, t.tree)) = some ((0x302, 0, 0, 0), v1tree) :=
  ⟨rfl, by rw [scanned1_distinct]; decide, test_tbuild⟩

theorem witness_TbuildRejectsASmallAlphabet : rejected.status.freqV = true ∧ rejected.distinct = 1 := by decide +kernel

theorem witness_QueueKeepsTheOrder :
    [(⟨2, 1, .leaf 0x42⟩ : Entry), ⟨3, 0, .leaf 0x41⟩].Pairwise (fun a b => a.before b = true) ∧
    ∀ y ∈ [(⟨2, 1, .leaf 0x42⟩ : Entry), ⟨3, 0, .leaf 0x41⟩], y.seq ≠ (⟨1, 2, .leaf 0x43⟩ : Entry).seq := by decide

theorem scanned1_total : scanned1.total = 6 := by decide +kernel

theorem witness_BuiltTreesPutTheLighterChildLeft :
    scanned1.status.freqV = true ∧ 2 ≤ scanned1.distinct ∧ scanned1.total < 2 ^ 64 ∧
    (next? (exec .tbuild scanned1)).map (fun t => (record t, t.tree)) = some ((0x302, 0, 0, 0), v1tree) :=
  ⟨rfl, by rw [scanned1_distinct]; decide, by rw [scanned1_total]; decide, test_tbuild⟩

/-- A prefix code: the 8 bits of the byte value. -/
theorem witness_BuiltTreesAreOptimal :
    scanned1.status.freqV = true ∧ 2 ≤ scanned1.distinct ∧ scanned1.total < 2 ^ 64 ∧
    (next? (exec .tbuild scanned1)).map (fun t => (record t, t.tree)) = some ((0x302, 0, 0, 0), v1tree) ∧
    ∀ b b' : Byte, b ≠ b' → 0 < (scanned1.freqOf b).toNat → 0 < (scanned1.freqOf b').toNat →
      ¬ bits8 b <+: bits8 b' := by
  obtain ⟨h1, h2, h3, h4⟩ := witness_BuiltTreesPutTheLighterChildLeft
  refine ⟨h1, h2, h3, h4, fun b b' h _ _ hp => h ?_⟩
  simpa only [byte8_bits8] using congrArg byte8 (hp.eq_of_length rfl)

/-- A state that holds V1's tree. -/
def treed : State := { State.reset with tree := v1tree, status := { Status.zero with treeV := true } }

theorem witness_CbuildRecordsThePaths :
    treed.status.treeV = true ∧ treed.tree.leaves.length ≤ Config.maxLeaves := by decide

theorem witness_CodesAreAFullPrefixCode :
    treed.status.treeV = true ∧ treed.tree.leaves.length ≤ Config.maxLeaves ∧ treed.tree.leaves.Nodup ∧
    (next? (exec .cbuild treed)).isSome = true ∧ 2 ≤ treed.tree.leaves.length := by decide +kernel

theorem witness_TserSerializesTheTree :
    treed.status.treeV = true ∧ treed.tree.leaves.length ≤ Config.maxLeaves := by decide

/-- A state that holds shape bits and leaf bytes. -/
def serialized (shape : Byte) (bits count : Nat) : State :=
  { State.reset with
    shape := State.reset.shape.set 0 shape
    leaves := (State.reset.leaves.set 0 0x41).set 1 0x43 |>.set 2 0x42
    shapeBitLen := BitVec.ofNat 16 bits
    leafCount := BitVec.ofNat 16 count
    status := { Status.zero with serV := true } }

/-- Past the capacity, at the first values: 512 bits, 257 leaves. -/
theorem witness_TdesOutcomes_capacity :
    (serialized 0 512 3).status.serV = true ∧
    ¬ ((serialized 0 512 3).shapeBitLen.toNat ≤ 511 ∧ (serialized 0 512 3).leafCount.toNat ≤ 256) ∧
    ¬ ((serialized 0 5 257).shapeBitLen.toNat ≤ 511 ∧ (serialized 0 5 257).leafCount.toNat ≤ 256) := by decide +kernel

/-- A valid shape, with one leaf byte too few, with a bit and a leaf byte left over, and exact. -/
theorem witness_TdesOutcomes_shape :
    (serialized 0xA0 5 3).shapeSeq.take 5 = v1tree.shapeBits ∧ v1tree.leaves.length = 3 ∧
    (serialized 0xA0 5 2).shapeSeq.take 5 = v1tree.shapeBits ∧ (serialized 0xA0 5 2).leafCount.toNat < 3 ∧
    (serialized 0xA0 6 3).shapeSeq.take 5 = v1tree.shapeBits ∧ 5 < (serialized 0xA0 6 3).shapeBitLen.toNat ∧
    3 < (serialized 0xA0 5 4).leafCount.toNat ∧ (serialized 0xA0 5 3).shapeBitLen.toNat = 5 ∧
    (serialized 0xA0 5 3).leafCount.toNat = 3 := by decide +kernel

/-- No prefix of the bits `10` is the shape of a tree. -/
theorem no_shape_prefix (n : Nat) (p : Tree) : [true, false].take n ≠ p.shapeBits := by
  intro h
  cases p with
  | leaf b =>
    match n with
    | 0 | 1 | k + 2 => simp [Tree.shapeBits] at h
  | node l r =>
    have hl := congrArg List.length h
    have h1 := l.leaves_length_pos
    have h2 := r.leaves_length_pos
    have h3 := l.nodes_eq
    have h4 := r.nodes_eq
    simp [Tree.shapeBits, Tree.length_shapeBits] at hl
    omega

/-- No valid shape (D14), with fewer leaf bytes than 0 bits, and with enough. -/
theorem witness_TdesOutcomes_no_shape :
    (∀ (n : Nat) (p : Tree), (serialized 0x80 2 0).shapeSeq.take n ≠ p.shapeBits) ∧
    (serialized 0x80 2 0).leafCount.toNat < (serialized 0x80 2 0).shapeSeq.count false ∧
    (∀ (n : Nat) (p : Tree), (serialized 0x80 2 2).shapeSeq.take n ≠ p.shapeBits) ∧
    (serialized 0x80 2 2).shapeSeq.count false ≤ (serialized 0x80 2 2).leafCount.toNat := by
  have h0 : (serialized 0x80 2 0).shapeSeq = [true, false] := by decide +kernel
  have h2 : (serialized 0x80 2 2).shapeSeq = [true, false] := by decide +kernel
  rw [h0, h2]
  exact ⟨no_shape_prefix, by decide +kernel, no_shape_prefix, by decide +kernel⟩

theorem witness_TreeRoundTrip :
    treed.status.treeV = true ∧ treed.tree.leaves.length ≤ Config.maxLeaves ∧
    (next? (exec .tdes (serialized 0xA0 5 3))).map (fun u => u.status.done) = some true := by decide +kernel

theorem witness_HemitWritesHeaderAndTree :
    serialized1.status.serV = true ∧ serialized1.status.freqV = true ∧
    14 + serialized1.shapeByteLen.toNat + serialized1.leafCount.toNat
      = 18 ∧
    serialized1.outWritable 0 18 := by decide +kernel

theorem witness_HemitRecordsTheUnwritableAddress :
    ({ serialized1 with platform := tight.platform } : State).outWritable 0 5 ∧
    5 ∈ tight.platform.outFault ∧ 5 < 18 := by decide +kernel

/-- V1's container, and one with an empty payload and nothing after the leaves. -/
theorem witness_HparseReadsTheHeader :
    (loaded v1c).inReadable (loaded v1c).inLen.toNat ∧ ube ((loaded v1c).inSeq 0 8) = 6 ∧
    ube ((loaded v1c).inSeq 8 2) = 5 ∧ ube ((loaded v1c).inSeq 10 2) = 1 ∧ ube ((loaded v1c).inSeq 12 2) = 3 ∧
    14 + 1 + 3 ≤ (loaded v1c).inLen.toNat ∧ 14 + 1 + 3 = (loaded (v1c.take 18)).inLen.toNat := by decide +kernel

/-- D12, D13 at the first values past the capacity, D11, and the short container of D9; TDES past the capacity. -/
theorem witness_HparseFaultsInOrder :
    (loaded (hdr 6 9 1 3)).inReadable 14 ∧ 14 ≤ (loaded (hdr 6 9 1 3)).inLen.toNat ∧
    8 * ube ((loaded (hdr 6 9 1 3)).inSeq 10 2) < ube ((loaded (hdr 6 9 1 3)).inSeq 8 2) ∧
    ube ((loaded (hdr 6 512 64 3)).inSeq 8 2) = 512 ∧ ube ((loaded (hdr 6 512 64 3)).inSeq 10 2) = 64 ∧
    ube ((loaded (hdr 6 5 1 257)).inSeq 12 2) = 257 ∧
    (loaded (v1c.take 17)).inLen.toNat < 14 + 1 + 3 ∧ (loaded (v1c.take 13)).inLen.toNat < 14 ∧
    (serialized 0 512 3).status.serV = true ∧ 511 < (serialized 0 512 3).shapeBitLen.toNat ∧
    256 < (serialized 0 5 257).leafCount.toNat := by decide +kernel

/-- A state whose IN addresses `ins` and OUT addresses `outs` fail. -/
def failing (ins outs : List Nat) (s : State) : State :=
  { s with platform := { s.platform with inFault := ins, outFault := outs } }

/-- IoRead in the fixed header, at the shape byte and at the second leaf byte of V1's container. -/
theorem witness_HparseFaultsInOrder_ioRead :
    14 ≤ (failing [13] [] (loaded v1c)).inLen.toNat ∧ (failing [13] [] (loaded v1c)).inReadable 13 ∧
    13 ∈ (failing [13] [] (loaded v1c)).platform.inFault ∧
    ube ((loaded v1c).inSeq 8 2) = 5 ∧ ube ((loaded v1c).inSeq 10 2) = 1 ∧ ube ((loaded v1c).inSeq 12 2) = 3 ∧
    14 + 1 + 3 ≤ (loaded v1c).inLen.toNat ∧ ceil8 5 = 1 ∧
    (failing [14] [] (loaded v1c)).inReadable (14 + 0) ∧ 14 ∈ (failing [14] [] (loaded v1c)).platform.inFault ∧
    (failing [16] [] (loaded v1c)).inReadable (14 + 1) ∧
    (∀ j < 1, 14 + 1 + j < (failing [16] [] (loaded v1c)).platform.inCap.toNat ∧
      14 + 1 + j ∉ (failing [16] [] (loaded v1c)).platform.inFault) ∧
    14 + 1 + 1 ∈ (failing [16] [] (loaded v1c)).platform.inFault := by decide +kernel

theorem witness_PackAppendsTheCodes :
    packing.status.codeV = true ∧ packing.status.hdrw = true ∧ packing.inLen = packing.origSize ∧
    packing.inReadable packing.inLen.toNat ∧ (∀ b ∈ packing.source, (packing.codeOf b).present = true) ∧
    packing.outWritable packing.outLen.toNat
      (packing.outLen.toNat + ceil8 (packing.codeBits packing.source).length) ∧
    ([0x41, 0x42, 0x43, 0x44].map fun b => (packing.freqOf b).toNat) =
      [0x41, 0x42, 0x43, 0x44].map fun b => packing.source.count b := by decide +kernel

theorem witness_PackRejectsAChangedLength :
    packing.status.codeV = true ∧ packing.status.hdrw = true ∧
    ({ packing with inLen := 5 } : State).inLen ≠ packing.origSize := by decide +kernel

/-- V1 before PACK, the host having put 7A at IN[3]. -/
def changed : State := { packing with inMem := cellsAt 0 [0x41, 0x41, 0x41, 0x7A, 0x42, 0x43] }

theorem witness_PackFaultsInOrder :
    changed.status.codeV = true ∧ changed.status.hdrw = true ∧ changed.inLen = changed.origSize ∧
    3 < changed.inLen.toNat ∧ changed.inReadable 4 ∧ (∀ k < 3, (changed.codeOf (changed.inByte k)).present = true) ∧
    (changed.codeOf (changed.inByte 3)).present = false ∧
    changed.outWritable changed.outLen.toNat
      (changed.outLen.toNat + (changed.codeBits (changed.inSeq 0 3)).length / 8) := by decide +kernel

/-- V1 before PACK, IN[5] unreadable after five coded bytes (seven bits, no whole byte). -/
theorem witness_PackFaultsInOrder_ioRead :
    let s := failing [5] [] packing
    s.status.codeV = true ∧ s.status.hdrw = true ∧ s.inLen = s.origSize ∧ s.inReadable 5 ∧
    (∀ k < 5, (s.codeOf (s.inByte k)).present = true) ∧ 5 < s.inLen.toNat ∧ 5 ∈ s.platform.inFault ∧
    s.outWritable s.outLen.toNat (s.outLen.toNat + (s.codeBits (s.inSeq 0 5)).length / 8) := by decide +kernel

/-- V1 before PACK, the byte a drain writes unwritable, and the byte the flush writes. -/
theorem witness_PackFaultsInOrder_ioWrite :
    let s := failing [] [18] packing
    let s' := failing [] [19] packing
    s.inReadable 6 ∧ (∀ k < 6, (s.codeOf (s.inByte k)).present = true) ∧ 6 ≤ s.inLen.toNat ∧
    0 < (s.codeBits (s.inSeq 0 6)).length / 8 ∧ s.outWritable s.outLen.toNat (s.outLen.toNat + 0) ∧
    s.outLen.toNat + 0 ∈ s.platform.outFault ∧
    6 = s'.inLen.toNat ∧ 1 < ceil8 (s'.codeBits (s'.inSeq 0 6)).length ∧
    s'.outWritable s'.outLen.toNat (s'.outLen.toNat + 1) ∧ s'.outLen.toNat + 1 ∈ s'.platform.outFault := by decide +kernel

/-- V1's container before UNPACK. -/
def unpacking : State := v1cAfter [.hparse, .tdes]

/-- The leaves of V1's source in V1's tree, with their codes. -/
def v1paths : List (Byte × BitSeq) :=
  [(0x41, [false]), (0x41, [false]), (0x41, [false]), (0x42, [true, true]), (0x42, [true, true]), (0x43, [true, false])]

theorem witness_UnpackDecodesTheCodes :
    unpacking.status.treeV = true ∧ unpacking.status.parsed = true ∧
    unpacking.tree = .node (.leaf 0x41) (.node (.leaf 0x43) (.leaf 0x42)) ∧
    (∀ x ∈ v1paths, x ∈ unpacking.tree.paths) ∧ v1paths.length = unpacking.origSize.toNat ∧
    unpacking.payloadOff.toNat ≤ unpacking.inLen.toNat ∧
    (unpacking.inSeq unpacking.payloadOff.toNat (unpacking.inLen.toNat - unpacking.payloadOff.toNat)).flatMap bits8
      = v1paths.flatMap Prod.snd ++ List.replicate 7 false ∧
    unpacking.inReadable unpacking.inLen.toNat ∧ unpacking.outWritable 0 unpacking.origSize.toNat ∧
    ({ unpacking with origSize := 0 } : State).origSize = 0 := by decide +kernel

/-- D17. -/
theorem witness_UnpackFaultsOnASingleLeaf :
    let s := ran [.hparse, .tdes] (loaded (hdr 1 1 1 1 ++ [0x00, 0x41, 0x00]))
    s.status.treeV = true ∧ s.status.parsed = true ∧ s.tree = .leaf 0x41 ∧ s.origSize ≠ 0 ∧
    s.payloadOff.toNat < s.inLen.toNat ∧ s.payloadOff.toNat < s.platform.inCap.toNat ∧
    s.payloadOff.toNat ∉ s.platform.inFault := by decide +kernel

/-- D8c's kind: nine bytes promised, `Node(41, Node(43, 42))`, one payload byte that ends inside a code. -/
theorem witness_UnpackFaultsInOrder :
    let s := ran [.hparse, .tdes] (loaded (hdr 9 5 1 3 ++ [0xA0, 0x41, 0x43, 0x42, 0x1F]))
    let ps : List (Byte × BitSeq) := v1paths.take 5
    s.status.treeV = true ∧ s.status.parsed = true ∧ s.tree = .node (.leaf 0x41) (.node (.leaf 0x43) (.leaf 0x42)) ∧
    (∀ x ∈ ps, x ∈ s.tree.paths) ∧ ps.length < s.origSize.toNat ∧ s.payloadOff.toNat + 1 = s.inLen.toNat ∧
    (s.inSeq s.payloadOff.toNat 1).flatMap bits8 = ps.flatMap Prod.snd ++ [true] ∧
    (∀ x ∈ s.tree.paths, ¬ x.2 <+: [true]) ∧ s.inReadable s.inLen.toNat ∧ s.outWritable 0 ps.length := by
  decide +kernel

/-- V1's container: its second payload byte unreadable, its fourth OUT byte unwritable. -/
theorem witness_UnpackFaultsInOrder_io :
    let s := failing [19] [3] unpacking
    let ps : List (Byte × BitSeq) := v1paths.take 5
    s.status.treeV = true ∧ s.status.parsed = true ∧ s.tree = .node (.leaf 0x41) (.node (.leaf 0x43) (.leaf 0x42)) ∧
    (∀ x ∈ ps, x ∈ s.tree.paths) ∧ (∀ x ∈ s.tree.paths, ¬ x.2 <+: [true]) ∧ s.payloadOff.toNat + 1 < s.inLen.toNat ∧
    s.payloadOff.toNat + 1 ∈ s.platform.inFault ∧ s.inReadable (s.payloadOff.toNat + 1) ∧
    (s.inSeq s.payloadOff.toNat 1).flatMap bits8 = ps.flatMap Prod.snd ++ [true] ∧
    ps.length < s.origSize.toNat ∧ (failing [19] [] unpacking).outWritable 0 ps.length ∧
    3 < s.origSize.toNat ∧ 3 < ps.length ∧ s.outWritable 0 3 ∧ 3 ∈ s.platform.outFault := by decide +kernel

/-- The first payload byte unreadable, and no payload byte at all. -/
theorem witness_UnpackFaultsInOrder_at_the_first_byte :
    let s := ran [.hparse, .tdes] (loaded (v1c.take 18))
    unpacking.payloadOff.toNat < unpacking.inLen.toNat ∧ unpacking.origSize ≠ 0 ∧
    unpacking.payloadOff.toNat ∈ (failing [18] [] unpacking).platform.inFault ∧
    s.status.treeV = true ∧ s.status.parsed = true ∧ s.payloadOff.toNat = s.inLen.toNat ∧ s.origSize ≠ 0 := by
  decide +kernel

/-- The counts of V1's source are those of 95_test_vectors.md 2.2. -/
theorem counted1_freq : (loaded v1).counted.freq = scanned1.freq := Vector.toList_inj.mp (by decide +kernel)

theorem scanned1_builtTree : scanned1.builtTree = some v1tree := by decide +kernel

theorem witness_CompressWritesTheContainer :
    (loaded v1).status.err = false ∧ (loaded v1).inReadable (loaded v1).inLen.toNat ∧ 2 ≤ (loaded v1).counted.distinct ∧
    (loaded v1).counted.builtTree = some v1tree ∧
    (container v1tree (loaded v1).source).map BitVec.toNat = v1c ∧
    (loaded v1).outWritable 0 (container v1tree (loaded v1).source).length := by
  rw [State.distinct_congr counted1_freq, State.builtTree_congr counted1_freq, scanned1_distinct, scanned1_builtTree]
  decide +kernel

/-- The empty source (V3). -/
theorem witness_CompressRejectsASmallAlphabet :
    State.reset.inReadable State.reset.inLen.toNat ∧ State.reset.counted.distinct < 2 := by
  refine ⟨by decide, ?_⟩
  simp [State.distinct, State.toNat_freqOf_counted, State.source, State.inSeq, State.reset]

/-- V1's container followed by a byte (D2). -/
theorem witness_DecompressReadsTheContainer :
    let s := loaded (v1c ++ [0xFF])
    let d : ByteSeq := [0x41, 0x41, 0x41, 0x42, 0x42, 0x43]
    s.status.err = false ∧ s.inReadable s.inLen.toNat ∧ 2 ≤ v1tree.leaves.length ∧ v1tree.leaves.Nodup ∧
    (∀ b ∈ d, b ∈ v1tree.leaves) ∧ d.length < 2 ^ 64 ∧ (container v1tree d).length ≤ s.inLen.toNat ∧
    s.inSeq 0 (container v1tree d).length = container v1tree d ∧ s.outWritable 0 d.length := by decide +kernel

theorem witness_DecompressInvertsCompress :
    (next? (exec .compress (loaded v1))).map (fun t => (outBytes t, record t)) = some (v1c, (0xF02, 0, 0, 20)) ∧
    (∀ a < 20, (loaded v1c).inByte a = finished1.outByte a) ∧ (loaded v1c).inLen = finished1.outLen ∧
    (loaded v1c).inReadable (loaded v1c).inLen.toNat ∧ (loaded v1c).outWritable 0 (loaded v1).inLen.toNat :=
  ⟨test_compress, by decide +kernel⟩

theorem witness_MacrosEqualTheirStages :
    (next? (exec .compress (loaded v1))).map (fun t => (outBytes t, record t)) = some (v1c, (0xF02, 0, 0, 20)) ∧
    (next? (exec .decompress (loaded v1c))).map record = some (0x2A02, 0, 0, 6) := ⟨test_compress, by decide +kernel⟩

/-- A stage command that completes, from a state with no fault recorded. -/
theorem witness_EveryCommandEnds :
    (next? (exec .pack packing)).map record = some (0xF02, 0, 0, 20) ∧ packing.status.err = false := by decide +kernel

theorem witness_CommandsWriteOnlyTheirParts :
    (next? (exec .tdes (serialized 0xA0 5 3))).map State.tree = some v1tree := by decide +kernel

/-- Sequence in TBUILD. -/
theorem witness_EarlyFaultsLeaveOutputAlone :
    (next? (exec .tbuild State.reset)).map (fun t => (t.status.done, t.status.phase)) = some (false, 2) := by
  decide +kernel

theorem witness_OutputStaysWithinOutLen :
    (next? (exec .pack packing)).map (fun t => (packing.outLen, t.outLen)) = some (18, 20) := by decide +kernel

theorem witness_InputBeyondInLenIsNotSeen :
    (∀ a < (loaded v1).inLen.toNat,
      ({ loaded v1 with inMem := cellsAt 0 (v1 ++ [0x99]) } : State).inByte a = (loaded v1).inByte a) ∧
    (next? (exec .compress (loaded v1))).map (fun t => (outBytes t, record t)) = some (v1c, (0xF02, 0, 0, 20)) :=
  ⟨by decide +kernel, test_compress⟩

/-- The invariants' premises at a state that is no reset state: V1 before PACK, with a PACK pending. -/
theorem witness_StepKeepsTheRecordConsistent : RecordInv packing ∧ (next? (step (cmd 0x15 packing))).isSome = true :=
  ⟨⟨rfl, rfl, by decide, fun _ => ⟨rfl, rfl⟩, by decide⟩, by decide +kernel⟩

theorem packing_flags : FlagInv packing := ⟨by decide +kernel, by decide +kernel, by decide +kernel⟩

theorem witness_StepKeepsTheFlagsConsistent : FlagInv packing ∧ (next? (step (cmd 0x15 packing))).isSome = true :=
  ⟨packing_flags, by decide +kernel⟩

theorem witness_StepKeepsTheMemories : MemoryInv packing ∧ (next? (step (cmd 0x15 packing))).isSome = true :=
  ⟨⟨by decide +kernel, by decide +kernel, by decide +kernel, by decide +kernel⟩, by decide +kernel⟩

theorem packing_serialized : Serialized packing v1tree :=
  ⟨by decide +kernel, by decide +kernel, by decide +kernel, fun i h1 h2 => by
    have : ∀ i < 8 * packing.shapeByteLen.toNat, packing.shapeBitLen.toNat ≤ i → packing.shapeBit i = false := by
      decide +kernel
    exact this i h2 h1⟩

theorem packing_freq : packing.freq = scanned1.freq := rfl

theorem packing_counted :
    ((List.range 256).map fun k => (packing.freqOf (BitVec.ofNat 8 k)).toNat).sum = packing.origSize.toNat := by
  decide +kernel

theorem packing_builtTree : packing.builtTree = some v1tree :=
  (State.builtTree_congr packing_freq).trans scanned1_builtTree

theorem packing_code : packing.code = codeTable packing.tree := rfl

theorem packing_lengths :
    packing.shapeBitLen.toNat ≤ Config.maxShapeBits ∧ packing.leafCount.toNat ≤ Config.maxLeaves ∧
      packing.shapeBitLen.toNat ≤ 8 * packing.shapeByteLen.toNat := by decide +kernel

theorem packing_dataInv : DataInv packing where
  flags := packing_flags
  capacity := by decide +kernel
  lengths _ := packing_lengths
  counted _ := packing_counted
  built _ _ := packing_builtTree
  table _ := packing_code
  serialized _ _ := ⟨v1tree, packing_builtTree, packing_serialized⟩
  payload h := by cases h

theorem witness_StepKeepsWhatTheFlagsPromise : DataInv packing ∧ (next? (step (cmd 0x15 packing))).isSome = true :=
  ⟨packing_dataInv, by decide +kernel⟩

theorem witness_PackFindsEveryCountedSymbol :
    DataInv packing ∧ packing.status.codeV = true ∧ packing.status.hdrw = true ∧ 0 < (packing.freqOf 0x41).toNat :=
  ⟨packing_dataInv, by decide +kernel, by decide +kernel, by decide +kernel⟩

end Sys2Proof.Tests
end

section
/-! SUPPORT. How a predicate goes through one step: what every host action, every command and every fault entry keeps,
every step keeps (10_state.md R20, 47_control.md R186). -/

namespace Sys2Proof.Machine

/-- A predicate that one action of the outside world keeps, whatever the action: it does not see what the host has in
mind and was answered, an IN_LEN write or a stored byte, and reset, an accepted command and the record of an illegal
word keep it. -/
structure StepClosed (P : State → Prop) : Prop where
  outside : ∀ {s : State} (host : List HostAction) (read : Option Word64) (draws : Nat), P s →
    P { s with host := host, hostRead := read, draws := draws }
  inLen : ∀ {s : State} (v : Word64), P s → P { s with inLen := v }
  storeIn : ∀ {s : State} (a : Nat) (b : Byte), P s → P { s with inMem := s.inMem.write a b }
  storeOut : ∀ {s : State} (a : Nat) (b : Byte), P s → P { s with outMem := s.outMem.write a b }
  reset : ∀ {s : State} (src : Memory) (n a : Nat), P s →
    P { resetBlock s with outMem := Memory.copyFrom src n a s.outMem }
  command : ∀ {i : Instr} {s t : State}, P s → s.status.busy = false → (s.status.err = false ∨ i = .clr) →
    exec i s = .next t → P t
  illegal : ∀ {s : State} (info : Word64), P s → s.status.busy = false → s.status.err = false →
    P (faultEntry .illegalCmd info s)

variable {P : State → Prop}

theorem StepClosed.after_accept (c : StepClosed P) {w : Word32} {s t : State} (h : P s) (he : accept w s = .next t) :
    P t := by
  obtain rfl | ⟨i, hb, hi, -, hx⟩ | ⟨hb, hr, rfl⟩ := accept_cases he
  · exact h
  · exact c.command h hb hi hx
  · exact c.illegal _ h hb hr

theorem StepClosed.after_readReg (c : StepClosed P) {s : State} (n : Nat) (h : P s) : P (readReg n s) := by
  rw [readReg_eq]
  exact c.outside s.host _ _ h

theorem StepClosed.after_writeReg (c : StepClosed P) {n : Nat} {v : Word64} {s t : State} (h : P s)
    (he : writeReg n v s = .next t) : P t := by
  simp only [writeReg] at he
  split at he
  · cases he; exact h
  · split at he
    · exact c.after_accept h he
    · split at he
      · cases he; exact c.inLen v h
      · cases he; exact h

/-- What hands the host a byte or a draw keeps the predicate. -/
theorem StepClosed.after_answer (c : StepClosed P) {s : State} (v : Word64) (h : P s) : P (answer v s) :=
  c.outside s.host (some v) s.draws h

theorem StepClosed.after_answerDraw (c : StepClosed P) {s : State} (w : Nat) (h : P s) : P (answerDraw w s) :=
  c.outside s.host _ (s.draws + 1) h

theorem StepClosed.after_perform (c : StepClosed P) {a : HostAction} {s t : State} (h : P s)
    (he : perform a s = .next t) : P t := by
  cases a with
  | writeReg n v => exact c.after_writeReg h he
  | readReg n => cases he; exact c.after_readReg n h
  | storeIn a b =>
    simp only [perform] at he
    split at he <;> cases he
    exact c.storeIn a.toNat b h
  | loadIn a =>
    simp only [perform] at he
    split at he
    · cases he
    · split at he <;> cases he
      · exact c.after_answerDraw 8 h
      · exact c.after_answer _ h
  | storeOut a b =>
    simp only [perform] at he
    split at he <;> cases he
    exact c.storeOut a.toNat b h
  | loadOut a =>
    simp only [perform] at he
    split at he
    · cases he
    · split at he <;> cases he
      · exact c.after_answerDraw 8 h
      · exact c.after_answer _ h
  | reset => cases he; exact c.reset s.outMem 0 0 h
  | resetDuring v k =>
    simp only [perform] at he
    split at he <;> cases he
    exact c.reset _ _ _ h

/-- What the host's actions, the commands and the record of an illegal word keep, every step keeps. -/
theorem StepClosed.after_step (c : StepClosed P) {s t : State} (h : P s) (he : step s = .next t) : P t := by
  obtain ⟨-, rfl⟩ | ⟨a, rest, -, hp⟩ := step_cases he
  · exact h
  · exact c.after_perform (c.outside rest s.hostRead s.draws h) hp

/-! ### A command as a list of stages (30_encoding.md R87, 46_container.md R175) -/

/-- The stages a command runs, in order; the control commands run none. -/
def commandStages : Instr → List Stage
  | .nop | .clr => []
  | .fscan => [.fscan]
  | .tbuild => [.tbuild]
  | .cbuild => [.cbuild]
  | .tser => [.tser]
  | .hemit => [.hemit]
  | .pack => [.pack]
  | .compress => [.fscan, .tbuild, .cbuild, .tser, .hemit, .pack]
  | .hparse => [.hparse]
  | .tdes => [.tdes]
  | .unpack => [.unpack]
  | .decompress => [.hparse, .tdes, .unpack]

/-- Stages one after another, PHASE telling which; the first that raises ends the run. -/
def runStages : List Stage → State → Run Unit
  | [], s => .ok () s
  | g :: gs, s => (runStage g (stageBody g) s).andThen fun _ s => runStages gs s

/-- Completing with nothing more to do adds nothing. -/
theorem Run.andThen_done (r : Run Unit) : (r.andThen fun _ s => .ok () s) = r := by cases r <;> rfl

theorem runStages_singleton (g : Stage) : runStages [g] = runStage g (stageBody g) :=
  funext fun s => Run.andThen_done (runStage g (stageBody g) s)

theorem macroCompress_eq : macroCompress = runStages (commandStages .compress) := by
  funext s
  simp only [macroCompress, commandStages, runStages, stageBody, Run.andThen_done]

theorem macroDecompress_eq : macroDecompress = runStages (commandStages .decompress) := by
  funext s
  simp only [macroDecompress, commandStages, runStages, stageBody, Run.andThen_done]

/-- NOP and CLR apart, a command is the frame of R187 around its stages. -/
theorem exec_eq_runStages {i : Instr} (h : commandStages i ≠ []) (s : State) :
    exec i s = runCommand (runStages (commandStages i)) s := by
  cases i
  case nop | clr => exact absurd rfl h
  case compress => exact congrArg (runCommand · s) macroCompress_eq
  case decompress => exact congrArg (runCommand · s) macroDecompress_eq
  all_goals exact congrArg (runCommand · s) (runStages_singleton _).symm

/-- The command is NOP, CLR, or runs at least one stage. -/
theorem commandStages_eq_nil {i : Instr} (h : commandStages i = []) : i = .nop ∨ i = .clr := by
  revert h; cases i <;> decide

end Sys2Proof.Machine
end

section
/-! SUPPORT. What a stage, and a command as the list of its stages, does to STATUS and the fault record, said once
(10_state.md R40, 47_control.md R187, 60_exceptions.md R225). -/

namespace Sys2Proof.Machine

/-! ### Frames -/

theorem stageBody_frame (g : Stage) (s : State) : Frame (frameParts ++ g.parts) s (stageBody g s).final := by
  cases g
  case fscan => exact stageFscan_frame s
  case tbuild => exact stageTbuild_frame s
  case cbuild => exact stageCbuild_frame s
  case tser => exact stageTser_frame s
  case hemit => exact stageHemit_frame s
  case pack => exact stagePack_frame s
  case hparse => exact stageHparse_frame s
  case tdes => exact stageTdes_frame s
  case unpack => exact stageUnpack_frame s

/-- Stages one after another write what each of them writes. -/
theorem runStages_frame {w : List Part} (hw : ∀ p ∈ frameParts, p ∈ w) {gs : List Stage}
    (hg : ∀ g ∈ gs, ∀ p ∈ g.parts, p ∈ w) (s : State) : Frame w s (runStages gs s).final := by
  induction gs generalizing s with
  | nil => exact Frame.refl w s
  | cons g gs ih =>
    have hbody : ∀ s, Frame w s (stageBody g s).final := fun s =>
      (stageBody_frame g s).mono fun p hp => (List.mem_append.mp hp).elim (hw p) (hg g List.mem_cons_self p)
    exact (runStage_frame hw hbody s).andThen fun _ s => ih (fun g hm => hg g (List.mem_cons_of_mem _ hm)) s

/-- A command's parts are those of the frame and of each of its stages. -/
theorem frameParts_subset_commandParts {i : Instr} (h : commandStages i ≠ []) :
    ∀ p ∈ frameParts, p ∈ commandParts i := by
  revert h; cases i <;> decide

theorem stageParts_subset_commandParts (i : Instr) : ∀ g ∈ commandStages i, ∀ p ∈ g.parts, p ∈ commandParts i := by
  cases i <;> decide

theorem clearRecord_frame (s : State) : Frame (commandParts .clr) s (clearRecord s) := by
  intro p hp
  cases p <;> first | exact absurd (by decide) hp | exact fun _ => rfl | rfl

/-- Settles O51: a command writes what its stages write, in the frame every command runs in. -/
theorem commandsWriteOnlyTheirParts : Obligations.CommandsWriteOnlyTheirParts := by
  intro i s t he
  by_cases hn : commandStages i = []
  · obtain rfl | rfl := commandStages_eq_nil hn <;> cases he
    · exact Frame.refl _ s
    · exact clearRecord_frame s
  · rw [exec_eq_runStages hn] at he
    have hw := frameParts_subset_commandParts hn
    exact runCommand_frame hw (runStages_frame hw (stageParts_subset_commandParts i)) he

/-! ### STATUS and the fault record along a run -/

/-- STATUS, ERRCODE and ERRINFO are the same. -/
structure SameControl (s t : State) : Prop where
  status : t.status = s.status
  errCode : t.errCode = s.errCode
  errInfo : t.errInfo = s.errInfo

/-- How a run from `s` ends: completed, it leaves ERRCODE and ERRINFO and makes STATUS `f` of what it was; or it
raised a cause, and fault entry was all that touched STATUS (R225). -/
def Run.Ends {α : Type} (s : State) (f : Status → Status) : Run α → Prop
  | .ok _ t => t.status = f s.status ∧ t.errCode = s.errCode ∧ t.errInfo = s.errInfo
  | .raised t => (∃ c : Cause, t.errCode = c.code) ∧
      t.status = { s.status with err := true, busy := false, done := false }

theorem Run.Ends.of_same {α : Type} {s t : State} {f : Status → Status} {r : Run α} (h : r.Ends t f)
    (hs : SameControl s t) : r.Ends s f := by
  obtain ⟨h1, h2, h3⟩ := hs
  cases r <;> simpa only [Run.Ends, h1, h2, h3] using h

theorem Run.Ends.done {α : Type} (a : α) (s : State) : (Run.ok a s).Ends s id := ⟨rfl, rfl, rfl⟩

theorem raise_ends {α : Type} (c : Cause) (info : Nat) (s : State) (f : Status → Status) :
    (raise (α := α) c info s).Ends s f := ⟨⟨c, rfl⟩, rfl⟩

/-- A first part that leaves STATUS alone hands it on to the second. -/
theorem Run.Ends.andThen {α β : Type} {s : State} {f : Status → Status} {r : Run α} {k : α → State → Run β}
    (h : r.Ends s id) (hk : ∀ a t, (k a t).Ends t f) : (r.andThen k).Ends s f := by
  cases r with
  | ok a t => exact (hk a t).of_same ⟨h.1, h.2.1, h.2.2⟩
  | raised t => exact h

theorem memRead_ends (a : Nat) (s : State) : (memRead a s).Ends s id := by
  obtain ⟨-, -, h⟩ | ⟨-, h⟩ := memRead_cases a s <;> rw [h]
  · exact .done _ s
  · exact raise_ends .ioRead a s id

theorem readBytes_ends (n a : Nat) (s : State) : (readBytes n a s).Ends s id := by
  obtain h | ⟨x, -, -, h⟩ := readBytes_cases n a s <;> rw [h]
  · exact .done _ s
  · exact raise_ends .ioRead x s id

theorem emitAll_ends (bs : ByteSeq) (s : State) : (emitAll bs s).Ends s id := by
  obtain ⟨-, h⟩ | ⟨n, -, -, -, h⟩ := emitAll_cases bs s <;> rw [h]
  · exact ⟨rfl, rfl, rfl⟩
  · exact ⟨⟨.ioWrite, rfl⟩, rfl⟩

theorem emit_ends (b : Byte) (s : State) : (emit b s).Ends s id := by
  rw [emit_eq_emitAll]
  exact emitAll_ends [b] s

theorem scanBytes_ends (n i : Nat) (s : State) : (scanBytes n i s).Ends s id := by
  induction n generalizing i s with
  | zero => exact .done () s
  | succ n ih => exact (memRead_ends i s).andThen fun b t => (ih (i + 1) (countByte b t)).of_same ⟨rfl, rfl, rfl⟩

theorem loadShape_ends (n k a : Nat) (s : State) : (loadShape n k a s).Ends s id := by
  induction n generalizing k a s with
  | zero => exact .done () s
  | succ n ih => exact (memRead_ends a s).andThen fun b t => (ih _ _ _).of_same ⟨rfl, rfl, rfl⟩

theorem loadLeaves_ends (n k a : Nat) (s : State) : (loadLeaves n k a s).Ends s id := by
  induction n generalizing k a s with
  | zero => exact .done () s
  | succ n ih => exact (memRead_ends a s).andThen fun b t => (ih _ _ _).of_same ⟨rfl, rfl, rfl⟩

theorem flush_ends (acc : BitSeq) (s : State) : (flush acc s).Ends s id := by
  simp only [flush]
  split
  · exact .done () s
  · exact emit_ends _ s

theorem packBytes_ends (n i : Nat) (acc : BitSeq) (s : State) : (packBytes n i acc s).Ends s id := by
  induction n generalizing i acc s with
  | zero => exact flush_ends acc s
  | succ n ih =>
    refine (memRead_ends i s).andThen fun b t => ?_
    split
    · exact raise_ends _ _ t _
    · exact (emitAll_ends _ t).andThen fun _ u => ih _ _ u

theorem walkBit_ends (at' : Nat) (cur : Tree) (bit : Bool) (s : State) : (walkBit at' cur bit s).Ends s id := by
  simp only [walkBit]
  split
  · exact raise_ends _ _ s _
  · split
    · exact (emit_ends _ s).andThen fun _ t => .done _ t
    · exact .done _ s

theorem walkBits_ends (at' : Nat) (bits : BitSeq) (cur : Tree) (s : State) : (walkBits at' bits cur s).Ends s id := by
  induction bits generalizing cur s with
  | nil => exact .done cur s
  | cons bit bits ih =>
    simp only [walkBits]
    split
    · exact .done cur s
    · exact (walkBit_ends at' cur bit s).andThen fun next t => ih next t

theorem unpackBytes_ends (fuel pos : Nat) (cur : Tree) (s : State) : (unpackBytes fuel pos cur s).Ends s id := by
  induction fuel generalizing pos cur s with
  | zero =>
    simp only [unpackBytes]
    split
    · exact raise_ends _ _ s _
    · exact .done () s
  | succ fuel ih =>
    simp only [unpackBytes]
    split
    · exact .done () s
    · split
      · exact raise_ends _ _ s _
      · exact (memRead_ends pos s).andThen fun b t => (walkBits_ends _ _ _ t).andThen fun _ u => ih _ _ u

/-! ### STATUS and the fault record after a stage body -/

theorem SameControl.refl (s : State) : SameControl s s := ⟨rfl, rfl, rfl⟩

/-- Closing a stage sets its flags, whatever else the state before it holds. -/
theorem closeStage_ends (g : Stage) {s t : State} (h : SameControl s t) : (closeStage g t).Ends s g.sets :=
  (show (closeStage g t).Ends t g.sets from ⟨rfl, rfl, rfl⟩).of_same h

/-- The body opens its stage, and after that touches STATUS only to set the stage's flags at completion. -/
def OpensAndEnds (g : Stage) (body : State → Run Unit) : Prop :=
  ∃ rest : State → Run Unit, (∀ s, body s = (openStage g s).andThen fun _ => rest) ∧ ∀ s, (rest s).Ends s g.sets

theorem stageFscan_ends : OpensAndEnds .fscan stageFscan :=
  ⟨_, fun _ => rfl, fun _ => Run.Ends.andThen ((scanBytes_ends _ _ _).of_same ⟨rfl, rfl, rfl⟩) fun _ t =>
    closeStage_ends .fscan (s := t) ⟨rfl, rfl, rfl⟩⟩

theorem stageTbuild_ends : OpensAndEnds .tbuild stageTbuild := by
  refine ⟨_, fun _ => rfl, fun s => ?_⟩
  split
  · exact raise_ends _ _ s _
  · split
    · exact closeStage_ends .tbuild ⟨rfl, rfl, rfl⟩
    · exact raise_ends _ _ s _

theorem stageCbuild_ends : OpensAndEnds .cbuild stageCbuild :=
  ⟨_, fun _ => rfl, fun s => closeStage_ends .cbuild (s := s) ⟨rfl, rfl, rfl⟩⟩

theorem stageTser_ends : OpensAndEnds .tser stageTser :=
  ⟨_, fun _ => rfl, fun s => closeStage_ends .tser (s := s) ⟨rfl, rfl, rfl⟩⟩

theorem stageTdes_ends : OpensAndEnds .tdes stageTdes := by
  refine ⟨_, fun _ => rfl, fun s => ?_⟩
  split
  · exact raise_ends _ _ s _
  · split
    · exact raise_ends _ _ s _
    · split
      · exact raise_ends _ _ s _
      · exact closeStage_ends .tdes ⟨rfl, rfl, rfl⟩

theorem stageHemit_ends : OpensAndEnds .hemit stageHemit :=
  ⟨_, fun _ => rfl, fun _ => Run.Ends.andThen ((emitAll_ends _ _).of_same ⟨rfl, rfl, rfl⟩) fun _ t =>
    closeStage_ends .hemit (.refl t)⟩

theorem stagePack_ends : OpensAndEnds .pack stagePack := by
  refine ⟨_, fun _ => rfl, fun s => ?_⟩
  split
  · exact raise_ends _ _ s _
  · exact (packBytes_ends _ _ _ s).andThen fun _ t => closeStage_ends .pack (.refl t)

theorem stageUnpack_ends : OpensAndEnds .unpack stageUnpack :=
  ⟨_, fun _ => rfl, fun _ => Run.Ends.andThen ((unpackBytes_ends _ _ _ _).of_same ⟨rfl, rfl, rfl⟩) fun _ t =>
    closeStage_ends .unpack (.refl t)⟩

theorem parseTree_ends (s : State) : (parseTree s).Ends s (Stage.sets .hparse) := by
  simp only [parseTree]
  split
  · exact raise_ends _ _ s _
  · split
    · exact raise_ends _ _ s _
    · split
      · exact raise_ends _ _ s _
      · exact (loadShape_ends _ _ _ s).andThen fun _ t => (loadLeaves_ends _ _ _ t).andThen fun _ u =>
          closeStage_ends .hparse (s := u) ⟨rfl, rfl, rfl⟩

theorem stageHparse_ends : OpensAndEnds .hparse stageHparse := by
  refine ⟨_, fun _ => rfl, fun s => ?_⟩
  split
  · exact raise_ends _ _ s _
  · exact (readBytes_ends _ _ s).andThen fun h t => (parseTree_ends (setHeader h t)).of_same ⟨rfl, rfl, rfl⟩

theorem stageBody_ends (g : Stage) : OpensAndEnds g (stageBody g) := by
  cases g
  case fscan => exact stageFscan_ends
  case tbuild => exact stageTbuild_ends
  case cbuild => exact stageCbuild_ends
  case tser => exact stageTser_ends
  case hemit => exact stageHemit_ends
  case pack => exact stagePack_ends
  case hparse => exact stageHparse_ends
  case tdes => exact stageTdes_ends
  case unpack => exact stageUnpack_ends

/-- All a stage body can do to STATUS and the record: refuse with Sequence, or clear its flags at the start and set
its flags if it completes (R40, R220). -/
theorem stageBody_cases (g : Stage) (s : State) :
    (g.requires s.status = false ∧
      stageBody g s = .raised (faultEntry .sequence ((encode g.command).setWidth 64) s)) ∨
    (g.requires s.status = true ∧ (stageBody g s).Ends { s with status := g.clears s.status } g.sets) := by
  obtain ⟨rest, hbody, hrest⟩ := stageBody_ends g
  rw [hbody]
  cases hr : g.requires s.status with
  | false => exact .inl ⟨rfl, by rw [openStage_fault hr, Run.andThen_raised]⟩
  | true => exact .inr ⟨rfl, by rw [openStage_ok hr, Run.andThen_ok]; exact hrest _⟩

end Sys2Proof.Machine
end

section
/-! PROOFS. The four invariants of a safe run: every step keeps each of them (10_state.md R30, R36 to R43, R48 to R52,
60_exceptions.md R207, R225). -/

namespace Sys2Proof.Machine

/-! ### The fault record (R30, R33, R41) -/

/-- No fault is recorded, and PHASE is a stage number or 0: what a command and its stages start from. -/
structure NoFault (s : State) : Prop where
  err : s.status.err = false
  errCode : s.errCode = 0
  errInfo : s.errInfo = 0
  phase : s.status.phase.toNat ≤ 9

/-- A run keeps the record: none is written if it completes, one that agrees with STATUS if it raised. -/
def Run.Records : Run Unit → Prop
  | .ok _ t => NoFault t
  | .raised t => RecordInv t

theorem Run.Records.andThen {r : Run Unit} {k : Unit → State → Run Unit} (h : r.Records)
    (hk : ∀ s, NoFault s → (k () s).Records) : (r.andThen k).Records := by
  cases r with
  | ok _ t => exact hk t h
  | raised t => exact h

/-- Fault entry writes a record that agrees with STATUS (R225). -/
theorem RecordInv.of_fault {s t : State} (hp : s.status.phase.toNat ≤ 9) (hc : ∃ c : Cause, t.errCode = c.code)
    (hs : t.status = { s.status with err := true, busy := false, done := false }) : RecordInv t := by
  refine ⟨?_, ?_, ?_, ?_, ?_⟩ <;> simp only [hs]
  · simpa using hc
  · simp
  · exact fun h => absurd h (by decide)
  · exact hp

/-- The cleared record agrees with a cleared STATUS. -/
theorem RecordInv.of_zero {t : State} (hs : t.status = Status.zero) (hc : t.errCode = 0) (hi : t.errInfo = 0) :
    RecordInv t :=
  ⟨by rw [hs]; rfl, by rw [hs]; exact hc, by rw [hs]; decide, fun _ => ⟨hi, by rw [hs]; rfl⟩, by rw [hs]; decide⟩

/-- The flags of a stage are no part of the record: clearing and setting them leaves ERR and PHASE. -/
@[simp] theorem Stage.clears_err (g : Stage) (st : Status) : (g.clears st).err = st.err := by cases g <;> rfl
@[simp] theorem Stage.clears_phase (g : Stage) (st : Status) : (g.clears st).phase = st.phase := by cases g <;> rfl
@[simp] theorem Stage.sets_err (g : Stage) (st : Status) : (g.sets st).err = st.err := by cases g <;> rfl
@[simp] theorem Stage.sets_phase (g : Stage) (st : Status) : (g.sets st).phase = st.phase := by cases g <;> rfl

/-- Every stage's number fits the range of PHASE (R41). -/
theorem Stage.number_le (g : Stage) : g.number.toNat ≤ 9 := by cases g <;> decide

theorem stageBody_records (g : Stage) {s : State} (h : NoFault s) : (stageBody g s).Records := by
  obtain ⟨-, he⟩ | ⟨-, he⟩ := stageBody_cases g s
  · rw [he]
    exact RecordInv.of_fault h.phase ⟨.sequence, rfl⟩ rfl
  · cases hb : stageBody g s <;> rw [hb] at he
    case ok t =>
      obtain ⟨hs, hc, hi⟩ := he
      exact ⟨by simp [hs, h.err], hc.trans h.errCode, hi.trans h.errInfo, by simpa [hs] using h.phase⟩
    case raised t =>
      obtain ⟨hc, hs⟩ := he
      exact RecordInv.of_fault (s := { s with status := g.clears s.status }) (by simpa using h.phase) hc hs

theorem runStages_records (gs : List Stage) {s : State} (h : NoFault s) : (runStages gs s).Records := by
  induction gs generalizing s with
  | nil => exact h
  | cons g gs ih =>
    have hstart : NoFault { s with status := { s.status with phase := g.number } } :=
      ⟨h.err, h.errCode, h.errInfo, g.number_le⟩
    exact (stageBody_records g hstart).andThen fun _ ht => ih ht

/-- A command started with no fault recorded ends with BUSY = 0 and a consistent record. -/
theorem runCommand_records {body : State → Run Unit} (hb : ∀ s, NoFault s → (body s).Records) {s t : State}
    (h : NoFault s) (he : runCommand body s = .next t) : RecordInv t := by
  have h0 := hb { s with status := { s.status with done := false, busy := true } }
    ⟨h.err, h.errCode, h.errInfo, h.phase⟩
  obtain ⟨u, hu, hn⟩ | ⟨u, hu, hn⟩ := runCommand_cases body s <;> rw [hn] at he <;> cases he <;> rw [hu] at h0
  · have hu : NoFault u := h0
    exact ⟨rfl, by simpa [hu.err] using hu.errCode, by simp [hu.err], fun _ => ⟨hu.errInfo, rfl⟩, Nat.zero_le 9⟩
  · exact h0

theorem RecordInv.noFault {s : State} (h : RecordInv s) (he : s.status.err = false) : NoFault s :=
  ⟨he, by simpa [he] using h.code, (h.info he).1, h.phase⟩

theorem RecordInv.after_exec {i : Instr} {s t : State} (h : RecordInv s) (hi : s.status.err = false ∨ i = .clr)
    (he : exec i s = .next t) : RecordInv t := by
  by_cases hn : commandStages i = []
  · obtain rfl | rfl := commandStages_eq_nil hn <;> cases he
    · exact h
    · exact RecordInv.of_zero rfl rfl rfl
  · have herr : s.status.err = false := hi.elim id fun hc => absurd (by rw [hc]; rfl) hn
    rw [exec_eq_runStages hn] at he
    exact runCommand_records (fun _ => runStages_records _) (h.noFault herr) he

theorem RecordInv.stepClosed : StepClosed RecordInv where
  outside _ _ _ h := ⟨h.idle, h.code, h.notBoth, h.info, h.phase⟩
  inLen _ h := ⟨h.idle, h.code, h.notBoth, h.info, h.phase⟩
  storeIn _ _ h := ⟨h.idle, h.code, h.notBoth, h.info, h.phase⟩
  storeOut _ _ h := ⟨h.idle, h.code, h.notBoth, h.info, h.phase⟩
  reset _ _ _ _ := RecordInv.of_zero rfl rfl rfl
  command h _ hi he := h.after_exec hi he
  illegal _ h _ _ := RecordInv.of_fault h.phase ⟨.illegalCmd, rfl⟩ rfl

/-- Settles O55: every stage starts from a state without a fault, and a raised cause is recorded with ERR. -/
theorem stepKeepsTheRecordConsistent : Obligations.StepKeepsTheRecordConsistent :=
  fun _ _ h he => RecordInv.stepClosed.after_step h he

/-! ### The validity flags (R40, R52) -/

/-- The invariant is about the six validity flags only, not BUSY, DONE, ERR and PHASE. -/
theorem FlagInv.of_status {s t : State} (h : FlagInv s) {b d e : Bool} {p : BitVec 4}
    (hs : t.status = { s.status with busy := b, done := d, err := e, phase := p }) : FlagInv t :=
  ⟨by rw [hs]; exact h.notBoth, by rw [hs]; exact h.header, by rw [hs]; exact h.table⟩

theorem FlagInv.of_zero {t : State} (h : t.status = Status.zero) : FlagInv t :=
  ⟨by rw [h]; decide, by rw [h]; decide, by rw [h]; decide⟩

theorem FlagInv.after_fault {s : State} (h : FlagInv s) (c : Cause) (info : Word64) : FlagInv (faultEntry c info s) :=
  h.of_status rfl

/-- The flags a stage clears at its start: none of the three rules loses its conclusion without its premise (R40). -/
theorem FlagInv.after_clears {s : State} (h : FlagInv s) (g : Stage) :
    FlagInv { s with status := g.clears s.status } := by
  obtain ⟨hboth, hheader, htable⟩ := h
  cases g <;> constructor <;> simp_all [Stage.clears]

/-- The flags a stage sets at completion: its preconditions, or what it cleared, give the three rules (R40). -/
theorem FlagInv.after_sets {s t : State} (h : FlagInv s) (g : Stage) (hr : g.requires s.status = true)
    (ht : t.status = g.sets (g.clears s.status)) : FlagInv t := by
  obtain ⟨hboth, hheader, htable⟩ := h
  cases g <;> constructor <;> simp_all [Stage.requires, Stage.clears, Stage.sets]

theorem FlagInv.after_stageBody (g : Stage) (s : State) (h : FlagInv s) : FlagInv (stageBody g s).final := by
  obtain ⟨-, he⟩ | ⟨hr, he⟩ := stageBody_cases g s
  · rw [he]
    exact h.after_fault _ _
  · cases hb : stageBody g s <;> rw [hb] at he
    case ok t => exact h.after_sets g hr he.1
    case raised t => exact (h.after_clears g).of_status he.2

theorem FlagInv.stepClosed : StepClosed FlagInv where
  outside _ _ _ h := ⟨h.notBoth, h.header, h.table⟩
  inLen _ h := ⟨h.notBoth, h.header, h.table⟩
  storeIn _ _ h := ⟨h.notBoth, h.header, h.table⟩
  storeOut _ _ h := ⟨h.notBoth, h.header, h.table⟩
  reset _ _ _ _ := FlagInv.of_zero rfl
  command h _ _ he :=
    exec_keeps (fun _ _ _ _ h => ⟨h.notBoth, h.header, h.table⟩) FlagInv.after_stageBody
      (fun _ _ => FlagInv.of_zero rfl) h he
  illegal _ h _ _ := h.after_fault _ _

/-- Settles O56: R40's rows clear a flag together with those that rest on it, and set one when those it rests on are
set. -/
theorem stepKeepsTheFlagsConsistent : Obligations.StepKeepsTheFlagsConsistent :=
  fun _ _ h he => FlagInv.stepClosed.after_step h he

/-! ### The memories (R32, R48, R199) -/

theorem MemoryInv.stepClosed : StepClosed MemoryInv where
  outside _ _ _ h := h.of_eq rfl rfl rfl rfl
  inLen _ h := h.of_eq rfl rfl rfl rfl
  storeIn a b h := ⟨Memory.wf_write h.inWf a b, h.outWf, h.outCap, h.written⟩
  storeOut {s} a b h := by
    refine ⟨h.inWf, Memory.wf_write h.outWf a b, h.outCap, fun x hx => ?_⟩
    show ((s.outMem.write a b).read? x).isSome = true
    rw [Memory.read?_write]
    split
    · rfl
    · exact h.written x hx
  reset src n a h :=
    ⟨h.inWf, Memory.wf_copyFrom src n a h.outWf, Nat.zero_le _, fun x hx => absurd hx (Nat.not_lt_zero x)⟩
  command h _ _ he := MemoryInv.outClosed.after_exec h he
  illegal _ h _ _ := h.of_eq rfl rfl rfl rfl

/-- Settles O57: a byte is counted in OUT_LEN only when it has been written below OUT_CAP, and reset counts none. -/
theorem stepKeepsTheMemories : Obligations.StepKeepsTheMemories :=
  fun _ _ h he => MemoryInv.stepClosed.after_step h he

/-! ### What the validity flags promise (R36 to R39, R43, R51, R52) -/

theorem DataInv.after_stageBody (g : Stage) (s : State) (h : DataInv s) : DataInv (stageBody g s).final := by
  cases g
  case fscan => exact h.after_fscan
  case tbuild => exact h.after_tbuild
  case cbuild => exact h.after_cbuild
  case tser => exact h.after_tser
  case hemit => exact h.after_hemit
  case pack => exact h.after_pack
  case hparse => exact h.after_hparse
  case tdes => exact h.after_tdes
  case unpack => exact h.after_unpack

/-- What the flags do not speak of may change: the frame of R187, the memories, and what is outside the block. -/
theorem DataInv.unframed : Unframed DataInv := fun _ _ _ _ h =>
  h.of_same ⟨rfl, rfl, rfl, rfl, rfl, rfl, rfl, rfl, rfl, rfl⟩ ⟨h.flags.notBoth, h.flags.header, h.flags.table⟩
    id id id id id

theorem State.reset_capacity : State.reset.tree.leaves.length ≤ 256 := by decide

theorem DataInv.of_zero {t : State} (ht : t.tree.leaves.length ≤ 256) (hs : t.status = Status.zero) : DataInv t :=
  DataInv.of_no_flag ht (by rw [hs]; rfl) (by rw [hs]; rfl) (by rw [hs]; rfl) (by rw [hs]; rfl) (by rw [hs]; rfl)
    (by rw [hs]; rfl)

/-- The registers the flags speak of and STATUS are the same. -/
theorem DataInv.of_registers {s t : State} (h : DataInv s) (hS : SameData s t) (hs : t.status = s.status) :
    DataInv t := by
  refine h.of_same hS (h.flags.of_status hs) ?_ ?_ ?_ ?_ ?_ <;> simp only [hs, imp_self]

theorem DataInv.stepClosed : StepClosed DataInv where
  outside _ _ _ h := h.of_registers ⟨rfl, rfl, rfl, rfl, rfl, rfl, rfl, rfl, rfl, rfl⟩ rfl
  inLen _ h := h.of_registers ⟨rfl, rfl, rfl, rfl, rfl, rfl, rfl, rfl, rfl, rfl⟩ rfl
  storeIn _ _ h := h.of_registers ⟨rfl, rfl, rfl, rfl, rfl, rfl, rfl, rfl, rfl, rfl⟩ rfl
  storeOut _ _ h := h.of_registers ⟨rfl, rfl, rfl, rfl, rfl, rfl, rfl, rfl, rfl, rfl⟩ rfl
  reset _ _ _ _ := DataInv.of_zero State.reset_capacity rfl
  command h _ _ he :=
    exec_keeps DataInv.unframed DataInv.after_stageBody (fun _ h => DataInv.of_zero h.capacity rfl) h he
  illegal _ h _ _ := h.after_fault _ _

/-- Settles O58: each stage makes good what the flags it sets promise and clears the flags whose promise it breaks. -/
theorem stepKeepsWhatTheFlagsPromise : Obligations.StepKeepsWhatTheFlagsPromise :=
  fun _ _ h he => DataInv.stepClosed.after_step h he

/-! ### Right after reset, and before PACK -/

/-- Settles O59: reset clears every flag, the record and OUT_LEN, and lists nothing in the memories. -/
theorem resetMeetsTheInvariants : Obligations.ResetMeetsTheInvariants :=
  ⟨RecordInv.of_zero rfl rfl rfl, FlagInv.of_zero rfl,
    ⟨rfl, rfl, Nat.zero_le _, fun a ha => absurd ha (Nat.not_lt_zero a)⟩,
    DataInv.of_zero State.reset_capacity rfl⟩

/-- The leaves of the built tree are the counted byte values (R124). -/
theorem State.mem_leaves_builtTree {s : State} {t : Tree} (ht : s.builtTree = some t) {b : Byte}
    (hb : 0 < (s.freqOf b).toNat) : b ∈ t.leaves := by
  have hmem : b ∈ s.symbols := State.mem_symbols.mpr hb
  obtain ⟨t', ht', hperm, -⟩ := s.builtTree_spec (List.length_pos_of_mem hmem)
  obtain rfl : t' = t := Option.some.inj (ht'.symm.trans ht)
  exact hperm.mem_iff.mpr hmem

/-- Settles O60: HDRW rests on FREQ_V and SER_V, CODE_V on TREE_V, so the tree in the store is the one built from FREQ
and the one serialized, and each counted byte value is one of its leaves. -/
theorem packFindsEveryCountedSymbol : Obligations.PackFindsEveryCountedSymbol := by
  intro s h hcode hhdrw
  obtain ⟨hfreq, hser⟩ := h.flags.header hhdrw
  have hbuilt := h.built hfreq (h.flags.table hcode)
  obtain ⟨t, ht, hserialized⟩ := h.serialized hfreq hser
  obtain rfl : s.tree = t := Option.some.inj (hbuilt.symm.trans ht)
  have htable := h.table hcode
  exact ⟨htable, hserialized, fun b hb => (State.present_iff htable).mpr (State.mem_leaves_builtTree hbuilt hb)⟩

end Sys2Proof.Machine
end

section
/-! PROOFS. The register map as the host reads and writes it (10_state.md R28 to R46, R49, R53). -/

namespace Sys2Proof.Machine

/-! ### What a register read or write does, once (R28, R45, R46) -/

theorem step_readReg (s : State) (rest : List HostAction) (n : Nat) :
    step { s with host := .readReg n :: rest } = .next (readReg n { s with host := rest }) := rfl

theorem step_writeReg (s : State) (rest : List HostAction) (n : Nat) (v : Word64) :
    step { s with host := .writeReg n v :: rest } = writeReg n v { s with host := rest } := rfl

/-- A register that holds a meaning answers its value (R28). -/
theorem readReg_of_meaningful {n : Nat} {s : State} {w : Nat} {v : Word64} (hb : s.status.busy = false)
    (h : regView n s = some ⟨w, true, v⟩) : readReg n s = answer v s := by
  simp [readReg, h, hb]

/-- A register without a meaning answers a draw (R45). -/
theorem readReg_of_meaningless {n : Nat} {s : State} {w : Nat} {v : Word64} (hb : s.status.busy = false)
    (h : regView n s = some ⟨w, false, v⟩) : readReg n s = answerDraw w s := by
  simp [readReg, h, hb]

/-- A reserved number answers 0, whatever BUSY is (R53, assumption 12). -/
theorem readReg_of_reserved {n : Nat} {s : State} (h : regView n s = none) : readReg n s = answer 0 s := by
  simp [readReg, h]

/-- While BUSY = 1 every register but STATUS answers a draw (R46). -/
theorem readReg_of_busy {n : Nat} {s : State} {r : RegView} (hb : s.status.busy = true) (hn : n ≠ 0x001)
    (h : regView n s = some r) : readReg n s = answerDraw r.width s := by
  simp [readReg, h, hb, hn]

theorem readReg_status_of_busy {s : State} (hb : s.status.busy = true) :
    (readReg 0x001 s).hostRead =
      some ((busyStatus (Config.freeValue s.draws) s.status).toWord.setWidth 64) := by
  simp [readReg, regView, hb]

theorem writeReg_of_busy {s : State} (hb : s.status.busy = true) (n : Nat) (v : Word64) :
    writeReg n v s = .next s := by simp [writeReg, hb]

theorem writeReg_inLen {s : State} (hb : s.status.busy = false) (v : Word64) :
    writeReg 0x004 v s = .next { s with inLen := v } := by simp [writeReg, hb]

/-- A write to a number other than CMD and IN_LEN is ignored (R28, R53). -/
theorem writeReg_of_other {n : Nat} (h0 : n ≠ 0x000) (h4 : n ≠ 0x004) (v : Word64) (s : State) :
    writeReg n v s = .next s := by
  simp [writeReg, h0, h4]

/-- A step that reads a register with a meaning hands the host its value. -/
theorem step_read_value {s : State} {n w : Nat} {v : Word64} (rest : List HostAction) (hb : s.status.busy = false)
    (h : regView n s = some ⟨w, true, v⟩) :
    ∃ t, step { s with host := .readReg n :: rest } = .next t ∧ t.hostRead = some v :=
  ⟨_, step_readReg s rest n, congrArg State.hostRead (readReg_of_meaningful (s := { s with host := rest }) hb h)⟩

/-- A step that reads a register without a meaning hands the host the next draw and counts it. -/
theorem step_read_draw {s : State} {n w : Nat} {v : Word64} (rest : List HostAction) (hb : s.status.busy = false)
    (h : regView n s = some ⟨w, false, v⟩) :
    step { s with host := .readReg n :: rest } = .next
      { s with
        host := rest
        hostRead := some (((Config.freeValue s.draws).setWidth w).setWidth 64)
        draws := s.draws + 1 } :=
  congrArg Host.Outcome.next (readReg_of_meaningless (s := { s with host := rest }) hb h)

/-! ### The register map by ranges (R28, R42) -/

theorem regView_freq (s : State) {n : Nat} (h : 0x100 ≤ n) (h' : n < 0x200) :
    regView n s = some ⟨64, s.status.freqV, s.freqOf (BitVec.ofNat 8 (n - 0x100))⟩ := by
  unfold regView
  repeat rw [if_neg (by omega)]
  rw [if_pos h']

theorem regView_codeLen (s : State) {n : Nat} (h : 0x200 ≤ n) (h' : n < 0x300) :
    regView n s =
      some ⟨9, s.status.codeV, (s.codeOf (BitVec.ofNat 8 (n - 0x200))).lenWord.setWidth 64⟩ := by
  unfold regView
  repeat rw [if_neg (by omega)]
  rw [if_pos h']

theorem regView_codeBits (s : State) {n : Nat} (h : 0x400 ≤ n) (h' : n < 0x800) :
    regView n s = some ⟨64, s.status.codeV,
      (s.codeOf (BitVec.ofNat 8 ((n - 0x400) / 4))).bitsWord ((n - 0x400) % 4)⟩ := by
  unfold regView
  repeat rw [if_neg (by omega)]
  rw [if_pos h']

theorem regView_shape (s : State) {n : Nat} (h : 0x800 ≤ n) (h' : n < 0x840) :
    regView n s = some ⟨8, s.status.serV && decide (n - 0x800 < ceil8 s.shapeBitLen.toNat),
      (s.shapeByte (n - 0x800)).setWidth 64⟩ := by
  unfold regView
  repeat rw [if_neg (by omega)]
  rw [if_pos h']

theorem regView_leaves (s : State) {n : Nat} (h : 0x900 ≤ n) (h' : n < 0xA00) :
    regView n s = some ⟨8, s.status.serV && decide (n - 0x900 < s.leafCount.toNat),
      (s.leafByte (n - 0x900)).setWidth 64⟩ := by
  unfold regView
  repeat rw [if_neg (by omega)]
  rw [if_pos h']

/-- No register has a number outside the map (R53). -/
theorem regView_reserved (s : State) {n : Nat}
    (h : (0x00B ≤ n ∧ n < 0x100) ∨ (0x300 ≤ n ∧ n < 0x400) ∨ (0x840 ≤ n ∧ n < 0x900) ∨ 0xA00 ≤ n) :
    regView n s = none := by
  rcases h with ⟨h, h'⟩ | ⟨h, h'⟩ | ⟨h, h'⟩ | h
  · unfold regView
    rw [if_pos h']
    split
    case h_12 => rfl
    all_goals omega
  · unfold regView
    repeat rw [if_neg (by omega)]
    rw [if_pos h']
  · unfold regView
    repeat rw [if_neg (by omega)]
    rw [if_pos h']
  · unfold regView
    repeat rw [if_neg (by omega)]

/-! ### The bits of the words the host reads (R30, R42) -/

/-- Every bit of the word a read of STATUS hands the host (R30). -/
theorem Status.bit_read (st : Status) (i : Nat) :
    (st.toWord.setWidth 64 : Word64).getLsbD i =
      if i = 0 then st.busy else if i = 1 then st.done else if i = 2 then st.err else if i = 3 then false
      else if i < 8 then st.phase.getLsbD (i - 4) else if i = 8 then st.freqV else if i = 9 then st.treeV
      else if i = 10 then st.codeV else if i = 11 then st.serV else if i = 12 then st.hdrw
      else if i = 13 then st.parsed else false := by
  rw [← Status.getLsbD_toWord, BitVec.getLsbD_setWidth]
  by_cases h : i < 64
  · simp [h]
  · simp [h, BitVec.getLsbD_of_ge st.toWord i (by omega)]

/-- PHASE stands in bits 7 to 4 (R30). -/
theorem Status.phase_read (st : Status) : (st.toWord.setWidth 64 : Word64).extractLsb' 4 4 = st.phase := by
  ext i hi
  rw [BitVec.getElem_extractLsb', Status.bit_read]
  repeat rw [if_neg (by omega)]
  rw [if_pos (by omega), Nat.add_sub_cancel_left, BitVec.getLsbD_eq_getElem hi]

/-- Bits 3 and 31:14 of STATUS are reserved and read 0 (R30). -/
theorem Status.reserved_read (st : Status) {i : Nat} (h : i = 3 ∨ 14 ≤ i) :
    (st.toWord.setWidth 64 : Word64).getLsbD i = false := by
  rw [Status.bit_read]
  rcases h with rfl | h
  · rfl
  · repeat rw [if_neg (by omega)]

/-- CODE_LEN: `present` in bit 8, `len` in bits 7 to 0, nothing above (R42). -/
theorem CodeEntry.lenWord_read (e : CodeEntry) :
    (e.lenWord.setWidth 64 : Word64).getLsbD 8 = e.present ∧ (e.lenWord.setWidth 64 : Word64).setWidth 8 = e.len ∧
      (e.lenWord.setWidth 64 : Word64).toNat < 512 := by
  refine ⟨?_, ?_, ?_⟩
  · rw [BitVec.getLsbD_setWidth, lenWord, BitVec.getLsbD_append]
    simp
  · refine BitVec.eq_of_getLsbD_eq fun i hi => ?_
    rw [BitVec.getLsbD_setWidth, BitVec.getLsbD_setWidth, lenWord, BitVec.getLsbD_append, if_pos hi]
    simp [hi, show i < 64 by omega]
  · have := e.lenWord.isLt
    rw [BitVec.toNat_setWidth]
    omega

/-- CODE_BITS: bit i of the code stands at bit `63 - (i mod 64)` of word `i div 64`, 0 past the length (R42). -/
theorem CodeEntry.bitsWord_read (e : CodeEntry) {i : Nat} (h : i < 256) :
    (e.bitsWord (i / 64)).getLsbD (63 - i % 64) = e.seq.getD i false := by
  have hpos : 192 - 64 * (i / 64) + (63 - i % 64) = 255 - i := by omega
  have hlen : e.len.toNat < 256 := e.len.isLt
  rw [bitsWord, BitVec.getLsbD_extractLsb', hpos, BitVec.getLsbD_and, BitVec.getLsbD_shiftLeft,
    BitVec.getLsbD_allOnes]
  by_cases hi : i < e.len.toNat
  · have hmask : ¬ 255 - i < 256 - e.len.toNat := by omega
    simp [hmask, seq, hi, show 63 - i % 64 < 64 by omega, show 255 - i < 256 by omega,
      show 255 - i - (256 - e.len.toNat) < 256 by omega]
  · have hmask : 255 - i < 256 - e.len.toNat := by omega
    simp [hmask, seq, hi]

/-! ### The statements -/

/-- Settles O6: BUSY stops every write, and turns every read but that of STATUS into a draw. -/
theorem busyBlockIgnoresWritesAndReadsDraws : Obligations.BusyBlockIgnoresWritesAndReadsDraws := by
  intro s rest hb
  let u : State := { s with host := rest }
  have hu : u.status.busy = true := hb
  refine ⟨fun n v => writeReg_of_busy (s := u) hu n v, ?_, fun n r hn hr => ?_⟩
  · refine ⟨_, _, step_readReg s rest 1, readReg_status_of_busy (s := u) hu, ?_, ?_, ?_,
      Status.phase_read _, fun i h8 h13 => ?_, fun i hi => Status.reserved_read _ hi⟩
    · exact Status.bit_read _ 0
    · exact Status.bit_read _ 1
    · exact Status.bit_read _ 2
    · rw [Status.bit_read]
      obtain rfl | rfl | rfl | rfl | rfl | rfl : i = 8 ∨ i = 9 ∨ i = 10 ∨ i = 11 ∨ i = 12 ∨ i = 13 := by omega
      all_goals rfl
  · exact ⟨_, step_readReg s rest n, congrArg State.hostRead (readReg_of_busy (s := u) hu hn hr)⟩

/-- The byte value of a window's index (R42). -/
theorem ofNat_window (base : Nat) (b : Byte) : BitVec.ofNat 8 (base + b.toNat - base) = b := by
  rw [Nat.add_sub_cancel_left, BitVec.ofNat_toNat, BitVec.setWidth_eq]

/-- Settles O7: the range of each window gives the element, and its flag the meaning. -/
theorem windowsShowTheRegisterFiles : Obligations.WindowsShowTheRegisterFiles := by
  intro s rest hb
  refine ⟨fun hf b => ?freq, fun hc b => ?codeLen, fun hc b w hw => ?codeBits, fun hv k hk hlen => ?shape,
    fun hv k hk hlen => ?leaves⟩
  case freq =>
    have hb' := b.isLt
    have hr := regView_freq s (n := 0x100 + b.toNat) (by omega) (by omega)
    rw [ofNat_window, hf] at hr
    exact step_read_value rest hb hr
  case codeLen =>
    have hb' := b.isLt
    have hr := regView_codeLen s (n := 0x200 + b.toNat) (by omega) (by omega)
    rw [ofNat_window, hc] at hr
    obtain ⟨t, ht, hread⟩ := step_read_value rest hb hr
    exact ⟨t, _, ht, hread, (s.codeOf b).lenWord_read⟩
  case codeBits =>
    have hb' := b.isLt
    have hr := regView_codeBits s (n := 0x400 + 4 * b.toNat + w) (by omega) (by omega)
    rw [show (0x400 + 4 * b.toNat + w - 0x400) / 4 = 0 + b.toNat - 0 by omega, ofNat_window,
      show (0x400 + 4 * b.toNat + w - 0x400) % 4 = w by omega, hc] at hr
    obtain ⟨t, ht, hread⟩ := step_read_value rest hb hr
    refine ⟨t, _, ht, hread, fun i hi => ?_⟩
    subst hi
    exact (s.codeOf b).bitsWord_read (by omega)
  case shape =>
    have hr := regView_shape s (n := 0x800 + k) (by omega) (by omega)
    rw [Nat.add_sub_cancel_left, hv, decide_eq_true hlen] at hr
    exact step_read_value rest hb hr
  case leaves =>
    have hr := regView_leaves s (n := 0x900 + k) (by omega) (by omega)
    rw [Nat.add_sub_cancel_left, hv, decide_eq_true hlen] at hr
    exact step_read_value rest hb hr

/-- Settles O8: each scalar register's row of the map, and the bits of the STATUS word. -/
theorem scalarRegistersRead : Obligations.ScalarRegistersRead := by
  intro s rest hb
  have reads : ∀ {n w : Nat} {v : Word64}, regView n s = some ⟨w, true, v⟩ →
      ∃ t, step { s with host := .readReg n :: rest } = .next t ∧ t.hostRead = some v :=
    fun h => step_read_value rest hb h
  refine ⟨⟨s.status.toWord.setWidth 64, reads rfl, rfl, ?_⟩, reads rfl, reads rfl, reads rfl, reads rfl, reads rfl,
    fun h => ?_, fun h => ?_, fun h => ?_⟩
  · have hbit := s.status.bit_read
    exact ⟨(hbit 0).trans hb, hbit 1, hbit 2, hbit 3, Status.phase_read _, hbit 8, hbit 9, hbit 10, hbit 11, hbit 12,
      hbit 13, fun i hi => Status.reserved_read _ (.inr hi)⟩
  · have hm : (s.status.freqV || s.status.parsed) = true := by simpa using h
    exact reads (w := 64) (by rw [← hm]; rfl)
  · exact ⟨reads (w := 16) (by rw [← h]; rfl), reads (w := 16) (by rw [← h]; rfl),
      reads (w := 16) (by rw [← h]; rfl)⟩
  · exact reads (w := 64) (by rw [← h]; rfl)

/-- Settles O9: in every case the register is in the map and holds no meaning. -/
theorem meaninglessReadsAreDraws : Obligations.MeaninglessReadsAreDraws := by
  intro s rest n width hb h
  suffices hv : ∃ v, regView n s = some ⟨width, false, v⟩ by
    obtain ⟨v, hv⟩ := hv
    exact step_read_draw rest hb hv
  rcases h with ⟨hf, h1, h2, rfl⟩ | ⟨hc, h1, h2, rfl⟩ | ⟨hc, h1, h2, rfl⟩ | ⟨hv, h1, h2, rfl⟩ | ⟨hv, h1, h2, rfl⟩ |
    ⟨hv, h1, h2, rfl⟩ | ⟨h1, h2, rfl⟩ | ⟨h1, h2, rfl⟩ | ⟨hf, hp, rfl, rfl⟩ | ⟨hp, rfl, rfl⟩
  · exact ⟨_, by rw [regView_freq s h1 h2, hf]⟩
  · exact ⟨_, by rw [regView_codeLen s h1 h2, hc]⟩
  · exact ⟨_, by rw [regView_codeBits s h1 h2, hc]⟩
  · exact ⟨_, by rw [regView_shape s h1 h2, hv, Bool.false_and]⟩
  · exact ⟨_, by rw [regView_leaves s h1 h2, hv, Bool.false_and]⟩
  · obtain rfl | rfl | rfl : n = 7 ∨ n = 8 ∨ n = 9 := by omega
    all_goals exact ⟨_, by rw [← hv]; rfl⟩
  · have hpast : ¬ n - 0x800 < ceil8 s.shapeBitLen.toNat := by omega
    exact ⟨_, by rw [regView_shape s (by omega) h2, decide_eq_false hpast, Bool.and_false]⟩
  · have hpast : ¬ n - 0x900 < s.leafCount.toNat := by omega
    exact ⟨_, by rw [regView_leaves s (by omega) h2, decide_eq_false hpast, Bool.and_false]⟩
  · have hm : (s.status.freqV || s.status.parsed) = false := by simp [hf, hp]
    exact ⟨_, by rw [← hm]; rfl⟩
  · exact ⟨_, by rw [← hp]; rfl⟩

/-- Settles O10: a reserved number is no register, and neither CMD nor IN_LEN. -/
theorem reservedRegistersReadZero : Obligations.ReservedRegistersReadZero := by
  intro s rest n h
  exact ⟨congrArg Host.Outcome.next (readReg_of_reserved (s := { s with host := rest }) (regView_reserved _ h)),
    fun v => writeReg_of_other (by omega) (by omega) v _⟩

/-- Settles O11: IN_LEN keeps the value, every number but CMD and IN_LEN ignores it. -/
theorem hostWritesOnlyInLen : Obligations.HostWritesOnlyInLen := by
  intro s rest v hb
  exact ⟨writeReg_inLen (s := { s with host := rest }) hb v, fun n h0 h4 => writeReg_of_other h0 h4 v _⟩

/-- With every flag 0 no register of the windows and no header register holds a meaning (R45). -/
theorem regView_meaningless_of_zero {s : State} (hs : s.status = Status.zero) {n : Nat} {r : RegView}
    (hn : (0x006 ≤ n ∧ n ≤ 0x00A) ∨ 0x100 ≤ n) (hr : regView n s = some r) : r.meaningful = false := by
  rcases hn with ⟨h6, hA⟩ | hn
  · obtain rfl | rfl | rfl | rfl | rfl : n = 6 ∨ n = 7 ∨ n = 8 ∨ n = 9 ∨ n = 10 := by omega
    all_goals
      obtain rfl := Option.some.inj hr
      simp [hs, Status.zero]
  · unfold regView at hr
    rw [if_neg (by omega), hs] at hr
    split_ifs at hr
    all_goals
      obtain rfl := Option.some.inj hr
      rfl

/-- Settles O12: reset clears STATUS, and with it every validity flag. -/
theorem resetValues : Obligations.ResetValues :=
  ⟨by decide, rfl, rfl, rfl, rfl, fun _ _ hn hr => regView_meaningless_of_zero rfl hn hr⟩

end Sys2Proof.Machine
end

section
/-! PROOFS. The memories: the byte last stored, what emit appends, and which OUT bytes a command can touch
(10_state.md R32, R48, 20_memory.md R66 to R69, R72, R77). -/

namespace Sys2Proof.Machine

/-! ### A stored byte (R62, R64) -/

theorem State.inByte_write (s : State) (a x : Nat) (b : Byte) :
    ({ s with inMem := s.inMem.write a b } : State).inByte x = if x = a then b else s.inByte x := by
  simp only [inByte, Memory.read?_write]
  split <;> rfl

theorem State.outByte_write (s : State) (a x : Nat) (b : Byte) :
    ({ s with outMem := s.outMem.write a b } : State).outByte x = if x = a then b else s.outByte x := by
  simp only [outByte, Memory.read?_write]
  split <;> rfl

/-! ### The OUT bytes a run leaves alone (R69, R77) -/

/-- Every OUT byte below `lo` and every one at or above OUT_LEN of `t` reads in `t` as in `s`. -/
def OutKept (lo : Nat) (s t : State) : Prop :=
  ∀ a, a < lo ∨ t.outLen.toNat ≤ a → t.outByte a = s.outByte a

/-- From `s` to `t` bytes were at most appended at OUT_LEN, and counted. -/
structure Appends (s t : State) : Prop where
  outLen_le : s.outLen.toNat ≤ t.outLen.toNat
  kept : OutKept s.outLen.toNat s t

theorem Appends.of_same {s t : State} (hlen : t.outLen = s.outLen) (hout : ∀ a, t.outByte a = s.outByte a) :
    Appends s t := ⟨by rw [hlen], fun a _ => hout a⟩

theorem Appends.refl (s : State) : Appends s s := .of_same rfl fun _ => rfl

theorem Appends.trans {s t u : State} (h : Appends s t) (h' : Appends t u) : Appends s u := by
  obtain ⟨hle, hkept⟩ := h
  obtain ⟨hle', hkept'⟩ := h'
  exact ⟨hle.trans hle', fun a ha =>
    (hkept' a (ha.imp_left fun hlt => hlt.trans_le hle)).trans (hkept a (ha.imp_right hle'.trans))⟩

theorem Appends.andThen {α β : Type} {s : State} {r : Run α} {k : α → State → Run β} (h : Appends s r.final)
    (hk : ∀ a t, Appends t (k a t).final) : Appends s (r.andThen k).final :=
  Run.final_andThen (P := Appends s) h fun a t ht => ht.trans (hk a t)

/-- What writes neither OUT nor OUT_LEN appends nothing. -/
theorem Appends.of_frame {w : List Part} {s t : State} (h : Frame w s t) (hm : .outMem ∉ w) (hl : .outLen ∉ w) :
    Appends s t := .of_same (h .outLen hl) (h .outMem hm)

/-- Bytes emitted to writable addresses are appended, and OUT_LEN does not wrap (R199). -/
theorem State.emitted_appends {s : State} {bs : ByteSeq}
    (hw : s.outWritable s.outLen.toNat (s.outLen.toNat + bs.length)) : Appends s (s.emitted bs) := by
  have hlen := s.outLen_emitted bs (s.outWritable_lt hw s.outLen.isLt (Nat.le_add_right _ _))
  refine ⟨hlen ▸ Nat.le_add_right _ _, fun a ha => ?_⟩
  rw [s.outByte_emitted bs a, if_neg (by omega)]

theorem emitAll_appends (bs : ByteSeq) (s : State) : Appends s (emitAll bs s).final := by
  obtain ⟨hw, he⟩ | ⟨n, hn, hw, -, he⟩ := emitAll_cases bs s <;> rw [he]
  · exact State.emitted_appends hw
  · rw [← List.length_take_of_le hn.le] at hw
    exact (State.emitted_appends hw).trans (.of_same rfl fun _ => rfl)

theorem emit_appends (b : Byte) (s : State) : Appends s (emit b s).final :=
  emit_eq_emitAll b s ▸ emitAll_appends [b] s

theorem raise_appends {α : Type} (c : Cause) (info : Nat) (s : State) : Appends s (raise (α := α) c info s).final :=
  .of_frame (raise_frame c info s) (by decide) (by decide)

theorem memRead_appends (a : Nat) (s : State) : Appends s (memRead a s).final :=
  .of_frame (memRead_frame a s) (by decide) (by decide)

/-- Opening a stage touches STATUS and the fault record only (R40, R220). -/
theorem openStage_keeps_out (g : Stage) (s : State) :
    (openStage g s).final.outLen = s.outLen ∧ (openStage g s).final.outMem = s.outMem := by
  cases hr : g.requires s.status with
  | false => rw [openStage_fault hr]; exact ⟨rfl, rfl⟩
  | true => rw [openStage_ok hr]; exact ⟨rfl, rfl⟩

theorem openStage_outByte (g : Stage) (s : State) (a : Nat) : (openStage g s).final.outByte a = s.outByte a := by
  rw [State.outByte, (openStage_keeps_out g s).2, State.outByte]

theorem openStage_appends (g : Stage) (s : State) : Appends s (openStage g s).final :=
  .of_same (openStage_keeps_out g s).1 (openStage_outByte g s)

theorem closeStage_appends (g : Stage) (s : State) : Appends s (closeStage g s).final := .of_same rfl fun _ => rfl

theorem flush_appends (acc : BitSeq) (s : State) : Appends s (flush acc s).final := by
  simp only [flush]
  split
  · exact .refl s
  · exact emit_appends _ s

theorem packBytes_appends (n i : Nat) (acc : BitSeq) (s : State) : Appends s (packBytes n i acc s).final := by
  induction n generalizing i acc s with
  | zero => exact flush_appends acc s
  | succ n ih =>
    refine (memRead_appends i s).andThen fun b t => ?_
    split
    · exact raise_appends _ _ t
    · exact (emitAll_appends _ t).andThen fun _ u => ih _ _ u

theorem walkBit_appends (at' : Nat) (cur : Tree) (bit : Bool) (s : State) :
    Appends s (walkBit at' cur bit s).final := by
  simp only [walkBit]
  split
  · exact raise_appends _ _ s
  · split
    · exact (emit_appends _ s).andThen fun _ t => .refl t
    · exact .refl s

theorem walkBits_appends (at' : Nat) (bits : BitSeq) (cur : Tree) (s : State) :
    Appends s (walkBits at' bits cur s).final := by
  induction bits generalizing cur s with
  | nil => exact .refl s
  | cons bit bits ih =>
    simp only [walkBits]
    split
    · exact .refl s
    · exact (walkBit_appends at' cur bit s).andThen fun next t => ih next t

theorem unpackBytes_appends (fuel pos : Nat) (cur : Tree) (s : State) :
    Appends s (unpackBytes fuel pos cur s).final := by
  induction fuel generalizing pos cur s with
  | zero =>
    simp only [unpackBytes]
    split
    · exact raise_appends _ _ s
    · exact .refl s
  | succ fuel ih =>
    simp only [unpackBytes]
    split
    · exact .refl s
    · split
      · exact raise_appends _ _ s
      · exact (memRead_appends pos s).andThen fun b t => (walkBits_appends _ _ _ t).andThen fun _ u => ih _ _ u

/-! ### The stages: quiet, appending, restarting -/

/-- PACK, the one stage that starts at the OUT_LEN it finds (R153). -/
theorem stagePack_appends (s : State) : Appends s (stagePack s).final := by
  refine (openStage_appends .pack s).andThen fun _ t => ?_
  split
  · exact raise_appends _ _ t
  · exact (packBytes_appends _ _ _ t).andThen fun _ u => closeStage_appends .pack u

/-- What appends after OUT_LEN was set to 0 keeps every byte at or above the final OUT_LEN. -/
theorem Appends.keeps_after_restart {s t : State} (h : Appends { s with outLen := 0 } t) : OutKept 0 s t :=
  fun a ha => h.kept a (.inr (ha.resolve_left (Nat.not_lt_zero a)))

/-- Appending only moves OUT_LEN up, so the bytes at or above it are still those of `s`. -/
theorem OutKept.appends {s t u : State} (h : OutKept 0 s t) (h' : Appends t u) : OutKept 0 s u := by
  intro a ha
  have hge : u.outLen.toNat ≤ a := ha.resolve_left (Nat.not_lt_zero a)
  exact (h'.kept a (.inr hge)).trans (h a (.inr (h'.outLen_le.trans hge)))

theorem OutKept.refl (lo : Nat) (s : State) : OutKept lo s s := fun _ _ => rfl

/-- A first part that leaves OUT as it was, completed or not, does not widen what the second one touches. -/
theorem OutKept.after_same {α β : Type} {lo : Nat} {s : State} {r : Run α} {k : α → State → Run β}
    (hr : ∀ a, r.final.outByte a = s.outByte a) (hk : ∀ x t, OutKept lo t (k x t).final) :
    OutKept lo s (r.andThen k).final := by
  cases r with
  | ok x t => exact fun a ha => (hk x t a ha).trans (hr a)
  | raised t => exact fun a _ => hr a

theorem stageHemit_keeps (s : State) : OutKept 0 s (stageHemit s).final :=
  OutKept.after_same (openStage_outByte .hemit s) fun _ _ => Appends.keeps_after_restart
    ((emitAll_appends _ _).andThen fun _ u => closeStage_appends .hemit u)

theorem stageUnpack_keeps (s : State) : OutKept 0 s (stageUnpack s).final :=
  OutKept.after_same (openStage_outByte .unpack s) fun _ _ => Appends.keeps_after_restart
    ((unpackBytes_appends _ _ _ _).andThen fun _ u => closeStage_appends .unpack u)

/-- The stage touches neither OUT nor OUT_LEN (R26). -/
def Stage.quiet (g : Stage) : Bool := g.parts.all fun p => p != .outMem && p != .outLen

/-- The stage never sets OUT_LEN back. -/
def Stage.appending (g : Stage) : Bool := g.quiet || g == .pack

theorem Stage.quiet_frame {g : Stage} (h : g.quiet = true) :
    Part.outMem ∉ frameParts ++ g.parts ∧ Part.outLen ∉ frameParts ++ g.parts := by
  revert h; cases g <;> decide

/-- A quiet stage leaves OUT and OUT_LEN as they were, completed or not. -/
theorem runStage_of_quiet {g : Stage} (h : g.quiet = true) (s : State) :
    (runStage g (stageBody g) s).final.outLen = s.outLen ∧
      ∀ a, (runStage g (stageBody g) s).final.outByte a = s.outByte a := by
  obtain ⟨hm, hl⟩ := g.quiet_frame h
  have hf := runStage_frame (g := g) (fun p hp => List.mem_append_left _ hp) (stageBody_frame g) s
  exact ⟨hf .outLen hl, hf .outMem hm⟩

theorem runStage_appends {g : Stage} (h : g.appending = true) (s : State) :
    Appends s (runStage g (stageBody g) s).final := by
  by_cases hq : g.quiet = true
  · obtain ⟨hl, hm⟩ := runStage_of_quiet hq s
    exact .of_same hl hm
  · obtain rfl : g = .pack := by simpa [Stage.appending, hq] using h
    obtain ⟨hle, hkept⟩ := stagePack_appends { s with status := { s.status with phase := Stage.number .pack } }
    exact ⟨hle, hkept⟩

theorem runStage_keeps_above (g : Stage) (s : State) : OutKept 0 s (runStage g (stageBody g) s).final := by
  by_cases ha : g.appending = true
  · exact (OutKept.refl 0 s).appends (runStage_appends ha s)
  · obtain rfl | rfl : g = .hemit ∨ g = .unpack := by revert ha; cases g <;> decide
    · exact stageHemit_keeps { s with status := _ }
    · exact stageUnpack_keeps { s with status := _ }

theorem runStages_appends {gs : List Stage} (h : gs.all Stage.appending = true) (s : State) :
    Appends s (runStages gs s).final := by
  induction gs generalizing s with
  | nil => exact .refl s
  | cons g gs ih =>
    rw [List.all_cons, Bool.and_eq_true] at h
    exact (runStage_appends h.1 s).andThen fun _ t => ih h.2 t

/-- Nothing has been appended when a stage sets OUT_LEN back: only quiet stages stand before the first stage that
writes OUT, and only appending ones after it. -/
def restartsBeforeAppending : List Stage → Bool
  | [] => true
  | g :: gs => if g.quiet then restartsBeforeAppending gs else gs.all Stage.appending

theorem commandStages_restart (i : Instr) : restartsBeforeAppending (commandStages i) = true := by
  cases i <;> decide

theorem runStages_keeps_above {gs : List Stage} (h : restartsBeforeAppending gs = true) (s : State) :
    OutKept 0 s (runStages gs s).final := by
  induction gs generalizing s with
  | nil => exact .refl 0 s
  | cons g gs ih =>
    by_cases hq : g.quiet = true
    · rw [restartsBeforeAppending, if_pos hq] at h
      exact OutKept.after_same (runStage_of_quiet hq s).2 fun _ t => ih h t
    · rw [restartsBeforeAppending, if_neg hq] at h
      exact Run.final_andThen (runStage_keeps_above g s) fun _ t ht => ht.appends (runStages_appends h t)

/-- The stages of PACK only append; those of any other command set OUT_LEN to 0 before anything is appended. -/
theorem runStages_keeps_output (i : Instr) (s : State) :
    OutKept (if i = .pack then s.outLen.toNat else 0) s (runStages (commandStages i) s).final := by
  split
  · next hi => subst hi; exact (runStages_appends (by decide) s).kept
  · exact runStages_keeps_above (commandStages_restart i) s

/-! ### The statements -/

/-- Settles O52: HEMIT and UNPACK set OUT_LEN to 0 before any byte is appended, and from then on bytes are only
appended at OUT_LEN and counted. -/
theorem outputStaysWithinOutLen : Obligations.OutputStaysWithinOutLen := by
  intro i s t he a ha hclr
  by_cases hn : commandStages i = []
  · obtain rfl | rfl := commandStages_eq_nil hn
    · cases he; rfl
    · exact absurd rfl hclr
  · rw [exec_eq_runStages hn] at he
    have hkept := runStages_keeps_output i { s with status := { s.status with done := false, busy := true } }
    obtain ⟨u, hu, hx⟩ | ⟨u, hu, hx⟩ := runCommand_cases (runStages (commandStages i)) s
    all_goals
      rw [hx] at he
      cases he
      rw [hu] at hkept
      exact hkept a ha

/-- Settles O16: the two cases of emit, and what appending one byte stores, counts and leaves alone. -/
theorem emitAppendsOneByte : Obligations.EmitAppendsOneByte := by
  intro b s
  obtain ⟨hcap, hok, he⟩ | ⟨hbad, he⟩ := emit_cases b s
  · have hmax := s.platform.outCap.isLt
    refine ⟨fun h => absurd h (not_or.mpr ⟨Nat.not_le.mpr hcap, hok⟩),
      fun _ _ => ⟨s.emitted [b], he, ?_, ?_, ?_, ?_⟩⟩
    · exact s.outLen_emitted [b] (by rw [List.length_singleton]; omega)
    · simp [s.outByte_emitted]
    · intro a ha
      rw [s.outByte_emitted, if_neg (by rw [List.length_singleton]; omega)]
    · exact s.emitted_frame [b]
  · exact ⟨fun _ => he, fun hcap hok => absurd hbad (not_or.mpr ⟨Nat.not_le.mpr hcap, hok⟩)⟩

/-- Settles O15: a store makes the byte the one read at its address and at no other, and each access tests the
capacity first. -/
theorem memoriesReturnTheStoredByte : Obligations.MemoriesReturnTheStoredByte := by
  refine ⟨fun a s => ⟨memRead_fault, fun hcap hok => ⟨memRead_ok hcap hok, fun b => ?memRead⟩⟩,
    fun s a b rest hcap => ?storeIn, fun s a b rest hcap => ?storeOut, fun s a rest hb => ?load,
    fun s a b rest => ?pastCapacity⟩
  case memRead =>
    have hread := memRead_ok (s := { s with inMem := s.inMem.write a b }) hcap hok
    rwa [s.inByte_write, if_pos rfl] at hread
  case storeIn =>
    refine ⟨_, if_neg (Nat.not_le.mpr hcap), ?_, fun x hx => ?_, rfl⟩
    · exact (s.inByte_write a.toNat a.toNat b).trans (if_pos rfl)
    · exact (s.inByte_write a.toNat x b).trans (if_neg hx)
  case storeOut =>
    refine ⟨_, if_neg (Nat.not_le.mpr hcap), ?_, fun x hx => ?_, rfl⟩
    · exact (s.outByte_write a.toNat a.toNat b).trans (if_pos rfl)
    · exact (s.outByte_write a.toNat x b).trans (if_neg hx)
  case load =>
    have hidle : ¬ s.status.busy = true := Bool.eq_false_iff.mp hb
    refine ⟨fun hcap => ?_, fun hcap hlen => ?_, fun hcap hlen => ?_⟩
    · exact (if_neg (Nat.not_le.mpr hcap)).trans (if_neg hidle)
    · exact (if_neg (Nat.not_le.mpr hcap)).trans (if_neg (not_or.mpr ⟨hidle, Nat.not_le.mpr hlen⟩))
    · exact (if_neg (Nat.not_le.mpr hcap)).trans (if_pos (.inr hlen))
  case pastCapacity =>
    exact ⟨fun hcap => ⟨if_pos hcap, if_pos hcap⟩, fun hcap => ⟨if_pos hcap, if_pos hcap⟩⟩

end Sys2Proof.Machine
end

section
/-! PROOFS. Command words: the decoder and the encoder are inverse to each other, which words are illegal, and what an
illegal one does when it is written to CMD (30_encoding.md R86, R87, R89). -/

namespace Sys2Proof.Machine

theorem decode_encode (i : Instr) : decode (encode i) = .ok i := by cases i <;> rfl

/-- Every row of the opcode map is the word of its command and the command. -/
theorem eq_encode_of_mem_opcodeTable : ∀ row ∈ opcodeTable, row.1 = encode row.2 := by decide

theorem eq_encode_of_decode {w : Word32} {i : Instr} (h : decode w = .ok i) : w = encode i := by
  simp only [decode] at h
  split at h
  · next row hrow =>
    cases h
    have hw : row.1 = w := by simpa using List.find?_some hrow
    exact hw.symm.trans (eq_encode_of_mem_opcodeTable row (List.mem_of_find?_eq_some hrow))
  · cases h

theorem decode_eq_ok_iff (w : Word32) (i : Instr) : decode w = .ok i ↔ w = encode i :=
  ⟨eq_encode_of_decode, fun h => h ▸ decode_encode i⟩

/-- A word that is no command's word is rejected, by one of the names of R89. -/
theorem decode_of_ne_encode {w : Word32} (h : ∀ i, encode i ≠ w) : ∃ e, decode w = .error e := by
  cases hd : decode w with
  | ok i => exact absurd (eq_encode_of_decode hd).symm (h i)
  | error e => exact ⟨e, rfl⟩

/-- Bits 31:8 are zero on the words of one byte. -/
theorem extractLsb_high_eq_zero_iff (w : Word32) : w.extractLsb 31 8 = 0 ↔ w.toNat < 0x100 := by
  have hlt := w.isLt
  rw [← BitVec.toNat_inj, BitVec.extractLsb_toNat, Nat.shiftRight_eq_div_pow]
  simp only [BitVec.ofNat_eq_ofNat, BitVec.toNat_ofNat]
  omega

/-- The words of the commands are those of the five runs of the opcode map (R87). -/
theorem exists_encode_eq_iff (w : Word32) : (∃ i, encode i = w) ↔
    w.toNat ≤ 0x01 ∨ (0x10 ≤ w.toNat ∧ w.toNat ≤ 0x15) ∨ w.toNat = 0x1F ∨
      (0x20 ≤ w.toNat ∧ w.toNat ≤ 0x22) ∨ w.toNat = 0x2F := by
  constructor
  · rintro ⟨i, rfl⟩
    cases i <;> decide
  · intro h
    by_contra hne
    have hall : ∀ i ∈ Instr.all, (encode i).toNat ≠ w.toNat :=
      fun i _ hi => hne ⟨i, BitVec.eq_of_toNat_eq hi⟩
    simp only [Instr.all, List.forall_mem_cons, encode, BitVec.ofNat_eq_ofNat, BitVec.toNat_ofNat] at hall
    omega

/-- An illegal word where a command would be accepted: fault entry with IllegalCmd and the word (R186, R219). -/
theorem accept_illegal {w : Word32} {s : State} (hb : s.status.busy = false) (he : s.status.err = false)
    (h : ∀ i, encode i ≠ w) : accept w s = .next (faultEntry .illegalCmd (w.setWidth 64) s) := by
  obtain ⟨e, hd⟩ := decode_of_ne_encode h
  simp [accept, hb, he, (h .clr).symm, hd]

/-- A word the host writes to CMD while BUSY = 0 is presented to the engine, and the write is consumed (R29, R186). -/
theorem step_writeCmd {s : State} {v : Word64} {rest : List HostAction} (hh : s.host = .writeReg 0x000 v :: rest)
    (hb : s.status.busy = false) : step s = accept (v.setWidth 32) { s with host := rest } := by
  simp [step, hh, perform, writeReg, hb]

/-! ### The statements -/

/-- Settles O1: encoding is inverted by decoding, and a row the decoder finds is an encoded command. -/
theorem decodeComparesWholeWord : Obligations.DecodeComparesWholeWord := decode_eq_ok_iff

/-- Settles O2: the thirteen words are the encoded commands. -/
theorem tableWordsDecode : Obligations.TableWordsDecode :=
  ⟨decode_encode .nop, decode_encode .clr, decode_encode .fscan, decode_encode .tbuild, decode_encode .cbuild,
    decode_encode .tser, decode_encode .hemit, decode_encode .pack, decode_encode .compress, decode_encode .hparse,
    decode_encode .tdes, decode_encode .unpack, decode_encode .decompress⟩

/-- Settles O3: the illegal words are what the runs of the opcode map leave, and the decoder rejects them in the last
test of acceptance. -/
theorem illegalWordRaisesIllegalCmd : Obligations.IllegalWordRaisesIllegalCmd := by
  refine ⟨fun w => ?_, fun s v rest hhost hb he hw => ?_⟩
  · rw [← not_exists, exists_encode_eq_iff, ne_eq, extractLsb_high_eq_zero_iff]
    omega
  · exact (step_writeCmd hhost hb).trans (accept_illegal hb he hw)

end Sys2Proof.Machine
end

section
/-! PROOFS. Frequency analysis: what the command FSCAN leaves where the source can be read, and where it cannot
(40_frequency.md R116, R117, 60_exceptions.md R217). -/

namespace Sys2Proof.Machine

/-- IN can be read no further than an address that cannot be read. -/
theorem State.inReadable.le_of_unreadable {s : State} {n a : Nat} (hr : s.inReadable n)
    (hbad : s.platform.inCap.toNat ≤ a ∨ a ∈ s.platform.inFault) : n ≤ a := by
  by_contra hlt
  obtain ⟨hcap, hok⟩ := hr a (Nat.not_le.mp hlt)
  exact hbad.elim (Nat.not_le.mpr hcap) hok

/-- FSCAN as a stage raises IoRead at the first source address that cannot be read, the bytes before it counted
(R217). -/
theorem runStage_fscan_unreadable {s : State} {a : Nat} (hr : s.inReadable a) (ha : a < s.inLen.toNat)
    (hbad : s.platform.inCap.toNat ≤ a ∨ a ∈ s.platform.inFault) :
    runStage .fscan stageFscan s = .raised (faultEntry .ioRead (BitVec.ofNat 64 a)
      { s with
        freq := freqTable (s.inSeq 0 a)
        status := Stage.clears .fscan { s.status with phase := 1 } }) := by
  obtain ⟨hall, -⟩ | ⟨x, -, hx, hxbad, h⟩ :=
    stageFscan_cases { s with status := { s.status with phase := Stage.fscan.number } }
  · exact absurd (hall.le_of_unreadable hbad) (Nat.not_le.mpr ha)
  · obtain rfl : x = a := Nat.le_antisymm (hx.le_of_unreadable hbad) (hr.le_of_unreadable hxbad)
    exact h

/-! ### The statements -/

/-- Settles O22: the command is the stage in the frame of R187, and the stage leaves the table of the source, whose
counts fit their counters and sum to IN_LEN. -/
theorem fscanCountsTheSource : Obligations.FscanCountsTheSource := by
  intro s hr
  have hrun := runStage_fscan { s with status := { s.status with done := false, busy := true } } hr
  exact ⟨_, runCommand_ok hrun, s.toNat_freqOf_counted, s.total_counted, rfl⟩

/-- Settles O23: the stage raises IoRead, and the frame of R187 leaves the state fault entry left. -/
theorem fscanRecordsTheUnreadableAddress : Obligations.FscanRecordsTheUnreadableAddress := by
  intro s a hr ha hbad
  have hrun := runStage_fscan_unreadable (s := { s with status := { s.status with done := false, busy := true } })
    hr ha hbad
  exact ⟨_, runCommand_raised hrun, rfl⟩

end Sys2Proof.Machine
end

section
/-! SUPPORT. What the tree builder's command leaves, and where the leaf of a byte value stands in its queue
(41_tree_builder.md R121 to R125). -/

namespace Sys2Proof.Machine

/-! ### The command TBUILD (R40, R121, R187) -/

/-- `s` where TBUILD completes on it with the tree `t`. -/
def State.tbuilt (s : State) (t : Tree) : State :=
  { s with
    tree := t
    status := { s.status with
      busy := false, done := true, phase := 0, treeV := true, codeV := false, serV := false, hdrw := false,
      parsed := false } }

/-- With FREQ_V = 1 and two counted byte values TBUILD completes with the built tree. -/
theorem exec_tbuild {s : State} (hf : s.status.freqV = true) (hd : 2 ≤ s.distinct) :
    ∃ t, s.builtTree = some t ∧ exec .tbuild s = .next (s.tbuilt t) := by
  obtain ⟨h, -⟩ | ⟨-, h, -⟩ | ⟨-, -, t, ht, he⟩ := stageTbuild_cases (s.atStage .tbuild)
  · exact absurd (hf.symm.trans h) (by decide)
  · exact absurd hd (Nat.not_le.mpr h)
  · exact ⟨t, (State.builtTree_congr (s := s) (s' := s.atStage .tbuild) rfl).trans ht, stageCommand_ok he⟩

/-- The tree a completed TBUILD leaves is the built tree. -/
theorem builtTree_of_exec_tbuild {s t : State} (hf : s.status.freqV = true) (hd : 2 ≤ s.distinct)
    (he : exec .tbuild s = .next t) : s.builtTree = some t.tree := by
  obtain ⟨tr, ht, he'⟩ := exec_tbuild hf hd
  cases he'.symm.trans he
  exact ht

/-- A built tree is the one the merges of R121 make; its leaves are the symbols. -/
theorem State.builtTree_some {s : State} {t : Tree} (hd : 2 ≤ s.distinct) (ht : s.builtTree = some t) :
    t.leaves.Perm s.symbols ∧ ∃ ms, MergeRun s.distinct s.leafEntries ms t := by
  obtain ⟨t', ht', h⟩ := s.builtTree_spec (by rw [s.length_symbols]; omega)
  cases ht.symm.trans ht'
  exact h

/-! ### The order of the queue (R123) -/

theorem Entry.before_trans {x y z : Entry} (h : x.before y = true) (h' : y.before z = true) : x.before z = true := by
  rw [Entry.before_iff] at *
  omega

/-- Of two entries with different sequence numbers one is before the other. -/
theorem Entry.before_of_not_before {x y : Entry} (hne : y.seq ≠ x.seq) (h : ¬ x.before y = true) :
    y.before x = true := by
  rw [Entry.before_iff] at *
  omega

/-- Inserting an entry with a new sequence number, older or younger than those there, keeps the queue in order. -/
theorem enqueue_sorted (x : Entry) {q : List Entry} (h : q.Pairwise fun a b => a.before b = true)
    (hx : ∀ y ∈ q, y.seq ≠ x.seq) : (enqueue x q).Pairwise fun a b => a.before b = true := by
  induction q with
  | nil => exact List.pairwise_singleton _ x
  | cons y q ih =>
    obtain ⟨hy, hq⟩ := List.pairwise_cons.mp h
    obtain ⟨hxy, hxq⟩ := List.forall_mem_cons.mp hx
    simp only [enqueue]
    split
    · next hb =>
      exact List.pairwise_cons.mpr ⟨List.forall_mem_cons.mpr ⟨hb, fun z hz => Entry.before_trans hb (hy z hz)⟩, h⟩
    · next hb =>
      refine List.pairwise_cons.mpr ⟨fun z hz => ?_, ih hq hxq⟩
      obtain rfl | hz := List.mem_cons.mp ((enqueue_perm x q).mem_iff.mp hz)
      · exact Entry.before_of_not_before hxy hb
      · exact hy z hz

/-! ### The leaf of a byte value (R121, R123) -/

theorem exists_range_eq_append_cons {k n : Nat} (h : k < n) : ∃ rest, List.range n = List.range k ++ k :: rest := by
  obtain ⟨m, rfl⟩ := Nat.exists_eq_add_of_lt h
  rw [Nat.add_assoc, List.range_add, List.range_succ_eq_map]
  exact ⟨_, rfl⟩

/-- The number of counted byte values below `b`. -/
def State.rank (s : State) (b : Byte) : Nat :=
  ((List.range b.toNat).filter fun k => decide (0 < (s.freqOf (BitVec.ofNat 8 k)).toNat)).length

/-- A counted byte value stands in the ascending order of all of them where its rank says. -/
theorem State.getElem?_symbols_rank {s : State} {b : Byte} (hb : 0 < (s.freqOf b).toNat) :
    s.symbols[s.rank b]? = some b := by
  obtain ⟨rest, hrange⟩ := exists_range_eq_append_cons b.isLt
  have hrank : s.rank b =
      (((List.range b.toNat).map (BitVec.ofNat 8)).filter fun c => decide (0 < (s.freqOf c).toNat)).length := by
    rw [List.filter_map, List.length_map]
    rfl
  rw [hrank, symbols, hrange, List.map_append, List.filter_append, List.getElem?_append_right (Nat.le_refl _),
    Nat.sub_self]
  simp [hb]

/-- Step 1 has a leaf entry for each counted byte value, numbered by its rank, and no other. -/
theorem State.mem_leafEntries {s : State} {e : Entry} :
    e ∈ s.leafEntries ↔ ∃ b, 0 < (s.freqOf b).toNat ∧ e = ⟨s.freqOf b, s.rank b, .leaf b⟩ := by
  simp only [leafEntries, List.mem_map]
  constructor
  · rintro ⟨⟨b, k⟩, hmem, rfl⟩
    have hget : s.symbols[k]? = some b := List.mk_mem_zipIdx_iff_getElem?.mp hmem
    have hb := State.mem_symbols.mp (List.mem_of_getElem? hget)
    obtain ⟨hlt, -⟩ := List.getElem?_eq_some_iff.mp hget
    have hk : k = s.rank b :=
      (List.getElem?_inj hlt s.nodup_symbols).mp (hget.trans (State.getElem?_symbols_rank hb).symm)
    exact ⟨b, hb, by rw [hk]⟩
  · rintro ⟨b, hb, rfl⟩
    exact ⟨(b, s.rank b), List.mk_mem_zipIdx_iff_getElem?.mpr (State.getElem?_symbols_rank hb), rfl⟩

/-- A leaf entry carries the weight of its tree (R122). -/
theorem State.weight_leafEntries {s : State} : ∀ e ∈ s.leafEntries, e.w = s.weight e.t := by
  intro e he
  obtain ⟨b, -, rfl⟩ := State.mem_leafEntries.mp he
  rfl

/-! ### The nodes of the built tree (R122, R125, R196) -/

theorem Tree.everyNode.imp {p q : Tree → Tree → Prop} (hpq : ∀ l r, p l r → q l r) {t : Tree} (h : t.everyNode p) :
    t.everyNode q := by
  induction t with
  | leaf => trivial
  | node l r ihl ihr =>
    obtain ⟨hn, hl, hr⟩ := h
    exact ⟨hpq l r hn, ihl hl, ihr hr⟩

/-- Every internal node comes from one merge of the run, whose entries carry its children's weights, the entry before
the other on the left. -/
theorem MergeRun.everyNode_merge {s : State} {next : Nat} {ms : List (Entry × Entry)} {t : Tree}
    (h : MergeRun next s.leafEntries ms t) :
    t.everyNode fun l r =>
      ∃ m ∈ ms, m.1.t = l ∧ m.2.t = r ∧ m.1.w = s.weight l ∧ m.2.w = s.weight r ∧ m.1.before m.2 = true := by
  refine h.everyNode (fun e he => ?_) fun m hm => ?_
  · obtain ⟨b, -, rfl⟩ := State.mem_leafEntries.mp he
    trivial
  · obtain ⟨hl, hr⟩ := h.weight State.weight_leafEntries m hm
    exact ⟨m, hm, rfl, rfl, hl, hr, h.before m hm⟩

/-- A bound on a tree's exact weight is one on every internal node's. -/
theorem State.everyNode_exactWeight_lt {s : State} {n : Nat} {t : Tree} (h : s.exactWeight t < n) :
    t.everyNode fun l r => s.exactWeight l + s.exactWeight r < n := by
  induction t with
  | leaf => trivial
  | node l r ihl ihr =>
    rw [exactWeight] at h
    exact ⟨h, ihl (by omega), ihr (by omega)⟩

/-- The weight of a node whose exact weight fits 64 bits is the sum of its children's (R196). -/
theorem State.toNat_weight_node {s : State} {l r : Tree} (h : s.exactWeight l + s.exactWeight r < 2 ^ 64) :
    (s.weight (.node l r)).toNat = (s.weight l).toNat + (s.weight r).toNat := by
  simp only [toNat_weight, exactWeight]
  omega

/-! ### The cost of a built tree's codes (R124) -/

/-- A sum weighted by the counts is one over the counted byte values. -/
theorem State.sum_freq_mul (s : State) (f : Byte → Nat) :
    ((List.range 256).map fun k => (s.freqOf (BitVec.ofNat 8 k)).toNat * f (BitVec.ofNat 8 k)).sum =
      (s.symbols.map fun b => (s.freqOf b).toNat * f b).sum := by
  have hzero : ((allBytes.filter fun b => decide ¬ 0 < (s.freqOf b).toNat).map
      fun b => (s.freqOf b).toNat * f b).sum = 0 := by
    refine List.sum_eq_zero fun x hx => ?_
    obtain ⟨b, hb, rfl⟩ := List.mem_map.mp hx
    have hnot := of_decide_eq_true (List.mem_filter.mp hb).2
    rw [Nat.eq_zero_of_not_pos hnot, Nat.zero_mul]
  rw [sum_range_eq fun b => (s.freqOf b).toNat * f b,
    ← List.sum_map_filter_add_sum_map_filter_not (fun b => 0 < (s.freqOf b).toNat), hzero, Nat.add_zero]
  rfl

/-- With distinct leaves the weighted path length is the cost of the tree's codes. -/
theorem State.pathCost_eq_code (s : State) {t : Tree} (hnd : t.leaves.Nodup) :
    s.pathCost t = (t.leaves.map fun b => (s.freqOf b).toNat * (t.code b).length).sum := by
  rw [← s.pathCost_eq, ← Tree.paths_map_fst, List.map_map]
  refine congrArg List.sum (List.map_congr_left fun x hx => ?_)
  simp only [Function.comp_apply, Tree.code_of_mem hnd hx]

/-! ### COMPRESS on a small alphabet (R126, R176) -/

/-- `s` where TBUILD faults inside COMPRESS: the source counted, InsufficientAlphabet recorded. -/
def State.smallAlphabet (s : State) : State :=
  faultEntry .insufficientAlphabet (BitVec.ofNat 64 s.counted.distinct)
    { s.scanned with status := Stage.clears .tbuild { s.scanned.status with phase := Stage.tbuild.number } }

theorem State.smallAlphabet_status (s : State) :
    s.smallAlphabet.status = ⟨false, false, true, 2, true, false, false, false, false, false⟩ := rfl

theorem runStage_tbuild_smallAlphabet {s : State} (hd : s.counted.distinct < 2) :
    runStage .tbuild stageTbuild s.scanned = .raised s.smallAlphabet := by
  obtain ⟨h, -⟩ | ⟨-, -, h⟩ | ⟨-, h, -⟩ :=
    stageTbuild_cases { s.scanned with status := { s.scanned.status with phase := Stage.tbuild.number } }
  · exact absurd (show true = false from h) (by decide)
  · exact h
  · exact absurd hd (Nat.not_lt.mpr h)

theorem macroCompress_smallAlphabet {s : State} (hr : s.inReadable s.inLen.toNat) (hd : s.counted.distinct < 2) :
    macroCompress s = .raised s.smallAlphabet := by
  rw [macroCompress, runStage_fscan s hr, Run.andThen_ok, runStage_tbuild_smallAlphabet hd, Run.andThen_raised]

end Sys2Proof.Machine
end

section
/-! PROOFS. The tree builder: the tree TBUILD leaves, the order of its queue, the side of the lighter child, the
redundancy of its codes, and COMPRESS on a source too poor for a tree (41_tree_builder.md R121 to R126). -/

namespace Sys2Proof.Machine

/-- Settles O24: the built tree's leaves are the symbols in some order, and it depends on FREQ alone. -/
theorem tbuildBuildsATreeOfTheAlphabet : Obligations.TbuildBuildsATreeOfTheAlphabet := by
  refine ⟨fun s hf hd => ?_, fun s s' t t' hf hf' hd hfreq he he' => ?_⟩
  · obtain ⟨tr, ht, he⟩ := exec_tbuild hf hd
    obtain ⟨hperm, -⟩ := State.builtTree_some hd ht
    have hlen : tr.leaves.length = s.distinct := hperm.length_eq.trans s.length_symbols
    refine ⟨_, he, fun b => ?_, hlen, ?_, rfl⟩
    · simp only [State.tbuilt, hperm.count_eq, s.nodup_symbols.count, State.mem_symbols]
    · have hnodes := tr.nodes_eq
      simp only [State.tbuilt]
      omega
  · have hb := builtTree_of_exec_tbuild hf hd he
    have hb' := builtTree_of_exec_tbuild hf' (State.distinct_congr hfreq ▸ hd) he'
    exact Option.some.inj (hb.symm.trans ((State.builtTree_congr hfreq).trans hb'))

/-- Settles O26: insertion goes by the order of R123, and a leaf's place among the counted byte values is its rank. -/
theorem queueKeepsTheOrder : Obligations.QueueKeepsTheOrder := by
  refine ⟨fun x y => ?_, fun x q hq hx => ⟨enqueue_sorted x hq hx, enqueue_perm x q⟩, fun s => ⟨?_, ?_, ?_, ?_⟩⟩
  · rw [Entry.before_iff, BitVec.toNat_inj]
  · exact enqueueLeaves_before s 0 s.symbols [] List.Pairwise.nil (by simp)
  · simpa only [State.leafEntries, List.append_nil] using enqueueLeaves_perm s 0 s.symbols []
  · rw [State.leafEntries, List.length_map, List.length_zipIdx, s.length_symbols]
  · exact fun e => State.mem_leafEntries

/-- Settles O27: each node comes from one merge, in which the first-removed entry is before the other; the tree's
exact weight is at most the sum of the counts. -/
theorem builtTreesPutTheLighterChildLeft : Obligations.BuiltTreesPutTheLighterChildLeft := by
  intro s t hf hd he
  obtain ⟨hperm, ms, hrun⟩ := State.builtTree_some hd (builtTree_of_exec_tbuild hf hd he)
  have hmerge := hrun.everyNode_merge
  refine ⟨hmerge.imp fun l r => ?_, ⟨ms, hrun, hmerge.imp fun l r => ?_⟩, fun htot => ?_⟩
  · rintro ⟨m, -, -, -, hl, hr, hbefore⟩
    rw [Entry.before_iff, hl, hr] at hbefore
    rw [BitVec.le_def]
    omega
  · rintro ⟨m, hm, hml, hmr, hl, hr, hbefore⟩
    refine ⟨m, hm, hml, hmr, hl, hr, fun heq => ?_⟩
    rw [Entry.before_iff, hl, hr, heq] at hbefore
    omega
  · have hle : s.exactWeight t.tree ≤ s.total := by
      rw [s.exactWeight_eq, (hperm.map fun b => (s.freqOf b).toNat).sum_eq]
      exact s.sum_symbols_le
    exact (State.everyNode_exactWeight_lt (hle.trans_lt htot)).imp fun l r => State.toNat_weight_node

/-- Settles O28: both sums are over the counted byte values only; the tree's is its weighted path length, which no
prefix code beats. -/
theorem builtTreesAreOptimal : Obligations.BuiltTreesAreOptimal := by
  intro s t c hf htot hd he hc
  have ht := builtTree_of_exec_tbuild hf hd he
  obtain ⟨hperm, -⟩ := State.builtTree_some hd ht
  have hprefix : s.symbols.Pairwise fun b b' => ¬ c b <+: c b' ∧ ¬ c b' <+: c b :=
    s.nodup_symbols.pairwise_of_forall_ne fun b hb b' hb' hne =>
      have hb := State.mem_symbols.mp hb
      have hb' := State.mem_symbols.mp hb'
      ⟨hc b b' hne hb hb', hc b' b hne.symm hb' hb⟩
  rw [s.sum_freq_mul fun b => (t.tree.code b).length, s.sum_freq_mul fun b => (c b).length]
  calc (s.symbols.map fun b => (s.freqOf b).toNat * (t.tree.code b).length).sum
    _ = (t.tree.leaves.map fun b => (s.freqOf b).toNat * (t.tree.code b).length).sum := (hperm.map _).sum_eq.symm
    _ = s.pathCost t.tree := (s.pathCost_eq_code (hperm.nodup_iff.mpr s.nodup_symbols)).symm
    _ ≤ (s.symbols.map fun b => (s.freqOf b).toNat * (c b).length).sum := s.builtTree_optimal t.tree htot ht c hprefix

/-- Settles O46: FSCAN counts the source and TBUILD, the next stage, raises InsufficientAlphabet before any stage that
writes OUT. -/
theorem compressRejectsASmallAlphabet : Obligations.CompressRejectsASmallAlphabet := by
  intro s hr hd
  have hrun := macroCompress_smallAlphabet
    (s := { s with status := { s.status with done := false, busy := true } }) hr hd
  refine ⟨_, runCommand_raised hrun, ?_, rfl, ?_, rfl, fun _ => rfl, s.toNat_freqOf_counted⟩
  · rw [State.smallAlphabet_status]
    decide
  · exact (BitVec.toNat_ofNat _ _).trans (Nat.mod_eq_of_lt (hd.trans (by decide)))

end Sys2Proof.Machine
end

section
/-! PROOFS. The code table: the entry CBUILD leaves for every byte value, and the codes of a tree with distinct leaves
as a prefix code whose Kraft sum is 1 (42_code_table.md R131, R132). -/

namespace Sys2Proof.Machine

/-! ### The command CBUILD (R40, R131, R187) -/

/-- `s` where CBUILD completes on it. -/
def State.cbuilt (s : State) : State :=
  { s with
    code := codeTable s.tree
    status := { s.status with busy := false, done := true, phase := 0, codeV := true } }

theorem exec_cbuild {s : State} (h : s.status.treeV = true) : exec .cbuild s = .next s.cbuilt :=
  stageCommand_ok (stageCbuild_ok (s := s.atStage .cbuild) h)

/-! ### The entry of a byte value (R23, R131) -/

/-- The last leaf of a byte value in pre-order, with its path (R131). -/
def Tree.lastLeaf (t : Tree) (b : Byte) : Option (Byte × BitSeq) := (t.paths.filter fun x => x.1 == b).getLast?

theorem Tree.lastLeaf_cases (t : Tree) (b : Byte) :
    (b ∉ t.leaves ∧ t.lastLeaf b = none) ∨ ∃ p, (b, p) ∈ t.paths ∧ t.lastLeaf b = some (b, p) := by
  cases h : t.lastLeaf b with
  | none =>
    refine .inl ⟨fun hb => ?_, rfl⟩
    obtain ⟨p, hp⟩ := Tree.mem_leaves_iff.mp hb
    have hmem : (b, p) ∈ t.paths.filter fun x => x.1 == b := List.mem_filter.mpr ⟨hp, beq_self_eq_true b⟩
    exact List.ne_nil_of_mem hmem (List.getLast?_eq_none_iff.mp h)
  | some x =>
    obtain ⟨hx, hxb⟩ := List.mem_filter.mp (List.mem_of_getLast? h)
    obtain rfl : x.1 = b := eq_of_beq hxb
    exact .inr ⟨x.2, hx, rfl⟩

/-- The code table holds the path to the last leaf of a byte value, and no code for one that has no leaf. -/
theorem State.codeOf_eq_lastLeaf {s : State} {t : Tree} (h : s.code = codeTable t) (b : Byte) :
    s.codeOf b = ((t.lastLeaf b).map fun x => CodeEntry.ofPath x.2).getD CodeEntry.absent := by
  simp only [codeOf, h, codeTable_get, Tree.lastLeaf]

/-- A path's entry is zero beyond the path. -/
theorem CodeEntry.ofPath_bit_beyond {p : BitSeq} (h : p.length ≤ 255) {i : Nat} (hi : i < 256)
    (hlen : (CodeEntry.ofPath p).len.toNat ≤ i) : (CodeEntry.ofPath p).bits.getLsbD (255 - i) = false := by
  rw [ofPath_len p h] at hlen
  rw [ofPath_bit p h i hi, List.getD_eq_default _ _ hlen]

/-! ### The codes of a tree with distinct leaves (R132) -/

section
variable {s : State} {t : Tree}

theorem State.len_of_mem (h : s.code = codeTable t) (hnd : t.leaves.Nodup) (hcap : t.leaves.length ≤ Config.maxLeaves)
    {x : Byte × BitSeq} (hx : x ∈ t.paths) : (s.codeOf x.1).len.toNat = x.2.length := by
  rw [codeOf_of_mem h hnd hx, CodeEntry.ofPath_len _ (Tree.length_path_le_255 hcap hx)]

/-- Codes of different symbols are paths to different leaves, so neither is a prefix of the other. -/
theorem State.seq_not_prefix (h : s.code = codeTable t) (hnd : t.leaves.Nodup)
    (hcap : t.leaves.length ≤ Config.maxLeaves) {b b' : Byte} (hne : b ≠ b') (hb : b ∈ t.leaves)
    (hb' : b' ∈ t.leaves) : ¬ (s.codeOf b).seq <+: (s.codeOf b').seq := by
  obtain ⟨p, hp⟩ := Tree.mem_leaves_iff.mp hb
  obtain ⟨p', hp'⟩ := Tree.mem_leaves_iff.mp hb'
  rw [seq_of_mem h hnd hcap hb, seq_of_mem h hnd hcap hb', Tree.code_of_mem hnd hp, Tree.code_of_mem hnd hp']
  exact fun hprefix => hne (congrArg Prod.fst (Tree.eq_of_prefix hp hp' hprefix))

theorem Tree.exists_node_of_two_le (h : 2 ≤ t.leaves.length) : ∃ l r, t = .node l r := by
  cases t with
  | leaf b => exact absurd h (by simp [leaves])
  | node l r => exact ⟨l, r, rfl⟩

/-- In a tree of at least two leaves no leaf is the root, so every code has a bit. -/
theorem State.one_le_len (h : s.code = codeTable t) (hnd : t.leaves.Nodup) (hcap : t.leaves.length ≤ Config.maxLeaves)
    (htwo : 2 ≤ t.leaves.length) {b : Byte} (hb : b ∈ t.leaves) : 1 ≤ (s.codeOf b).len.toNat := by
  obtain ⟨p, hp⟩ := Tree.mem_leaves_iff.mp hb
  rw [len_of_mem h hnd hcap hp]
  obtain ⟨l, r, rfl⟩ := Tree.exists_node_of_two_le htwo
  exact List.length_pos_iff.mpr (Tree.path_ne_nil hp)

/-- What a byte value adds to the Kraft sum of the code table, times 2^255. -/
def CodeEntry.kraftTerm (e : CodeEntry) : Nat := if e.present then 2 ^ (255 - e.len.toNat) else 0

/-- The Kraft sum of the code table is that of the tree's paths. -/
theorem State.sum_kraftTerm (h : s.code = codeTable t) (hnd : t.leaves.Nodup)
    (hcap : t.leaves.length ≤ Config.maxLeaves) :
    (allBytes.map fun b => (s.codeOf b).kraftTerm).sum = 2 ^ 255 := by
  have hdepth : t.depth ≤ 255 := Nat.le_of_lt_succ (t.depth_lt.trans_le hcap)
  have hleaf : ∀ x ∈ t.paths, (s.codeOf x.1).kraftTerm = 2 ^ (255 - x.2.length) := by
    intro x hx
    rw [CodeEntry.kraftTerm, if_pos ((present_iff h).mpr (Tree.mem_leaves_iff.mpr ⟨x.2, hx⟩)),
      len_of_mem h hnd hcap hx]
  have hnone : ∀ b, b ∉ t.leaves → (s.codeOf b).kraftTerm = 0 := by
    intro b hb
    rw [codeOf_absent h hb]
    rfl
  rw [sum_allBytes_paths hnd (fun b => (s.codeOf b).kraftTerm) (fun p => 2 ^ (255 - p.length)) hleaf hnone,
    t.kraft 255 hdepth]

end

/-! ### The statements -/

/-- Settles O29: the table CBUILD leaves has for each byte value the entry of its last leaf's path, or the absent
entry. -/
theorem cbuildRecordsThePaths : Obligations.CbuildRecordsThePaths := by
  intro s htree hcap
  refine ⟨s.cbuilt, exec_cbuild htree, fun b => ?_, rfl⟩
  change _ ∧ _ = ((s.tree.lastLeaf b).map Prod.snd).getD [] ∧ _
  rw [State.codeOf_eq_lastLeaf (s := s.cbuilt) (t := s.tree) rfl b]
  obtain ⟨hb, hlast⟩ | ⟨p, hp, hlast⟩ := s.tree.lastLeaf_cases b <;> rw [hlast]
  · exact ⟨(decide_eq_false hb).symm, rfl, fun i _ _ => BitVec.getLsbD_zero⟩
  · have hlen := Tree.length_path_le_255 hcap hp
    exact ⟨(decide_eq_true (Tree.mem_leaves_iff.mpr ⟨p, hp⟩)).symm, CodeEntry.seq_ofPath p hlen,
      fun i hi hbeyond => CodeEntry.ofPath_bit_beyond hlen hi hbeyond⟩

/-- Settles O30: with distinct leaves the code of a symbol is the path to its leaf; the tree's paths are a full prefix
code. -/
theorem codesAreAFullPrefixCode : Obligations.CodesAreAFullPrefixCode := by
  intro s t htree hcap hnd he
  obtain rfl : s.cbuilt = t := Host.Outcome.next.inj ((exec_cbuild htree).symm.trans he)
  have hcode : s.cbuilt.code = codeTable s.tree := rfl
  have hpresent (b : Byte) : (s.cbuilt.codeOf b).present = true ↔ b ∈ s.tree.leaves := State.present_iff hcode
  refine ⟨hpresent, fun x hx => ⟨?_, State.len_of_mem hcode hnd hcap hx⟩, fun b b' hne hb hb' => ?_,
    fun htwo b hb => ?_, ?_⟩
  · rw [State.codeOf_of_mem hcode hnd hx, CodeEntry.seq_ofPath _ (Tree.length_path_le_255 hcap hx)]
  · exact State.seq_not_prefix hcode hnd hcap hne ((hpresent b).mp hb) ((hpresent b').mp hb')
  · exact State.one_le_len hcode hnd hcap htwo ((hpresent b).mp hb)
  · exact (sum_range_eq fun b => (s.cbuilt.codeOf b).kraftTerm).trans (State.sum_kraftTerm hcode hnd hcap)

end Sys2Proof.Machine
end

section
/-! PROOFS. The tree serializer and deserializer: what TSER leaves, what TDES does on every content of SHAPE and
LEAVES, and that the two commands are inverse to each other (43_tree_serdes.md R138 to R146). -/

namespace Sys2Proof.Machine

/-! ### The command TSER (R40, R139, R187) -/

/-- `s` where TSER completes on it. -/
def State.treeSerialized (s : State) : State :=
  { s.serialized with
    status := { s.status with busy := false, done := true, phase := 0, serV := true, hdrw := false } }

theorem exec_tser {s : State} (h : s.status.treeV = true) : exec .tser s = .next s.treeSerialized :=
  stageCommand_ok (stageTser_ok (s := s.atStage .tser) h)

/-! ### The command TDES (R40, R142, R187, R225) -/

/-- `s` where TDES completes on it with the tree `t`. -/
def State.treeParsed (s : State) (t : Tree) : State :=
  { s with
    tree := t
    status := { s.status with busy := false, done := true, phase := 0, treeV := true, codeV := false } }

/-- `s` where TDES faults on it past the precondition check. -/
def State.tdesRaised (s : State) (c : Cause) (info : Nat) : State :=
  { s with
    errCode := c.code
    errInfo := BitVec.ofNat 64 info
    status := { s.status with
      busy := false, done := false, err := true, phase := 8, treeV := false, codeV := false } }

/-- `s` where TDES ends on it, given what des() gives from the first shape bit and leaf byte on (R142). -/
def State.afterDes (s : State) : Parsed → State
  | .bad c info => s.tdesRaised c info
  | .tree t sp lp =>
    if sp = s.shapeBitLen.toNat ∧ lp = s.leafCount.toNat then s.treeParsed t else s.tdesRaised .treeLeftover sp

theorem State.afterDes_tree_complete {s : State} {t : Tree} {sp lp : Nat}
    (h : sp = s.shapeBitLen.toNat ∧ lp = s.leafCount.toNat) : s.afterDes (.tree t sp lp) = s.treeParsed t := if_pos h

theorem State.afterDes_tree_leftover {s : State} {t : Tree} {sp lp : Nat}
    (h : ¬ (sp = s.shapeBitLen.toNat ∧ lp = s.leafCount.toNat)) :
    s.afterDes (.tree t sp lp) = s.tdesRaised .treeLeftover sp := if_neg h

/-- des() does not depend on STATUS. -/
theorem des_atStage (s : State) (g : Stage) (fuel sp lp : Nat) : des (s.atStage g) fuel sp lp = des s fuel sp lp := by
  induction fuel generalizing sp lp with
  | zero => rfl
  | succ fuel ih =>
    simp only [des, ih]
    rfl

/-- SHAPE and LEAVES hold no more than a tree of 256 leaves needs (R142). -/
abbrev State.WithinTreeCapacity (s : State) : Prop :=
  s.shapeBitLen.toNat ≤ Config.maxShapeBits ∧ s.leafCount.toNat ≤ Config.maxLeaves

theorem exec_tdes_past_capacity {s : State} (h : s.status.serV = true) (hcap : ¬ s.WithinTreeCapacity) :
    exec .tdes s = .next (s.tdesRaised .treeCapacity 0) :=
  stageCommand_raised ((stageTdes_eq (s := s.atStage .tdes) h).trans (if_neg hcap))

theorem exec_tdes {s : State} (h : s.status.serV = true) (hcap : s.WithinTreeCapacity) :
    exec .tdes s = .next (s.afterDes (des s s.shapeBitLen.toNat 0 0)) := by
  have hbody := (stageTdes_eq (s := s.atStage .tdes) h).trans (if_pos hcap)
  rw [des_atStage, show (s.atStage .tdes).shapeBitLen = s.shapeBitLen from rfl] at hbody
  cases hd : des s s.shapeBitLen.toNat 0 0 with
  | bad c info =>
    rw [hd] at hbody
    exact stageCommand_raised hbody
  | tree t sp lp =>
    rw [hd] at hbody
    by_cases hall : sp = s.shapeBitLen.toNat ∧ lp = s.leafCount.toNat
    · rw [State.afterDes_tree_complete hall]
      exact stageCommand_ok (hbody.trans (if_pos hall))
    · rw [State.afterDes_tree_leftover hall]
      exact stageCommand_raised (hbody.trans (if_neg hall))

theorem exec_tdes_sequence {s : State} (h : s.status.serV = false) :
    exec .tdes s = .next (faultEntry .sequence 0x21 (s.atStage .tdes)) :=
  stageCommand_raised (stageTdes_sequence (s := s.atStage .tdes) h)

/-! ### des() on the whole of SHAPE and LEAVES (R141, R145) -/

/-- The shapes of two trees that both stand at the start of a bit sequence are equal (R104). -/
theorem ShapePrefix.shapeBits_eq {q : BitSeq} {p p' : Tree} (h : ShapePrefix q p) (h' : ShapePrefix q p') :
    p.shapeBits = p'.shapeBits := by
  obtain ⟨r, hr⟩ := h
  obtain ⟨r', hr'⟩ := h'
  exact (Tree.shapeBits_append_inj p p' r r' (hr.symm.trans hr')).1

theorem ShapePrefix.leaves_length_eq {q : BitSeq} {p p' : Tree} (h : ShapePrefix q p) (h' : ShapePrefix q p') :
    p.leaves.length = p'.leaves.length := Tree.leaves_length_of_shapeBits (h.shapeBits_eq h')

theorem ShapePrefix.of_take {q : BitSeq} {n : Nat} {p : Tree} (h : q.take n = p.shapeBits) : ShapePrefix q p :=
  ⟨q.drop n, by rw [← h, List.take_append_drop]⟩

theorem not_shapePrefix {q : BitSeq} (h : ∀ (n : Nat) (p : Tree), q.take n ≠ p.shapeBits) (p : Tree) :
    ¬ ShapePrefix q p := by
  rintro ⟨r, rfl⟩
  exact h p.shapeBits.length p List.take_left

section
variable {s : State}

/-- A tree des() gives has the shape that stands at the start of the shape bits and the leaf bytes that stand at the
start of LEAVES; the positions are the numbers of its nodes and its leaves. -/
theorem of_des_eq_tree {t : Tree} {sp lp : Nat} (h : des s s.shapeBitLen.toNat 0 0 = .tree t sp lp) :
    sp = t.nodes ∧ lp = t.leaves.length ∧ lp ≤ s.leafCount.toNat ∧
      s.shapeSeq = t.shapeBits ++ s.shapeSeq.drop sp ∧ s.leafSeq = t.leaves ++ s.leafSeq.drop lp := by
  have hspec := des_spec s s.shapeBitLen.toNat 0 0 (by omega) (Nat.zero_le _) (Nat.zero_le _)
  rw [h] at hspec
  obtain ⟨hsp, hlp, -, hle, hshape, hleaves⟩ := hspec
  exact ⟨by omega, by omega, hle, hshape, hleaves⟩

/-- Why des() gives a fault: its shape has too few leaf bytes, or no shape stands at the start of the shape bits. -/
theorem of_des_eq_bad {c : Cause} {info : Nat} (h : des s s.shapeBitLen.toNat 0 0 = .bad c info) :
    (c = .leafUnderrun ∧ info = s.leafCount.toNat ∧
      ((∃ p, ShapePrefix s.shapeSeq p ∧ s.leafCount.toNat < p.leaves.length) ∨
        ((∀ p, ¬ ShapePrefix s.shapeSeq p) ∧ s.leafCount.toNat < s.shapeSeq.count false))) ∨
    (c = .shapeUnderrun ∧ info = s.shapeBitLen.toNat ∧ (∀ p, ¬ ShapePrefix s.shapeSeq p) ∧
      s.shapeSeq.count false ≤ s.leafCount.toNat) := by
  have hspec := des_spec s s.shapeBitLen.toNat 0 0 (by omega) (Nat.zero_le _) (Nat.zero_le _)
  rw [h] at hspec
  simpa only [List.drop_zero, Nat.zero_add] using hspec

theorem des_of_missing_leaves {p : Tree} (hp : ShapePrefix s.shapeSeq p)
    (hlt : s.leafCount.toNat < p.leaves.length) :
    des s s.shapeBitLen.toNat 0 0 = .bad .leafUnderrun s.leafCount.toNat := by
  cases hd : des s s.shapeBitLen.toNat 0 0 with
  | bad c info =>
    obtain ⟨rfl, rfl, -⟩ | ⟨-, -, hno, -⟩ := of_des_eq_bad hd
    · rfl
    · exact absurd hp (hno p)
  | tree t sp lp =>
    obtain ⟨-, rfl, hle, hshape, -⟩ := of_des_eq_tree hd
    have := hp.leaves_length_eq ⟨_, hshape⟩
    omega

theorem des_of_present_leaves {p : Tree} (hp : ShapePrefix s.shapeSeq p)
    (hle : p.leaves.length ≤ s.leafCount.toNat) :
    ∃ t : Tree, t.shapeBits = p.shapeBits ∧ t.leaves = s.leafSeq.take p.leaves.length ∧
      des s s.shapeBitLen.toNat 0 0 = .tree t p.shapeBits.length p.leaves.length := by
  cases hd : des s s.shapeBitLen.toNat 0 0 with
  | bad c info =>
    obtain ⟨-, -, ⟨p', hp', hlt⟩ | ⟨hno, -⟩⟩ | ⟨-, -, hno, -⟩ := of_des_eq_bad hd
    · have := hp.leaves_length_eq hp'
      omega
    · exact absurd hp (hno p)
    · exact absurd hp (hno p)
  | tree t sp lp =>
    obtain ⟨rfl, rfl, -, hshape, hleaves⟩ := of_des_eq_tree hd
    have ht : ShapePrefix s.shapeSeq t := ⟨_, hshape⟩
    rw [← ht.shapeBits_eq hp, ← ht.leaves_length_eq hp, t.length_shapeBits]
    exact ⟨t, rfl, by rw [hleaves, List.take_left], rfl⟩

theorem des_of_no_shape_missing_leaves (hno : ∀ p, ¬ ShapePrefix s.shapeSeq p)
    (hlt : s.leafCount.toNat < s.shapeSeq.count false) :
    des s s.shapeBitLen.toNat 0 0 = .bad .leafUnderrun s.leafCount.toNat := by
  cases hd : des s s.shapeBitLen.toNat 0 0 with
  | bad c info =>
    obtain ⟨rfl, rfl, -⟩ | ⟨-, -, -, hge⟩ := of_des_eq_bad hd
    · rfl
    · exact absurd hlt (Nat.not_lt.mpr hge)
  | tree t sp lp =>
    obtain ⟨-, -, -, hshape, -⟩ := of_des_eq_tree hd
    exact absurd ⟨_, hshape⟩ (hno t)

theorem des_of_no_shape_present_leaves (hno : ∀ p, ¬ ShapePrefix s.shapeSeq p)
    (hge : s.shapeSeq.count false ≤ s.leafCount.toNat) :
    des s s.shapeBitLen.toNat 0 0 = .bad .shapeUnderrun s.shapeBitLen.toNat := by
  cases hd : des s s.shapeBitLen.toNat 0 0 with
  | bad c info =>
    obtain ⟨-, -, ⟨p, hp, -⟩ | ⟨-, hlt⟩⟩ | ⟨rfl, rfl, -⟩ := of_des_eq_bad hd
    · exact absurd hp (hno p)
    · exact absurd hlt (Nat.not_lt.mpr hge)
    · rfl
  | tree t sp lp =>
    obtain ⟨-, -, -, hshape, -⟩ := of_des_eq_tree hd
    exact absurd ⟨_, hshape⟩ (hno t)

/-! ### TDES on the serialization of a tree, and back (R146) -/

theorem exec_tdes_of_serialized {t : Tree} (h : s.status.serV = true) (hcap : t.leaves.length ≤ Config.maxLeaves)
    (hs : Serialized s t) : exec .tdes s = .next (s.treeParsed t) :=
  stageCommand_ok (stageTdes_of_serialized (s := s.atStage .tdes) h hcap hs.shape hs.leaves)

/-- A tree des() gives on all of SHAPE and LEAVES has exactly those shape bits and leaf bytes. -/
theorem serialization_of_des_eq_tree {t : Tree} {sp lp : Nat} (h : des s s.shapeBitLen.toNat 0 0 = .tree t sp lp)
    (hall : sp = s.shapeBitLen.toNat ∧ lp = s.leafCount.toNat) : t.shapeBits = s.shapeSeq ∧ t.leaves = s.leafSeq := by
  obtain ⟨hsp, hlp⟩ := hall
  obtain ⟨-, -, -, hshape, hleaves⟩ := of_des_eq_tree h
  rw [List.drop_of_length_le (by rw [State.length_shapeSeq, hsp]), List.append_nil] at hshape
  rw [List.drop_of_length_le (by rw [State.length_leafSeq, hlp]), List.append_nil] at hleaves
  exact ⟨hshape.symm, hleaves.symm⟩

/-- All TDES can do: it leaves DONE = 0, or completes with a tree that has the shape bits and the leaf bytes. -/
theorem exec_tdes_cases (s : State) :
    (∃ u, exec .tdes s = .next u ∧ u.status.done = false) ∨
    ∃ t : Tree, t.shapeBits = s.shapeSeq ∧ t.leaves = s.leafSeq ∧ exec .tdes s = .next (s.treeParsed t) := by
  cases hser : s.status.serV with
  | false => exact .inl ⟨_, exec_tdes_sequence hser, rfl⟩
  | true =>
    by_cases hcap : s.WithinTreeCapacity
    swap
    · exact .inl ⟨_, exec_tdes_past_capacity hser hcap, rfl⟩
    have he := exec_tdes hser hcap
    cases hd : des s s.shapeBitLen.toNat 0 0 with
    | bad c info => exact .inl ⟨_, hd ▸ he, rfl⟩
    | tree t sp lp =>
      rw [hd] at he
      by_cases hall : sp = s.shapeBitLen.toNat ∧ lp = s.leafCount.toNat
      · obtain ⟨hshape, hleaves⟩ := serialization_of_des_eq_tree hd hall
        exact .inr ⟨t, hshape, hleaves, State.afterDes_tree_complete hall ▸ he⟩
      · exact .inl ⟨_, State.afterDes_tree_leftover hall ▸ he, rfl⟩

end

/-! ### The statements -/

/-- Settles O33: TDES rebuilds the tree TSER serialized, and a tree TDES completes with has the shape bits and the
leaf bytes it was read from. -/
theorem treeRoundTrip : Obligations.TreeRoundTrip := by
  constructor
  · intro s htree hcap
    have hs : Serialized s.treeSerialized s.tree :=
      (s.serialized_spec hcap).1.congr rfl rfl rfl rfl rfl
    exact ⟨_, _, exec_tser htree, rfl, exec_tdes_of_serialized rfl hcap hs, rfl, rfl, rfl⟩
  · intro s u he hdone
    obtain ⟨v, hv, hfalse⟩ | ⟨t, hshape, hleaves, ht⟩ := exec_tdes_cases s
    · obtain rfl : v = u := Host.Outcome.next.inj (hv.symm.trans he)
      exact absurd (hdone.symm.trans hfalse) (by decide)
    · obtain rfl : s.treeParsed t = u := Host.Outcome.next.inj (ht.symm.trans he)
      exact ⟨hshape, hleaves⟩

/-- Settles O31: TSER leaves the serialization of the tree, and everything past it as it was. -/
theorem tserSerializesTheTree : Obligations.TserSerializesTheTree := by
  intro s htree hcap
  obtain ⟨hs, hbits, hbytes, hcount⟩ := s.serialized_spec hcap
  have hbytes' : s.serialized.shapeByteLen.toNat = (pack s.tree.shapeBits).length := by rw [hbytes, length_pack]
  refine ⟨s.treeSerialized, exec_tser htree, hs.congr rfl rfl rfl rfl rfl, ?_, hcount, ?_, fun k hk => ?_,
    fun k hk => ?_, rfl⟩
  · have hnodes := s.tree.nodes_eq
    have hlen := s.tree.length_shapeBits
    change s.serialized.shapeBitLen.toNat = _
    omega
  · change (List.range s.serialized.shapeByteLen.toNat).map s.serialized.shapeByte = _
    refine List.ext_getElem (by rw [List.length_map, List.length_range, hbytes']) fun k _ hk => ?_
    rw [List.getElem_map, List.getElem_range, s.shapeByte_serialized k hcap, dif_pos hk]
  · exact (s.shapeByte_serialized k hcap).trans (dif_neg (Nat.not_lt.mpr (hbytes'.symm.trans_le hk)))
  · exact (s.leafByte_serialized k hcap).trans (dif_neg (Nat.not_lt.mpr (hcount.symm.trans_le hk)))

/-- Settles O32: past the capacity TDES faults; within it, it ends as des() says on the shape, if any, that stands at
the start of the shape bits. -/
theorem tdesOutcomes : Obligations.TdesOutcomes := by
  intro s hser raises
  refine ⟨exec_tdes_past_capacity hser, fun hbits hcount => ?_⟩
  have hexec := exec_tdes hser ⟨hbits, hcount⟩
  refine ⟨fun n p hn htake => ?_, fun hno => ⟨fun hlt => ?_, fun hge => ?_⟩⟩
  · have hp : ShapePrefix s.shapeSeq p := .of_take htake
    have hlen : p.shapeBits.length = n := by
      rw [← htake, List.length_take, State.length_shapeSeq, Nat.min_eq_left hn]
    refine ⟨fun hlt => ?_, fun hle hleft => ?_, fun hall hleaves => ?_⟩
    · exact hexec.trans (by rw [des_of_missing_leaves hp hlt]; rfl)
    · obtain ⟨t, -, -, hd⟩ := des_of_present_leaves hp hle
      rw [hd, hlen, State.afterDes_tree_leftover (by omega)] at hexec
      exact hexec
    · obtain ⟨t, -, -, hd⟩ := des_of_present_leaves hp hleaves.le
      rw [hlen] at hd
      obtain ⟨hshape, hleaf⟩ := serialization_of_des_eq_tree hd ⟨hall, hleaves⟩
      rw [hd, State.afterDes_tree_complete ⟨hall, hleaves⟩] at hexec
      exact ⟨t, hshape, hleaf, hexec⟩
  · exact hexec.trans (by rw [des_of_no_shape_missing_leaves (not_shapePrefix hno) hlt]; rfl)
  · exact hexec.trans (by rw [des_of_no_shape_present_leaves (not_shapePrefix hno) hge]; rfl)

end Sys2Proof.Machine
end

section
/-! PROOFS. The bitstream packer: what PACK appends where it completes, the first address where it faults, and the bit
accumulator between two source bytes (44_packer.md R151 to R154, 60_exceptions.md R217, R218, R221). -/

namespace Sys2Proof.Machine

/-! ### The appended bytes (R68, R199) -/

/-- What stands in OUT and OUT_LEN after `n` bytes have been emitted, whatever else a state has. -/
theorem State.appended_of_emitted {s t : State} {bs : ByteSeq} {n : Nat} (hn : bs.length = n)
    (hfit : s.outLen.toNat + n < 2 ^ 64) (hmem : t.outMem = (s.emitted bs).outMem)
    (hlen : t.outLen = (s.emitted bs).outLen) :
    t.outLen.toNat = s.outLen.toNat + n ∧ t.outSeq s.outLen.toNat n = bs ∧
      ∀ a, a < s.outLen.toNat ∨ t.outLen.toNat ≤ a → t.outByte a = s.outByte a := by
  subst hn
  have hend : t.outLen.toNat = s.outLen.toNat + bs.length := hlen ▸ s.outLen_emitted bs hfit
  have hbyte : t.outByte = (s.emitted bs).outByte := by funext a; simp only [outByte, hmem]
  refine ⟨hend, ?_, fun a ha => ?_⟩
  · simpa only [outSeq, hbyte] using s.outSeq_emitted bs
  · rw [hbyte, outByte_emitted, if_neg (by omega)]

/-! ### The command PACK (R40, R153, R187) -/

/-- `s` as PACK's loop finds it: inside the command, HDRW cleared (R153). -/
def State.packStarted (s : State) : State :=
  { s with status := { s.status with done := false, busy := true, phase := 6, hdrw := false } }

/-- `s` where PACK completes on it, having appended `bs`. -/
def State.packed (s : State) (bs : ByteSeq) : State :=
  { s.emitted bs with status := { s.status with busy := false, done := true, phase := 0, hdrw := false } }

/-- `s` where PACK faults on it in its loop, having appended `bs`. -/
def State.packRaised (s : State) (bs : ByteSeq) (c : Cause) (info : Nat) : State :=
  { s.emitted bs with
    errCode := c.code
    errInfo := BitVec.ofNat 64 info
    status := { s.status with busy := false, done := false, err := true, phase := 6, hdrw := false } }

/-- PACK's preconditions, and no change of IN_LEN since FSCAN (R153). -/
structure State.PackReady (s : State) : Prop where
  codeV : s.status.codeV = true
  hdrw : s.status.hdrw = true
  inLen : s.inLen = s.origSize

/-- On readable, coded source bytes and writable OUT bytes PACK completes with the packed codes appended (R154). -/
theorem exec_pack {s : State} (h : s.PackReady) (hr : s.inReadable s.inLen.toNat)
    (hc : ∀ b ∈ s.source, (s.codeOf b).present = true)
    (hw : s.outWritable s.outLen.toNat (s.outLen.toNat + ceil8 (s.codeBits s.source).length)) :
    exec .pack s = .next (s.packed (pack (s.codeBits s.source))) :=
  stageCommand_ok (stagePack_ok (s := s.atStage .pack) h.codeV h.hdrw h.inLen hr hc hw)

/-- A fault in PACK's loop is the end of the command. -/
theorem exec_pack_raised {s : State} (h : s.PackReady) {bs : ByteSeq} {c : Cause} {info : Nat}
    (hraised : packBytes s.inLen.toNat 0 [] s.packStarted =
      .raised (faultEntry c (BitVec.ofNat 64 info) (s.packStarted.emitted bs))) :
    exec .pack s = .next (s.packRaised bs c info) :=
  stageCommand_raised ((stagePack_eq (s := s.atStage .pack) h.codeV h.hdrw h.inLen).trans hraised)

/-! ### The first address PACK cannot read, code or write (R217, R218, R221) -/

section
variable {s : State} {i : Nat} (h : s.PackReady) (hr : s.inReadable i)
  (hc : ∀ k < i, (s.codeOf (s.inByte k)).present = true)

include hc in
theorem State.present_of_mem_inSeq : ∀ b ∈ s.inSeq 0 i, (s.codeOf b).present = true := by
  intro b hb
  obtain ⟨k, hk, rfl⟩ := List.mem_map.mp hb
  rw [Nat.zero_add]
  exact hc k (List.mem_range.mp hk)

include h hc

/-- The first source byte without a code is recorded, the whole bytes of the codes before it appended. -/
theorem exec_pack_noCode (hi : i < s.inLen.toNat) (hri : s.inReadable (i + 1))
    (hno : (s.codeOf (s.inByte i)).present = false)
    (hw : s.outWritable s.outLen.toNat (s.outLen.toNat + (s.codeBits (s.inSeq 0 i)).length / 8)) :
    exec .pack s = .next (s.packRaised (drained (s.codeBits (s.inSeq 0 i))) .noCode i) := by
  have hloop := packBytes_noCode i s.inLen.toNat 0 [] s.packStarted hi (by simp) (fun x _ hx => hri x (by omega))
    (State.present_of_mem_inSeq hc) (by rw [Nat.zero_add]; exact hno) hw
  rw [Nat.zero_add] at hloop
  exact exec_pack_raised h hloop

include hr

/-- The first source address that cannot be read is recorded, the whole bytes of the codes before it appended. -/
theorem exec_pack_ioRead (hi : i < s.inLen.toNat) (hbad : s.platform.inCap.toNat ≤ i ∨ i ∈ s.platform.inFault)
    (hw : s.outWritable s.outLen.toNat (s.outLen.toNat + (s.codeBits (s.inSeq 0 i)).length / 8)) :
    exec .pack s = .next (s.packRaised (drained (s.codeBits (s.inSeq 0 i))) .ioRead i) := by
  have hloop := packBytes_ioRead i s.inLen.toNat 0 [] s.packStarted hi (by simp) (fun x _ hx => hr x (by omega))
    (by rw [Nat.zero_add]; exact hbad) (State.present_of_mem_inSeq hc) hw
  rw [Nat.zero_add] at hloop
  exact exec_pack_raised h hloop

/-- The first OUT address that a drain, or the final flush, cannot write is recorded, the bytes below it appended. -/
theorem exec_pack_ioWrite {n : Nat} (hi : i ≤ s.inLen.toNat)
    (hn : n < (s.codeBits (s.inSeq 0 i)).length / 8 ∨
      (i = s.inLen.toNat ∧ n < ceil8 (s.codeBits (s.inSeq 0 i)).length))
    (hw : s.outWritable s.outLen.toNat (s.outLen.toNat + n))
    (hbad : s.platform.outCap.toNat ≤ s.outLen.toNat + n ∨ s.outLen.toNat + n ∈ s.platform.outFault) :
    exec .pack s = .next (s.packRaised ((pack (s.codeBits (s.inSeq 0 i))).take n) .ioWrite
      (s.outLen.toNat + n)) :=
  exec_pack_raised h (packBytes_ioWrite i s.inLen.toNat 0 n [] s.packStarted hi (by simp)
    (fun x _ hx => hr x (by omega)) (State.present_of_mem_inSeq hc) hw hbad hn)

end

/-! ### The number of payload bits (R154) -/

/-- Each source byte adds the length of its code. -/
theorem State.length_codeBits (s : State) (d : ByteSeq) :
    (s.codeBits d).length = (d.map fun b => (s.codeOf b).len.toNat).sum := by
  simp only [codeBits, List.length_flatMap, CodeEntry.length_seq]

/-! ### The statements -/

/-- Settles O38: the body's loop over the source emits the packed codes, and counting the codes' lengths byte by byte is
counting them by byte value. -/
theorem packAppendsTheCodes : Obligations.PackAppendsTheCodes := by
  intro s hcode hhdrw hlen hr hc hw
  refine ⟨?_, fun hfreq => ?_⟩
  · have hfit := s.outWritable_lt hw s.outLen.isLt (Nat.le_add_right ..)
    obtain ⟨hend, hbytes, hkept⟩ := State.appended_of_emitted
      (t := s.packed (pack (s.codeBits s.source))) (length_pack _) hfit rfl rfl
    exact ⟨_, exec_pack ⟨hcode, hhdrw, hlen⟩ hr hc hw, hend, hbytes, hkept, rfl⟩
  · rw [State.length_codeBits, ← sum_count_mul,
      sum_range_eq fun b => (s.freqOf b).toNat * (s.codeOf b).len.toNat]
    simp only [hfreq]

/-- Settles O40: the loop goes through the first `i` bytes and raises at the access that fails; what it emitted before
is the whole bytes of their codes, or the packed bytes below the address that cannot be written. -/
theorem packFaultsInOrder : Obligations.PackFaultsInOrder := by
  intro s i hcode hhdrw hlen hr hc bits fails
  have hready : s.PackReady := ⟨hcode, hhdrw, hlen⟩
  have hfails : ∀ {c info n bs}, bs.length = n → s.outWritable s.outLen.toNat (s.outLen.toNat + n) →
      exec .pack s = .next (s.packRaised bs c info) → fails c.code info n bs := by
    intro c info n bs hn hw he
    have hfit := s.outWritable_lt hw s.outLen.isLt (Nat.le_add_right ..)
    obtain ⟨hend, hbytes, hkept⟩ := State.appended_of_emitted (t := s.packRaised bs c info) hn hfit rfl rfl
    exact ⟨_, he, hend, hbytes, hkept, rfl⟩
  refine ⟨fun hi hri hno hw => ?_, fun hi hbad hw => ?_, fun n hi hn hw hbad => ?_⟩
  · exact hfails (length_drained bits) hw (exec_pack_noCode hready hc hi hri hno hw)
  · exact hfails (length_drained bits) hw (exec_pack_ioRead hready hr hc hi hbad hw)
  · have htake : ((pack bits).take n).length = n := by
      rw [List.length_take, length_pack]
      unfold ceil8 at hn ⊢
      omega
    exact hfails htake hw (exec_pack_ioWrite hready hr hc hi hn hw hbad)

/-- Settles O41: a drain carries fewer than 8 bits, and a code has at most 255. -/
theorem accumulatorLosesNoBit : Obligations.AccumulatorLosesNoBit := by
  intro acc e
  have hcar := length_carried_lt acc
  have hcode := e.len.isLt
  refine ⟨Nat.le_of_lt_succ hcar, ?_, appendBits_eq hcar e, drained_carried acc⟩
  rw [List.length_append, CodeEntry.length_seq]
  omega

end Sys2Proof.Machine
end

section
/-! SUPPORT. The command UNPACK: what it leaves where its loop completes or raises, and where the loop does either, for
a payload that begins with codes of leaves (45_unpacker.md R161, R162, 60_exceptions.md R215 to R218). -/

namespace Sys2Proof.Machine

/-! ### The command UNPACK (R40, R162, R187) -/

/-- `s` as UNPACK's loop finds it: inside the command, nothing in OUT (R162). -/
def State.unpackStarted (s : State) : State :=
  { s with outLen := 0, status := { s.status with done := false, busy := true, phase := 9 } }

/-- `s` where UNPACK completes on it, having decoded `bs`. -/
def State.unpacked (s : State) (bs : ByteSeq) : State :=
  { ({ s with outLen := 0 } : State).emitted bs with
    status := { s.status with busy := false, done := true, phase := 0 } }

/-- `s` where UNPACK faults on it in its loop, having decoded `bs`. -/
def State.unpackRaised (s : State) (bs : ByteSeq) (c : Cause) (info : Nat) : State :=
  { ({ s with outLen := 0 } : State).emitted bs with
    errCode := c.code
    errInfo := BitVec.ofNat 64 info
    status := { s.status with busy := false, done := false, err := true, phase := 9 } }

/-- UNPACK's loop on `s`, from PAYLOAD_OFF and the root (R162). -/
def State.unpackLoop (s : State) : Run Unit :=
  unpackBytes (s.inLen.toNat - s.payloadOff.toNat) s.payloadOff.toNat s.tree s.unpackStarted

/-- UNPACK's preconditions (R40). -/
structure State.UnpackReady (s : State) : Prop where
  treeV : s.status.treeV = true
  parsed : s.status.parsed = true

theorem exec_unpack {s : State} (h : s.UnpackReady) {bs : ByteSeq}
    (hloop : s.unpackLoop = .ok () (s.unpackStarted.emitted bs)) : exec .unpack s = .next (s.unpacked bs) :=
  stageCommand_ok ((stageUnpack_eq (s := s.atStage .unpack) h.treeV h.parsed).trans hloop)

theorem exec_unpack_raised {s : State} (h : s.UnpackReady) {bs : ByteSeq} {c : Cause} {info : Nat}
    (hloop : s.unpackLoop = .raised (faultEntry c (BitVec.ofNat 64 info) (s.unpackStarted.emitted bs))) :
    exec .unpack s = .next (s.unpackRaised bs c info) :=
  stageCommand_raised ((stageUnpack_eq (s := s.atStage .unpack) h.treeV h.parsed).trans hloop)

/-! ### A loop that ends before it follows a bit from a node -/

/-- With no byte needed nothing is read, whatever the tree and the payload are (R162). -/
theorem unpackBytes_of_complete {s : State} (h : ¬ s.outLen.toNat < s.origSize.toNat) (fuel pos : Nat) (cur : Tree) :
    unpackBytes fuel pos cur s = .ok () s := by
  cases fuel with
  | zero => rw [unpackBytes, if_neg h]
  | succ fuel => rw [unpackBytes, if_pos h]

/-- A byte needed where the payload has ended (R216). -/
theorem unpackBytes_payloadEof {s : State} (h : s.outLen.toNat < s.origSize.toNat) (pos : Nat) (cur : Tree) :
    unpackBytes 0 pos cur s = .raised (faultEntry .payloadEof (BitVec.ofNat 64 pos) s) := by
  rw [unpackBytes, if_pos h, raise_eq]

/-- A bit to be followed from a leaf (R215). -/
theorem unpackBytes_leaf {fuel pos : Nat} {s : State} (hf : 0 < fuel) (h : s.outLen.toNat < s.origSize.toNat)
    (hpos : pos < s.inLen.toNat) (hcap : pos < s.platform.inCap.toNat) (hok : pos ∉ s.platform.inFault) (b : Byte) :
    unpackBytes fuel pos (.leaf b) s = .raised (faultEntry .absentChild (BitVec.ofNat 64 pos) s) := by
  obtain ⟨fuel, rfl⟩ := Nat.exists_eq_add_of_lt hf
  have hne : s.outLen ≠ s.origSize := fun heq => Nat.lt_irrefl _ (heq ▸ h)
  rw [Nat.zero_add, unpackBytes, if_neg (not_not.mpr h), if_neg (not_not.mpr hpos), memRead_ok hcap hok, Run.andThen_ok]
  simp only [bits8, walkBits, if_neg hne, walkBit, raise_eq, Run.andThen_raised]

/-! ### The walk over the codes of leaves (R105, R161) -/

section
variable {l r : Tree} {ps : List (Byte × BitSeq)} {rest : BitSeq} (hps : ∀ x ∈ ps, x ∈ (Tree.node l r).paths)
include hps

/-- Exactly as many codes as bytes are needed: whatever follows them is not looked at. -/
theorem Tree.trace_all_paths :
    ((Tree.node l r).trace ps.length (.node l r) (ps.flatMap Prod.snd ++ rest)).1 = ps.map Prod.fst := by
  have h := congrArg Prod.fst (Tree.trace_paths l r ps 0 rest hps)
  simpa only [Nat.add_zero, Tree.trace_zero, List.append_nil] using h

/-- Fewer codes than bytes are needed, and no whole code after them: their leaves are all that is decoded. -/
theorem Tree.trace_few_paths {m : Nat} (hm : ps.length ≤ m) (hrest : ∀ x ∈ (Tree.node l r).paths, ¬ x.2 <+: rest) :
    ((Tree.node l r).trace m (.node l r) (ps.flatMap Prod.snd ++ rest)).1 = ps.map Prod.fst := by
  obtain ⟨k, rfl⟩ := Nat.exists_eq_add_of_le hm
  rw [Tree.trace_paths l r ps k rest hps, Tree.trace_short _ k _ rest ⟨l, r, rfl⟩ hrest, List.append_nil]

/-- More than `a` codes, and more than `a` bytes needed: the first `a` bytes decoded are the first `a` leaves, and there
is another. -/
theorem Tree.trace_many_paths {m a : Nat} (hm : a < m) (ha : a < ps.length) :
    a < ((Tree.node l r).trace m (.node l r) (ps.flatMap Prod.snd ++ rest)).1.length ∧
      ((Tree.node l r).trace m (.node l r) (ps.flatMap Prod.snd ++ rest)).1.take a = (ps.map Prod.fst).take a := by
  obtain ⟨k, rfl⟩ := Nat.exists_eq_add_of_le (Nat.succ_le_of_lt hm)
  have hlen : (ps.take (a + 1)).length = a + 1 := List.length_take_of_le ha
  have hsplit : ps.flatMap Prod.snd ++ rest =
      (ps.take (a + 1)).flatMap Prod.snd ++ ((ps.drop (a + 1)).flatMap Prod.snd ++ rest) := by
    rw [← List.append_assoc, ← List.flatMap_append, List.take_append_drop]
  have htrace := Tree.trace_paths l r (ps.take (a + 1)) k ((ps.drop (a + 1)).flatMap Prod.snd ++ rest)
    fun x hx => hps x (List.mem_of_mem_take hx)
  rw [hlen] at htrace
  rw [hsplit, htrace]
  constructor
  · rw [List.length_append, List.length_map, hlen]
    omega
  · rw [List.take_append_of_le_length (by rw [List.length_map, hlen]; omega), ← List.map_take, List.take_take,
      Nat.min_eq_left (Nat.le_succ a), List.map_take]

end

/-! ### The loop on a tree of two leaves or more -/

/-- MemRead succeeds at the first `n` payload addresses (R66). -/
abbrev State.payloadReadable (s : State) (n : Nat) : Prop :=
  ∀ a, s.payloadOff.toNat ≤ a → a < s.payloadOff.toNat + n → a < s.platform.inCap.toNat ∧ a ∉ s.platform.inFault

section
variable {s : State} {l r : Tree} {n : Nat} {ps : List (Byte × BitSeq)} {rest : BitSeq} (ht : s.tree = .node l r)
  (hn : s.payloadOff.toNat + n ≤ s.inLen.toNat) (hr : s.payloadReadable n)
  (hps : ∀ x ∈ ps, x ∈ (Tree.node l r).paths)
  (hbits : (s.inSeq s.payloadOff.toNat n).flatMap bits8 = ps.flatMap Prod.snd ++ rest)
include ht hn hr hps hbits

/-- After `n` payload bytes that hold fewer codes than are needed and then no whole code, the loop goes on at the next
byte, having emitted their leaves. -/
theorem State.unpackLoop_prefix (hlt : ps.length < s.origSize.toNat)
    (hrest : ∀ x ∈ (Tree.node l r).paths, ¬ x.2 <+: rest) (hw : s.outWritable 0 ps.length) :
    ∃ cur, s.unpackLoop = unpackBytes (s.inLen.toNat - s.payloadOff.toNat - n) (s.payloadOff.toNat + n) cur
      (s.unpackStarted.emitted (ps.map Prod.fst)) := by
  have hout := Tree.trace_few_paths hps hlt.le hrest
  rw [← hbits] at hout
  have hfit : s.unpackStarted.outWritable 0 (0 + (ps.map Prod.fst).length) := by rwa [Nat.zero_add, List.length_map]
  rw [State.unpackLoop, ht]
  exact ⟨_, unpackBytes_prefix l r n _ s.payloadOff.toNat s.origSize.toNat l r s.unpackStarted ht (Nat.zero_add _).symm
    (by omega) (show s.inLen.toNat = _ by omega) hr (Prod.ext hout rfl) (by rwa [List.length_map]) hfit⟩

/-- Where `n` payload bytes hold more than `a` codes and OUT[a] is needed and cannot be written, the loop raises IoWrite
there, having emitted the first `a` leaves (R218). -/
theorem State.unpackLoop_ioWrite {a : Nat} (ha : a < s.origSize.toNat) (hlt : a < ps.length) (hw : s.outWritable 0 a)
    (hbad : s.platform.outCap.toNat ≤ a ∨ a ∈ s.platform.outFault) :
    s.unpackLoop = .raised (faultEntry .ioWrite (BitVec.ofNat 64 a)
      (s.unpackStarted.emitted ((ps.map Prod.fst).take a))) := by
  obtain ⟨hlen, htake⟩ := Tree.trace_many_paths (rest := rest) hps ha hlt
  rw [← hbits] at hlen htake
  have hz : s.unpackStarted.outLen.toNat + a = a := Nat.zero_add a
  have hloop := unpackBytes_ioWrite l r n (s.inLen.toNat - s.payloadOff.toNat) s.payloadOff.toNat s.origSize.toNat a l r
    s.unpackStarted ht (Nat.zero_add _).symm (by omega) (show s.inLen.toNat = _ by omega) hr
    (fun x hx _ => hw x (hx.trans_eq hz) (Nat.zero_le x)) (by rwa [hz]) hlen
  rw [hz] at hloop
  rw [State.unpackLoop, ht, ← htake]
  exact hloop

end

end Sys2Proof.Machine
end

section
/-! PROOFS. The bitstream unpacker: the bytes UNPACK decodes where it completes, and the first place where it faults
(45_unpacker.md R161, R162, 60_exceptions.md R215 to R218, R224). -/

namespace Sys2Proof.Machine

/-- Settles O42: the walk over the codes of ORIG_SIZE leaves decodes their bytes; with ORIG_SIZE = 0 the loop ends
before it reads. -/
theorem unpackDecodesTheCodes : Obligations.UnpackDecodesTheCodes := by
  refine ⟨fun s l r ps rest htreeV hparsed ht hps hlen hoff hbits hr hw => ?_, fun s htreeV hparsed hsize => ?_⟩
  · have hout := Tree.trace_all_paths (rest := rest) (ht ▸ hps)
    rw [← hbits, hlen] at hout
    have hsize : (ps.map Prod.fst).length = s.origSize.toNat := (List.length_map _).trans hlen
    have hbody := stageUnpack_node (s := s.atStage .unpack) htreeV hparsed ht hoff hr hout (hsize ▸ hw)
    obtain ⟨hend, hresult, hkept⟩ := State.result_restarted s (s.unpacked (ps.map Prod.fst)) _ rfl rfl
      (hsize ▸ s.origSize.isLt)
    exact ⟨s.unpacked (ps.map Prod.fst), stageCommand_ok (hbody.trans (if_pos hsize)),
      BitVec.eq_of_toNat_eq (hend.trans hsize), hresult, hkept, rfl⟩
  · have hloop : s.unpackLoop = .ok () (s.unpackStarted.emitted []) := by
      rw [State.emitted_nil]
      exact unpackBytes_of_complete (by simp [State.unpackStarted, hsize]) _ _ _
    rw [exec_unpack ⟨htreeV, hparsed⟩ hloop, State.unpacked, State.emitted_nil]

/-- Settles O43: the first bit of the first payload byte is to be followed from the root, which is a leaf. -/
theorem unpackFaultsOnASingleLeaf : Obligations.UnpackFaultsOnASingleLeaf := by
  intro s b htreeV hparsed ht hsize hoff hcap hok
  have hpos : 0 < s.origSize.toNat := Nat.pos_of_ne_zero (BitVec.toNat_ne.mp hsize)
  have hloop : s.unpackLoop = .raised (faultEntry .absentChild (BitVec.ofNat 64 s.payloadOff.toNat)
      (s.unpackStarted.emitted [])) := by
    rw [State.emitted_nil, State.unpackLoop, ht]
    exact unpackBytes_leaf (s := s.unpackStarted) (Nat.sub_pos_of_lt hoff) hpos hoff hcap hok b
  rw [exec_unpack_raised ⟨htreeV, hparsed⟩ hloop, State.unpackRaised, State.emitted_nil, BitVec.ofNat_toNat,
    BitVec.setWidth_eq]
  rfl

/-- Settles O44: the loop goes through the first `n` payload bytes and raises at the access that fails; what it emitted
before is the leaves whose codes it read, or those below the address that cannot be written. -/
theorem unpackFaultsInOrder : Obligations.UnpackFaultsInOrder := by
  intro s htreeV hparsed hoff fails readable
  have hfails : ∀ c info out, out.length ≤ s.origSize.toNat →
      s.unpackLoop = .raised (faultEntry c (BitVec.ofNat 64 info) (s.unpackStarted.emitted out)) →
      fails c.code info out := by
    intro c info out hfit hloop
    obtain ⟨hend, hresult, hkept⟩ := State.result_restarted s (s.unpackRaised out c info) out rfl rfl
      (hfit.trans_lt s.origSize.isLt)
    exact ⟨_, exec_unpack_raised ⟨htreeV, hparsed⟩ hloop, hend, hresult, hkept, rfl⟩
  have hneeded : s.origSize ≠ 0 → 0 < s.origSize.toNat := fun hsize =>
    Nat.pos_of_ne_zero (BitVec.toNat_ne.mp hsize)
  refine ⟨fun l r n ps rest ht hn hr hps hbits => ⟨fun hlt hrest hw => ?_, fun a ha hlt hw hbad => ?_⟩,
    fun hpos hsize hbad => ?_, fun hend hsize => ?_⟩
  · obtain ⟨cur, hloop⟩ := State.unpackLoop_prefix ht hn hr (ht ▸ hps) hbits hlt (ht ▸ hrest) hw
    have hfit : (ps.map Prod.fst).length ≤ s.origSize.toNat := by rw [List.length_map]; exact hlt.le
    have hmore : (s.unpackStarted.emitted (ps.map Prod.fst)).outLen.toNat < s.origSize.toNat := by
      rw [State.outLen_emitted _ _ (lt_of_eq_of_lt (Nat.zero_add _) (hfit.trans_lt s.origSize.isLt)), List.length_map]
      exact lt_of_eq_of_lt (Nat.zero_add _) hlt
    refine ⟨fun hend => hfails .payloadEof _ _ hfit ?_, fun hpos hbad => hfails .ioRead _ _ hfit ?_⟩
    · rw [hloop, Nat.sub_sub, hend, Nat.sub_self]
      exact unpackBytes_payloadEof hmore _ cur
    · rw [hloop]
      exact unpackBytes_ioRead (by omega) hmore hpos hbad
  · exact hfails .ioWrite _ _ ((List.length_take_le _ _).trans ha.le)
      (State.unpackLoop_ioWrite ht hn hr (ht ▸ hps) hbits ha hlt hw hbad)
  · refine hfails .ioRead _ [] (Nat.zero_le _) ?_
    rw [State.emitted_nil]
    exact unpackBytes_ioRead (Nat.sub_pos_of_lt hpos) (hneeded hsize) hpos hbad
  · refine hfails .payloadEof _ [] (Nat.zero_le _) ?_
    rw [State.emitted_nil, State.unpackLoop, hend, Nat.sub_self]
    exact unpackBytes_payloadEof (s := s.unpackStarted) (hneeded hsize) _ _

end Sys2Proof.Machine
end

section
/-! SUPPORT. What follows from a command having completed: its stages did, and COMPRESS's found a readable source, two
byte values and room for the container they leave (46_container.md R176, 47_control.md R187). -/

namespace Sys2Proof.Machine

/-! ### A command that leaves DONE completed its stages (R187, R225) -/

/-- A stage that raised leaves DONE cleared. -/
theorem runStage_raised_done {g : Stage} {s t : State} (h : runStage g (stageBody g) s = .raised t) :
    t.status.done = false := by
  rw [runStage_eq] at h
  obtain ⟨-, he⟩ | ⟨-, he⟩ := stageBody_cases g { s with status := { s.status with phase := g.number } }
  · cases h.symm.trans he
    rfl
  · rw [h] at he
    rw [he.2]

theorem runStages_raised_done {gs : List Stage} {s t : State} (h : runStages gs s = .raised t) :
    t.status.done = false := by
  induction gs generalizing s with
  | nil => cases h
  | cons g gs ih =>
    obtain h | ⟨_, u, -, h⟩ := Run.andThen_eq_raised.mp h
    · exact runStage_raised_done h
    · exact ih h

/-- A command with stages that leaves DONE set ran them to their end. -/
theorem runStages_ok_of_done {i : Instr} (hi : commandStages i ≠ []) {s t : State} (h : exec i s = .next t)
    (hdone : t.status.done = true) :
    ∃ u, runStages (commandStages i) { s with status := { s.status with done := false, busy := true } } = .ok () u ∧
      t = { u with status := { u.status with phase := 0, busy := false, done := true } } := by
  rw [exec_eq_runStages hi] at h
  obtain ⟨u, hu, hn⟩ | ⟨u, hu, hn⟩ := runCommand_cases (runStages (commandStages i)) s <;> cases hn.symm.trans h
  · exact ⟨u, hu, rfl⟩
  · exact absurd (hdone.symm.trans (runStages_raised_done hu)) (by decide)

/-! ### A COMPRESS that completes (R176) -/

/-- HEMIT and PACK complete one after the other only where OUT can be written for all they emit (R171, R153). -/
theorem hemit_pack_writable {s u : State}
    (h : ((runStage .hemit stageHemit s).andThen fun _ s => runStage .pack stagePack s) = .ok () u)
    (hserV : s.status.serV = true) (hfreqV : s.status.freqV = true) :
    s.outWritable 0 (s.headerAndTree.length + ceil8 (s.codeBits s.source).length) := by
  obtain ⟨_, v, hhemit, hpack⟩ := Run.andThen_eq_ok.mp h
  rw [runStage_eq] at hhemit hpack
  obtain ⟨hw, he⟩ | ⟨_, _, _, _, he⟩ :=
    stageHemit_cases (s := { s with status := { s.status with phase := Stage.hemit.number } }) hserV hfreqV <;>
    cases he.symm.trans hhemit
  obtain ⟨-, -, -, -, -, hw'⟩ := stagePack_completes hpack
  have hlen : (State.emitted { s with outLen := 0 } s.headerAndTree).outLen.toNat = s.headerAndTree.length :=
    (s.result_restarted _ s.headerAndTree rfl rfl (s.outWritable_lt hw (by decide) (Nat.zero_le _))).1
  intro a ha _
  by_cases hlt : a < s.headerAndTree.length
  · exact hw a hlt (Nat.zero_le a)
  · exact hw' a (ha.trans_eq (congrArg (· + ceil8 (s.codeBits s.source).length) hlen.symm))
      (hlen.trans_le (Nat.not_lt.mp hlt))

/-- A COMPRESS that completes read its whole source, found two byte values in it, and had room for the container. -/
theorem macroCompress_completes {s u : State} (h : macroCompress s = .ok () u) :
    s.inReadable s.inLen.toNat ∧ 2 ≤ s.counted.distinct ∧
      ∃ tr, s.counted.builtTree = some tr ∧ s.outWritable 0 (container tr s.source).length := by
  have hr : s.inReadable s.inLen.toNat := by
    obtain ⟨hr, -⟩ | ⟨_, _, _, _, he⟩ :=
      stageFscan_cases { s with status := { s.status with phase := Stage.fscan.number } }
    · exact hr
    · rw [macroCompress, runStage_eq, he] at h
      cases h
  have hd : 2 ≤ s.counted.distinct := by
    by_contra hd
    cases (macroCompress_smallAlphabet hr (Nat.not_le.mp hd)).symm.trans h
  obtain ⟨tr, htr, -⟩ := s.counted.builtTree_spec (by rw [State.length_symbols]; omega)
  obtain ⟨hnd, hcap, hmem, -⟩ := s.builtTree_counted hd htr
  rw [macroCompress_built s hr tr hd htr] at h
  have hcode : (s.built tr).codeBits s.source = tr.payloadBits s.source :=
    State.codeBits_eq_payloadBits rfl hnd hcap fun b hb => (hmem b).mpr hb
  have hw := hemit_pack_writable h rfl rfl
  refine ⟨hr, hd, tr, htr, ?_⟩
  rw [← s.built_container tr hcap, List.length_append, length_pack, ← hcode]
  exact hw

/-! ### What a completed COMPRESS leaves (R95, R176) -/

/-- The result is the container of `d`, with some tree of at least two distinct leaves that has every byte of `d` as a
leaf. -/
def State.ResultIsContainerOf (s : State) (d : ByteSeq) : Prop :=
  ∃ tr : Tree, 2 ≤ tr.leaves.length ∧ tr.leaves.Nodup ∧ (∀ b ∈ d, b ∈ tr.leaves) ∧
    s.outLen.toNat = (container tr d).length ∧ s.result = container tr d

theorem resultIsContainerOf_of_macroCompress {s u : State} (h : macroCompress s = .ok () u) :
    u.ResultIsContainerOf s.source := by
  obtain ⟨hr, hd, tr, htr, hw⟩ := macroCompress_completes h
  obtain ⟨hnd, -, hmem, hlen⟩ := s.builtTree_counted hd htr
  cases (macroCompress_ok s hr tr hd htr hw).symm.trans h
  obtain ⟨hend, hresult, -⟩ := s.result_restarted (s.compressed tr) (container tr s.source) (s.compressed_outMem tr)
    (s.compressed_outLen tr) (s.outWritable_lt hw (by decide) (Nat.zero_le _))
  exact ⟨tr, hlen ▸ hd, hnd, fun b hb => (hmem b).mpr hb, hend, hresult⟩

/-- A COMPRESS that completes leaves the container of its source (R176). -/
theorem resultIsContainerOf_of_compress {s t : State} (h : exec .compress s = .next t) (hdone : t.status.done = true) :
    t.ResultIsContainerOf s.source := by
  obtain ⟨u, hu, rfl⟩ := runStages_ok_of_done (by decide) h hdone
  rw [← macroCompress_eq] at hu
  exact (resultIsContainerOf_of_macroCompress hu :)

end Sys2Proof.Machine
end

section
/-! PROOFS. The round trip: DECOMPRESS gives back the source of a COMPRESS that completed (45_unpacker.md R164). -/

namespace Sys2Proof.Machine

/-- Settles O48: COMPRESS leaves the container of the source, and DECOMPRESS reads any container back. -/
theorem decompressInvertsCompress : Obligations.DecompressInvertsCompress := by
  intro s t u hcompress hdone hlen hbytes hr hw
  obtain ⟨tr, hleaves, hnd, hmem, hend, hresult⟩ := resultIsContainerOf_of_compress hcompress hdone
  have hsource : s.source.length = s.inLen.toNat := s.length_inSeq 0 _
  have hin : u.inSeq 0 (container tr s.source).length = container tr s.source := by
    rw [← hend, ← hresult]
    refine List.map_congr_left fun a ha => ?_
    rw [Nat.zero_add, hbytes a (List.mem_range.mp ha)]
  obtain ⟨v, hv, hmemory, hout, -, -, -, -, hstatus⟩ :=
    macroDecompress_ok { u with status := { u.status with done := false, busy := true } } tr s.source hr hleaves hnd
      hmem (hsource ▸ s.inLen.isLt) (hlen ▸ hend.ge) hin (hsource ▸ hw)
  obtain ⟨-, hback, -⟩ := State.result_restarted _ v s.source hmemory hout (hsource ▸ s.inLen.isLt)
  exact ⟨_, runCommand_ok hv, rfl, by rw [hstatus], hback⟩

end Sys2Proof.Machine
end

section
/-! PROOFS. The container format commands: what HEMIT writes to OUT up to the end or the first address it cannot write,
and what HPARSE reads from IN (46_container.md R171, R173, 60_exceptions.md R218). -/

namespace Sys2Proof.Machine

/-! ### The command HEMIT (R40, R171, R187) -/

/-- OUT can be written no further than an address that cannot be written. -/
theorem State.outWritable.le_of_unwritable {s : State} {n a : Nat} (hw : s.outWritable 0 n)
    (hbad : s.platform.outCap.toNat ≤ a ∨ a ∈ s.platform.outFault) : n ≤ a := by
  by_contra hlt
  obtain ⟨hcap, hok⟩ := hw a (Nat.not_le.mp hlt) (Nat.zero_le a)
  exact hbad.elim (Nat.not_le.mpr hcap) hok

@[simp] theorem State.headerAndTree_atStage (s : State) (g : Stage) :
    (s.atStage g).headerAndTree = s.headerAndTree := rfl

/-- Header, shape bytes and leaf bytes, written out (R171). -/
theorem State.headerAndTree_eq (s : State) : s.headerAndTree =
    be 8 s.origSize.toNat ++ be 2 s.shapeBitLen.toNat ++ be 2 s.shapeByteLen.toNat ++ be 2 s.leafCount.toNat
      ++ (List.range s.shapeByteLen.toNat).map s.shapeByte ++ s.leafSeq := rfl

/-- `s` where HEMIT completes on it, having emitted `bs`. -/
def State.hemitted (s : State) (bs : ByteSeq) : State :=
  { ({ s with outLen := 0 } : State).emitted bs with
    status := { s.status with busy := false, done := true, phase := 0, hdrw := true } }

/-- `s` where HEMIT raises IoWrite(a) on it, having emitted `bs`. -/
def State.hemitRaised (s : State) (bs : ByteSeq) (a : Nat) : State :=
  { ({ s with outLen := 0 } : State).emitted bs with
    errCode := Cause.code .ioWrite
    errInfo := BitVec.ofNat 64 a
    status := { s.status with busy := false, done := false, err := true, phase := 5, hdrw := false } }

theorem State.result_hemitted (s : State) {bs : ByteSeq} (hb : bs.length < 2 ^ 64) :
    (s.hemitted bs).outLen.toNat = bs.length ∧ (s.hemitted bs).result = bs ∧
      ∀ a, (s.hemitted bs).outLen.toNat ≤ a → (s.hemitted bs).outByte a = s.outByte a :=
  State.result_restarted s (s.hemitted bs) bs rfl rfl hb

theorem State.hemitted_eq (s : State) (bs : ByteSeq) : s.hemitted bs =
    { s with
      outMem := (s.hemitted bs).outMem
      outLen := (s.hemitted bs).outLen
      status := { s.status with busy := false, done := true, phase := 0, hdrw := true } } := rfl

theorem exec_hemit_of_stage {s : State} {bs : ByteSeq} (h : stageHemit (s.atStage .hemit) = .ok ()
    { ({ s.atStage .hemit with outLen := 0 } : State).emitted bs with
      status := Stage.sets .hemit (Stage.clears .hemit (s.atStage .hemit).status) }) :
    exec .hemit s = .next (s.hemitted bs) := stageCommand_ok h

theorem exec_hemit_of_stage_raised {s : State} {bs : ByteSeq} {a : Nat} (h : stageHemit (s.atStage .hemit) = .raised
    (faultEntry .ioWrite (BitVec.ofNat 64 a) { ({ s.atStage .hemit with outLen := 0 } : State).emitted bs with
      status := Stage.clears .hemit (s.atStage .hemit).status })) :
    exec .hemit s = .next (s.hemitRaised bs a) := stageCommand_raised h

section
variable {s : State} (hser : s.status.serV = true) (hfreq : s.status.freqV = true)
include hser hfreq

/-- All HEMIT can do with its preconditions met: emit its bytes, or raise IoWrite at the first OUT address that cannot
be written. -/
theorem exec_hemit_cases :
    (s.outWritable 0 s.headerAndTree.length ∧ exec .hemit s = .next (s.hemitted s.headerAndTree)) ∨
    ∃ n < s.headerAndTree.length, s.outWritable 0 n ∧ (s.platform.outCap.toNat ≤ n ∨ n ∈ s.platform.outFault) ∧
      exec .hemit s = .next (s.hemitRaised (s.headerAndTree.take n) n) := by
  have hcases := stageHemit_cases (s := s.atStage .hemit) hser hfreq
  rw [State.headerAndTree_atStage] at hcases
  obtain ⟨hw, h⟩ | ⟨n, hn, hw, hbad, h⟩ := hcases
  · exact .inl ⟨hw, exec_hemit_of_stage h⟩
  · exact .inr ⟨n, hn, hw, hbad, exec_hemit_of_stage_raised h⟩

theorem exec_hemit (hw : s.outWritable 0 s.headerAndTree.length) :
    exec .hemit s = .next (s.hemitted s.headerAndTree) := by
  obtain ⟨-, h⟩ | ⟨n, hn, -, hbad, -⟩ := exec_hemit_cases hser hfreq
  · exact h
  · exact absurd (hw.le_of_unwritable hbad) (Nat.not_le.mpr hn)

theorem exec_hemit_ioWrite {a : Nat} (hw : s.outWritable 0 a) (ha : a < s.headerAndTree.length)
    (hbad : s.platform.outCap.toNat ≤ a ∨ a ∈ s.platform.outFault) :
    exec .hemit s = .next (s.hemitRaised (s.headerAndTree.take a) a) := by
  obtain ⟨hall, -⟩ | ⟨n, -, hn, hnbad, h⟩ := exec_hemit_cases hser hfreq
  · exact absurd (hall.le_of_unwritable hbad) (Nat.not_le.mpr ha)
  · obtain rfl : n = a := Nat.le_antisymm (hn.le_of_unwritable hbad) (hw.le_of_unwritable hnbad)
    exact h

end

/-! ### The command HPARSE (R40, R173, R187) -/

/-- The end of the tree region, as the header in IN spells it (R173). -/
theorem State.treeEnd_withHeader (s : State) :
    s.withHeader.treeEnd = 14 + ube (s.inSeq 10 2) + ube (s.inSeq 12 2) := by
  obtain ⟨-, -, hbytes, hleaves⟩ := s.withHeader_fields
  rw [treeEnd, hbytes, hleaves]
  rfl

/-- `s` where HPARSE completes on it. -/
def State.headerParsed (s : State) : State :=
  { s.withHeader with
    shape := overwrite 0 (s.inSeq 14 (ceil8 (ube (s.inSeq 8 2)))) s.shape
    leaves := overwrite 0 (s.inSeq (14 + ube (s.inSeq 10 2)) (ube (s.inSeq 12 2))) s.leaves
    payloadOff := BitVec.ofNat 64 (14 + ube (s.inSeq 10 2) + ube (s.inSeq 12 2))
    status := { s.status with
      busy := false, done := true, phase := 0, freqV := false, treeV := false, codeV := false,
      serV := true, hdrw := false, parsed := true } }

/-- The header in IN is consistent, within capacity, and within IN_LEN with its tree (R173). -/
structure State.HeaderFits (s : State) : Prop where
  bits : ube (s.inSeq 8 2) ≤ 8 * ube (s.inSeq 10 2)
  maxBits : ube (s.inSeq 8 2) ≤ 511
  maxLeaves : ube (s.inSeq 12 2) ≤ 256
  tree : 14 + ube (s.inSeq 10 2) + ube (s.inSeq 12 2) ≤ s.inLen.toNat

theorem exec_hparse {s : State} (h : s.HeaderFits) (hr : s.inReadable s.inLen.toNat) :
    exec .hparse s = .next s.headerParsed := by
  obtain ⟨hbits, hmaxBits, hmaxLeaves, htree⟩ := h
  obtain ⟨-, w2, w3, w4⟩ := (s.atStage .hparse).withHeader_fields
  have hend := (s.atStage .hparse).treeEnd_withHeader
  have hparse := parseTree_ok (s := (s.atStage .hparse).withHeader) (by rw [w2, w3]; exact hbits)
    (by rw [w2, w4]; exact ⟨hmaxBits, hmaxLeaves⟩) (by rw [hend]; exact htree)
    (by rw [hend]; exact fun a ha => hr a (ha.trans_le htree))
  rw [← stageHparse_eq (s := s.atStage .hparse) ((Nat.le_add_right 14 _).trans ((Nat.le_add_right _ _).trans htree))
    (fun a ha => hr a (by simp only [Config.hdrBytes] at ha; omega)), w2, w3, w4, hend] at hparse
  exact stageCommand_ok hparse

/-! ### The statements -/

/-- Settles O34: the body emits header, shape and leaves from OUT address 0. -/
theorem hemitWritesHeaderAndTree : Obligations.HemitWritesHeaderAndTree := by
  intro s hser hfreq hw
  have hlen : s.headerAndTree.length = 14 + s.shapeByteLen.toNat + s.leafCount.toNat := s.length_headerAndTree
  rw [← hlen] at hw
  obtain ⟨hend, hresult, hkept⟩ := s.result_hemitted (s.outWritable_lt hw (by decide) (Nat.zero_le _))
  exact ⟨_, exec_hemit hser hfreq hw, hend.trans hlen, hresult.trans s.headerAndTree_eq, hkept, s.hemitted_eq _⟩

/-- Settles O35: the body emits the bytes below the first OUT address that cannot be written, and raises there. -/
theorem hemitRecordsTheUnwritableAddress : Obligations.HemitRecordsTheUnwritableAddress := by
  intro s a hser hfreq hw ha hbad
  replace ha : a < s.headerAndTree.length := ha.trans_eq s.length_headerAndTree.symm
  have htake : (s.headerAndTree.take a).length = a := List.length_take_of_le ha.le
  obtain ⟨hend, hresult, hkept⟩ := State.result_restarted s (s.hemitRaised (s.headerAndTree.take a) a) _ rfl rfl
    (htake.trans_lt (s.outWritable_lt hw (by decide) (Nat.zero_le _)))
  rw [htake] at hend
  exact ⟨_, exec_hemit_ioWrite hser hfreq hw ha hbad, hend, hresult, fun x hx => hkept x (hend.trans_le hx), rfl⟩

/-- Settles O36: the header registers hold what IN spells, the checks of R173 pass, and the two copies fill the first
elements of SHAPE and LEAVES. -/
theorem hparseReadsTheHeader : Obligations.HparseReadsTheHeader := by
  rintro s _ _ _ _ hr rfl rfl rfl rfl hbits hmaxBits hmaxLeaves htree
  obtain ⟨horig, hbit, hbyte, hleaf⟩ := s.withHeader_fields
  have hshape := fun k => s.headerParsed.shapeByte_overwrite _ s.shape rfl
    (by rw [State.length_inSeq]; unfold ceil8; omega) k
  have hleaves := fun k => s.headerParsed.leafByte_overwrite _ s.leaves rfl (by rwa [State.length_inSeq]) k
  refine ⟨s.headerParsed, exec_hparse ⟨hbits, hmaxBits, hmaxLeaves, htree⟩ hr, horig, hbit, hbyte, hleaf, ?_, ?_, ?_,
    fun k hk => ?_, fun k hk => ?_, rfl⟩
  · exact (BitVec.toNat_ofNat _ _).trans (Nat.mod_eq_of_lt (htree.trans_lt s.inLen.isLt))
  · refine List.ext_getElem (by simp) fun k _ hk => ?_
    rw [List.getElem_map, List.getElem_range, hshape, dif_pos hk]
  · exact State.leafSeq_of_bytes (by rw [State.length_inSeq]; exact hleaf) fun k hk => by rw [hleaves, dif_pos hk]
  · exact (hshape k).trans (dif_neg (by rw [State.length_inSeq]; omega))
  · exact (hleaves k).trans (dif_neg (by rw [State.length_inSeq]; omega))

end Sys2Proof.Machine
end

section
/-! PROOFS. COMPRESS and DECOMPRESS and their stages: what the two leave where they complete, and that each then leaves
what its stage commands leave (46_container.md R176, R177, R180, R181). -/

namespace Sys2Proof.Machine

/-! ### Stage commands one after another (R177, R181, R187) -/

/-- `s` inside a command (R187). -/
def State.started (s : State) : State := { s with status := { s.status with done := false, busy := true } }

/-- `s`, left by the body of a command, where the command has completed (R187). -/
def State.finished (s : State) : State :=
  { s with status := { s.status with phase := 0, busy := false, done := true } }

@[simp] theorem State.started_source (s : State) : s.started.source = s.source := rfl
@[simp] theorem State.finished_outMem (s : State) : s.finished.outMem = s.outMem := rfl
@[simp] theorem State.finished_outLen (s : State) : s.finished.outLen = s.outLen := rfl

/-- Inside a command, a finished stage command and the next stage's start come to nothing: only PHASE differs. -/
theorem State.finished_atStage {s : State} (hdone : s.status.done = false) (hbusy : s.status.busy = true) (g : Stage) :
    s.finished.atStage g = { s with status := { s.status with phase := g.number } } := by
  simp only [finished, atStage, ← hdone, ← hbusy]

/-- A stage that completes leaves the command running. -/
theorem runStage_ok_running {g : Stage} {s t : State} (h : runStage g (stageBody g) s = .ok () t) :
    t.status.done = s.status.done ∧ t.status.busy = s.status.busy := by
  rw [runStage_eq] at h
  obtain ⟨-, he⟩ | ⟨-, he⟩ := stageBody_cases g { s with status := { s.status with phase := g.number } }
  · cases he.symm.trans h
  · rw [h] at he
    rw [he.1]
    cases g <;> exact ⟨rfl, rfl⟩

/-- A stage command is its stage in the frame of R187. -/
theorem exec_stage (g : Stage) (s : State) : exec g.command s = runCommand (runStage g (stageBody g)) s := by
  cases g <;> rfl

theorem runCommands_cons {i : Instr} {s t : State} (h : exec i s = .next t) (is : List Instr) :
    runCommands (i :: is) s = runCommands is t := by
  rw [runCommands, h]

/-- Stages that complete from `s` inside one command leave what their commands leave, issued one after another once `s`
is finished. -/
theorem runCommands_of_runStages {gs : List Stage} {s u : State} (h : runStages gs s = .ok () u)
    (hdone : s.status.done = false) (hbusy : s.status.busy = true) :
    runCommands (gs.map Stage.command) s.finished = .next u.finished := by
  induction gs generalizing s with
  | nil => cases h; rfl
  | cons g gs ih =>
    obtain ⟨_, v, hstage, hrest⟩ := Run.andThen_eq_ok.mp h
    obtain ⟨hd, hb⟩ := runStage_ok_running hstage
    rw [runStage_eq, ← State.finished_atStage hdone hbusy] at hstage
    have hexec : exec g.command s.finished = .next v.finished := (exec_stage g _).trans (stageCommand_ok hstage)
    rw [List.map_cons, runCommands_cons hexec]
    exact ih hrest (hd.trans hdone) (hb.trans hbusy)

/-- Starting a command and finishing it at once changes nothing the next stage command sees. -/
theorem exec_stage_started_finished (g : Stage) (s : State) : exec g.command s.started.finished = exec g.command s := by
  rw [exec_stage, exec_stage]
  rfl

/-- Stages that complete inside one command leave what their commands leave, issued one after another (R177, R181). -/
theorem runCommands_started {g : Stage} {gs : List Stage} {s u : State}
    (h : runStages (g :: gs) s.started = .ok () u) :
    runCommands ((g :: gs).map Stage.command) s = .next u.finished := by
  rw [← runCommands_of_runStages h rfl rfl, List.map_cons, runCommands, runCommands, exec_stage_started_finished]

/-! ### CBUILD and TSER in either order (R177) -/

/-- `s` after CBUILD as a stage inside a command. -/
def State.afterCbuild (s : State) : State :=
  { s with code := codeTable s.tree, status := { s.status with phase := 3, codeV := true } }

/-- `s` after TSER as a stage inside a command. -/
def State.afterTser (s : State) : State :=
  { s.serialized with status := { s.status with phase := 4, serV := true, hdrw := false } }

theorem runStages_cbuild_cons {s : State} (h : s.status.treeV = true) (gs : List Stage) :
    runStages (.cbuild :: gs) s = runStages gs s.afterCbuild :=
  congrArg (Run.andThen · _) (stageCbuild_ok (s := { s with status := { s.status with phase := 3 } }) h)

theorem runStages_tser_cons {s : State} (h : s.status.treeV = true) (gs : List Stage) :
    runStages (.tser :: gs) s = runStages gs s.afterTser :=
  congrArg (Run.andThen · _) (stageTser_ok (s := { s with status := { s.status with phase := 4 } }) h)

/-- A stage list that completes meets the precondition of its first stage. -/
theorem requires_of_runStages {g : Stage} {gs : List Stage} {s u : State} (h : runStages (g :: gs) s = .ok () u) :
    g.requires { s.status with phase := g.number } = true := by
  obtain ⟨_, v, hstage, -⟩ := Run.andThen_eq_ok.mp h
  rw [runStage_eq] at hstage
  obtain ⟨-, he⟩ | ⟨hr, -⟩ := stageBody_cases g { s with status := { s.status with phase := g.number } }
  · cases he.symm.trans hstage
  · exact hr

/-- CBUILD and TSER each need the tree and neither touches what the other reads or writes; only PHASE tells which ran
last, and the next stage sets it. -/
theorem runStages_cbuild_tser_comm {g : Stage} {gs : List Stage} {s u : State}
    (h : runStages (.cbuild :: .tser :: g :: gs) s = .ok () u) :
    runStages (.tser :: .cbuild :: g :: gs) s = .ok () u := by
  have htree : s.status.treeV = true := requires_of_runStages h
  have hnext : runStages (g :: gs) s.afterCbuild.afterTser = runStages (g :: gs) s.afterTser.afterCbuild := rfl
  rw [runStages_cbuild_cons htree, runStages_tser_cons (s := s.afterCbuild) htree, hnext] at h
  rw [runStages_tser_cons htree, runStages_cbuild_cons (s := s.afterTser) htree, h]

/-- The stages of COMPRESS with TSER before CBUILD complete where they complete in their own order. -/
theorem runStages_compress_swapped {s u : State} (h : runStages (commandStages .compress) s = .ok () u) :
    runStages [.fscan, .tbuild, .tser, .cbuild, .hemit, .pack] s = .ok () u := by
  obtain ⟨_, v, hfscan, hv⟩ := Run.andThen_eq_ok.mp h
  obtain ⟨_, w, htbuild, hw⟩ := Run.andThen_eq_ok.mp hv
  exact Run.andThen_eq_ok.mpr ⟨_, v, hfscan, Run.andThen_eq_ok.mpr ⟨_, w, htbuild, runStages_cbuild_tser_comm hw⟩⟩

/-! ### The command COMPRESS where it completes (R176) -/

/-- `s` where COMPRESS completes on it with the built tree `t`. -/
def State.compressFinished (s : State) (t : Tree) : State := (s.started.compressed t).finished

theorem exec_compress {s : State} {tr : Tree} (hr : s.inReadable s.inLen.toNat) (hd : 2 ≤ s.counted.distinct)
    (htr : s.counted.builtTree = some tr) (hw : s.outWritable 0 (container tr s.source).length) :
    exec .compress s = .next (s.compressFinished tr) := by
  have hdistinct : s.started.counted.distinct = s.counted.distinct := State.distinct_congr rfl
  have hbuilt : s.started.counted.builtTree = s.counted.builtTree := State.builtTree_congr rfl
  exact runCommand_ok (macroCompress_ok s.started hr tr (hdistinct ▸ hd) (hbuilt.trans htr) hw)

/-- OUT from address 0 where COMPRESS completes (R95). -/
theorem State.result_compressFinished {s : State} {tr : Tree} (hlen : (container tr s.source).length < 2 ^ 64) :
    (s.compressFinished tr).outLen.toNat = (container tr s.source).length ∧
      (s.compressFinished tr).result = container tr s.source ∧
      ∀ a, (s.compressFinished tr).outLen.toNat ≤ a → (s.compressFinished tr).outByte a = s.outByte a := by
  have hmem := s.started.compressed_outMem tr
  have hout := s.started.compressed_outLen tr
  rw [State.started_source, ← State.finished_outMem] at hmem
  rw [State.started_source, ← State.finished_outLen] at hout
  exact State.result_restarted s.started (s.compressFinished tr) _ hmem hout hlen

/-! ### The statements -/

/-- Settles O47: HPARSE reads header and tree back, TDES rebuilds the tree, and UNPACK follows the payload's codes down
it. -/
theorem decompressReadsTheContainer : Obligations.DecompressReadsTheContainer := by
  intro s tr d herr hr hleaves hnd hmem hd hle hc hw
  obtain ⟨u, hu, hmemory, hout, htree, horig, hcode, hinfo, hstatus⟩ :=
    macroDecompress_ok s.started tr d hr hleaves hnd hmem hd hle hc hw
  have hexec : exec .decompress s = .next u.finished := runCommand_ok hu
  obtain ⟨hend, hresult, hkept⟩ := State.result_restarted s u.finished d hmemory hout hd
  refine ⟨u.finished, hexec, hresult, hend, htree, ?_, horig, hkept, commandsWriteOnlyTheirParts _ _ _ hexec, hcode,
    hinfo⟩
  simp only [State.finished, hstatus, State.started, herr]
  decide

/-- Settles O45: the built tree has exactly the source's bytes as leaves, HEMIT and PACK write the container, and the
code table of a tree with distinct leaves holds its codes. -/
theorem compressWritesTheContainer : Obligations.CompressWritesTheContainer := by
  intro s herr hr hd
  obtain ⟨tr, htr, -⟩ := s.counted.builtTree_spec (by rw [State.length_symbols]; omega)
  obtain ⟨hnd, hcap, hmem, -⟩ := s.builtTree_counted hd htr
  refine ⟨tr, htr, hmem, fun hw => ?_⟩
  have hexec := exec_compress hr hd htr hw
  obtain ⟨hend, hresult, hkept⟩ :=
    State.result_compressFinished (s.outWritable_lt hw (by decide) (Nat.zero_le _))
  refine ⟨_, hexec, hresult, hend, rfl, ?_, s.toNat_freqOf_counted, fun b hb => ?_, rfl, hkept,
    commandsWriteOnlyTheirParts _ _ _ hexec, rfl, rfl⟩
  · simp only [State.compressFinished, State.finished, State.compressed_status, State.started, herr]
    decide
  · exact State.seq_of_mem (s := s.compressFinished tr) rfl hnd hcap ((hmem b).mpr hb)

/-- Settles O49: a command that leaves DONE ran its stages to their end, and a stage finds the same state inside COMPRESS
or DECOMPRESS as after the stage command before it. -/
theorem macrosEqualTheirStages : Obligations.MacrosEqualTheirStages := by
  refine ⟨fun s t he hdone => ?_, fun s t he hdone => ?_⟩
  · obtain ⟨u, hu, rfl⟩ := runStages_ok_of_done (by decide) he hdone
    exact ⟨runCommands_started hu, runCommands_started (runStages_compress_swapped hu)⟩
  · obtain ⟨u, hu, rfl⟩ := runStages_ok_of_done (by decide) he hdone
    exact runCommands_started hu

end Sys2Proof.Machine
end

section
/-! PROOFS. Command acceptance and the control commands: a legal word written to CMD runs its command, NOP changes
nothing, and CLR clears the record (47_control.md R186, R188, R189; 10_state.md R50). -/

namespace Sys2Proof.Machine

/-! ### Acceptance, NOP and CLR (R186, R188, R189) -/

/-- A command's word passes every test of acceptance: CLR by the test before the sticky fault, any other command by the
decoder after it (R186). -/
theorem accept_legal {w : Word32} {s : State} {i : Instr} (hd : decode w = .ok i) (hb : s.status.busy = false)
    (he : s.status.err = false ∨ i = .clr) : accept w s = exec i s := by
  by_cases hw : w = encode .clr
  · obtain rfl : Instr.clr = i := Except.ok.inj ((decode_encode .clr).symm.trans (hw ▸ hd))
    simp [accept, hb, hw]
  · have herr : s.status.err = false := he.resolve_right fun hi => hw (hi ▸ eq_encode_of_decode hd)
    simp [accept, hb, hw, herr, hd]

theorem exec_nop (s : State) : exec .nop s = .next s := rfl

theorem exec_clr (s : State) : exec .clr s = .next (clearRecord s) := rfl

/-! ### The statements -/

/-- Settles O4: the step presents the word to acceptance with the write consumed, and acceptance runs a legal word. -/
theorem stepRunsAcceptedCommand : Obligations.StepRunsAcceptedCommand := by
  intro s v rest i hhost hd hb he
  exact (step_writeCmd hhost hb).trans (accept_legal hd hb he)

/-- Settles O20: NOP answers the state it was given. -/
theorem nopChangesNothing : Obligations.NopChangesNothing := exec_nop

/-- Settles O21: CLR answers the state with its record cleared. -/
theorem clrClearsTheRecord : Obligations.ClrClearsTheRecord := exec_clr

end Sys2Proof.Machine
end

section
/-! PROOFS. Fault entry, the causes, and what raises them before a stage does its work: the sticky fault, Sequence,
InsufficientAlphabet, InputChanged (60_exceptions.md R207, R208, R220, R222, R225, R228). -/

namespace Sys2Proof.Machine

/-! ### While ERR = 1 (R186, R228) -/

theorem accept_faulted {w : Word32} {s : State} (hb : s.status.busy = false) (he : s.status.err = true)
    (hw : w ≠ encode .clr) : accept w s = .next s := by
  simp [accept, hb, hw, he]

/-- Settles O5: the word CLR passes the test before the sticky fault, and the sticky fault stops every other one. -/
theorem faultedBlockAcceptsOnlyClr : Obligations.FaultedBlockAcceptsOnlyClr := by
  intro s v rest hhost hb he
  rw [step_writeCmd hhost hb]
  refine ⟨fun hw => accept_faulted hb he hw, fun hw => ?_⟩
  exact accept_legal ((congrArg decode hw).trans (decode_encode .clr)) hb (.inr rfl)

/-! ### Fault entry (R207, R225) -/

/-- Settles O17: raise is fault entry, and fault entry writes the five parts of its frame. -/
theorem faultEntryWritesTheRecord : Obligations.FaultEntryWritesTheRecord := fun c info s hinfo =>
  ⟨_, raise_eq c info s, rfl, (BitVec.toNat_ofNat info 64).trans (Nat.mod_eq_of_lt hinfo), rfl, rfl, rfl,
    (faultEntry_frame c _ s).mono (by decide)⟩

/-- Settles O18: the table of R207, row by row. -/
theorem causeCodes : Obligations.CauseCodes :=
  ⟨rfl, rfl, rfl, rfl, rfl, rfl, rfl, rfl, rfl, rfl, rfl, rfl, rfl, rfl, rfl⟩

/-! ### TBUILD on a small alphabet, PACK on a changed length (R208, R222) -/

/-- Settles O25: FREQ_V = 1 meets TBUILD's precondition, and the alphabet is checked before any tree is built. -/
theorem tbuildRejectsASmallAlphabet : Obligations.TbuildRejectsASmallAlphabet := by
  intro s hf hd
  have hdistinct : (s.atStage .tbuild).distinct = s.distinct := State.distinct_congr rfl
  obtain ⟨h, -⟩ | ⟨-, -, he⟩ | ⟨-, h, -⟩ := stageTbuild_cases (s.atStage .tbuild)
  · exact absurd (hf.symm.trans h) (by decide)
  · rw [hdistinct] at he
    exact stageCommand_raised he
  · exact absurd (hdistinct ▸ h) (Nat.not_le.mpr hd)

/-- Settles O39: with its preconditions met PACK compares the lengths before it reads the source. -/
theorem packRejectsAChangedLength : Obligations.PackRejectsAChangedLength := fun s hcode hhdrw hlen =>
  stageCommand_raised (stagePack_changed (s := s.atStage .pack) hcode hhdrw hlen)

end Sys2Proof.Machine
end

section
/-! PROOFS. Reset: between commands it clears the block, during a command it leaves the OUT bytes appended so far
(70_reset_and_hazards.md R246, R247). -/

namespace Sys2Proof.Machine

theorem step_reset {s : State} {rest : List HostAction} (hhost : s.host = .reset :: rest) :
    step s = .next (resetBlock { s with host := rest }) := by
  simp [step, hhost, perform]

theorem step_resetDuring {s s' : State} {v : Word64} {k : Nat} {rest : List HostAction}
    (hhost : s.host = .resetDuring v k :: rest) (h : accept (v.setWidth 32) { s with host := rest } = .next s') :
    step s = .next (abandon (v.setWidth 32) k { s with host := rest } s') := by
  simp [step, hhost, perform, h]

theorem Status.toWord_zero : Status.zero.toWord = 0 := by decide

/-- Settles O13: reset clears STATUS, and with it every validity flag, and keeps what is outside the block. -/
theorem resetClearsTheBlock : Obligations.ResetClearsTheBlock := fun _ _ hhost =>
  ⟨_, step_reset hhost, Status.toWord_zero, rfl, rfl, rfl, rfl,
    fun _ _ hn hr => regView_meaningless_of_zero rfl hn hr, fun _ => rfl, fun _ => rfl, rfl, rfl⟩

/-! ### The OUT bytes an abandoned command leaves (R247) -/

/-- Every address OUT lists in `s` it lists in `t`: bytes are overwritten, never forgotten. -/
def OutListed (s t : State) : Prop := ∀ a, (s.outMem.read? a).isSome = true → (t.outMem.read? a).isSome = true

theorem accept_outListed {w : Word32} {s t : State} (h : accept w s = .next t) : OutListed s t := by
  obtain rfl | ⟨i, -, -, -, hx⟩ | ⟨-, -, rfl⟩ := accept_cases h
  · exact fun _ ha => ha
  · exact (outListed_outClosed s).after_exec (fun _ ha => ha) hx
  · exact fun _ ha => ha

/-- Copied addresses read as in the memory copied from, which lists them if the other one does. -/
theorem OutListed.outByte_copyFrom {s t : State} (h : OutListed s t) (n a x : Nat) :
    ({ s with outMem := Memory.copyFrom t.outMem n a s.outMem } : State).outByte x =
      if a ≤ x ∧ x < a + n then t.outByte x else s.outByte x := by
  simp only [State.outByte, Memory.read?_copyFrom]
  split
  · cases ht : t.outMem.read? x with
    | some b => rfl
    | none =>
      have hs : s.outMem.read? x = none := Option.not_isSome_iff_eq_none.mp fun hx => by simpa [ht] using h x hx
      rw [hs]
  · rfl

/-- Settles O14: the command's first `k` bytes are copied from where it would have ended, and OUT as it would have ended
lists every address that OUT listed. -/
theorem resetDuringACommandAbandonsIt : Obligations.ResetDuringACommandAbandonsIt := by
  intro s s' v k rest hhost haccept
  refine ⟨_, step_resetDuring hhost haccept, Status.toWord_zero, rfl, rfl, rfl, rfl, fun _ => rfl, fun a => ?_⟩
  refine ((accept_outListed haccept).outByte_copyFrom _ (appendStart (v.setWidth 32) s) a).trans (if_congr ?_ rfl rfl)
  show _ ∧ a < _ + min k (s'.outLen.toNat - appendStart (v.setWidth 32) s) ↔ _
  omega

end Sys2Proof.Machine
end

section
/-! PROOFS. How a command ends: its stages complete, or one of them raised and PHASE tells which; and what a fault
before any output leaves (47_control.md R187, 60_exceptions.md R225 to R227, 70_reset_and_hazards.md R269). -/

namespace Sys2Proof.Machine

/-! ### STATUS where a stage ends (R187, R225) -/

/-- Fault entry in stage `g`: ERR is set, BUSY and DONE are cleared, PHASE tells the stage (R225). -/
structure FaultedIn (g : Stage) (t : State) : Prop where
  err : t.status.err = true
  busy : t.status.busy = false
  done : t.status.done = false
  phase : t.status.phase = g.number

theorem runStage_raised_faulted {g : Stage} {s t : State} (h : runStage g (stageBody g) s = .raised t) :
    FaultedIn g t := by
  rw [runStage_eq] at h
  obtain ⟨-, he⟩ | ⟨-, he⟩ := stageBody_cases g { s with status := { s.status with phase := g.number } }
  · cases h.symm.trans he
    exact ⟨rfl, rfl, rfl, rfl⟩
  · rw [h] at he
    obtain ⟨-, hs⟩ := he
    exact ⟨by rw [hs], by rw [hs], by rw [hs], by simp [hs]⟩

theorem runStage_ok_err {g : Stage} {s t : State} (h : runStage g (stageBody g) s = .ok () t) :
    t.status.err = s.status.err := by
  rw [runStage_eq] at h
  obtain ⟨-, he⟩ | ⟨-, he⟩ := stageBody_cases g { s with status := { s.status with phase := g.number } }
  · cases h.symm.trans he
  · rw [h] at he
    simp [he.1]

theorem runStages_raised_faulted {gs : List Stage} {s t : State} (h : runStages gs s = .raised t) :
    ∃ g ∈ gs, FaultedIn g t := by
  induction gs generalizing s with
  | nil => cases h
  | cons g gs ih =>
    obtain h | ⟨_, u, -, h⟩ := Run.andThen_eq_raised.mp h
    · exact ⟨g, List.mem_cons_self, runStage_raised_faulted h⟩
    · obtain ⟨g', hmem, hg'⟩ := ih h
      exact ⟨g', List.mem_cons_of_mem g hmem, hg'⟩

theorem runStages_ok_err {gs : List Stage} {s t : State} (h : runStages gs s = .ok () t) :
    t.status.err = s.status.err := by
  induction gs generalizing s with
  | nil => cases h; rfl
  | cons g gs ih =>
    obtain ⟨_, u, hu, h⟩ := Run.andThen_eq_ok.mp h
    exact (ih h).trans (runStage_ok_err hu)

/-- All a command with stages can do: complete, or leave the state a stage of its raised (R187). -/
theorem exec_stages_cases {i : Instr} (hi : commandStages i ≠ []) (s : State) :
    (∃ u, runStages (commandStages i) s.started = .ok () u ∧ exec i s = .next u.finished) ∨
    ∃ t, runStages (commandStages i) s.started = .raised t ∧ exec i s = .next t := by
  rw [exec_eq_runStages hi]
  exact runCommand_cases _ s

theorem commandStages_ne_nil {i : Instr} (hnop : i ≠ .nop) (hclr : i ≠ .clr) : commandStages i ≠ [] :=
  fun h => (commandStages_eq_nil h).elim hnop hclr

/-- Settles O50: a command that completes sets DONE and leaves ERR, one that raised a cause sets ERR and clears DONE. -/
theorem everyCommandEnds : Obligations.EveryCommandEnds := by
  intro i s
  by_cases hi : commandStages i = []
  · obtain rfl | rfl := commandStages_eq_nil hi
    · exact ⟨s, exec_nop s, fun h => absurd rfl h⟩
    · exact ⟨_, exec_clr s, fun _ h => absurd rfl h⟩
  · obtain ⟨u, hu, he⟩ | ⟨t, ht, he⟩ := exec_stages_cases hi s
    · refine ⟨_, he, fun _ _ => ⟨rfl, fun herr => ?_⟩⟩
      have hnone : u.status.err = false := (runStages_ok_err hu).trans herr
      simp [State.finished, hnone]
    · obtain ⟨g, -, hg⟩ := runStages_raised_faulted ht
      exact ⟨t, he, fun _ _ => ⟨hg.busy, fun _ => by rw [hg.done, hg.err]; rfl⟩⟩

/-! ### A fault before any output (R226) -/

/-- The stages whose number is not that of HEMIT, PACK or UNPACK touch neither OUT nor OUT_LEN. -/
theorem Stage.quiet_of_number {g : Stage} (h5 : g.number ≠ 5) (h6 : g.number ≠ 6) (h9 : g.number ≠ 9) :
    g.quiet = true := by
  revert h5 h6 h9; cases g <;> decide

/-- Once a stage writes OUT, every later one does. -/
def quietFirst : List Stage → Bool
  | [] => true
  | g :: gs => if g.quiet then quietFirst gs else gs.all fun g => !g.quiet

theorem commandStages_quietFirst (i : Instr) : quietFirst (commandStages i) = true := by cases i <;> decide

/-- Where the quiet stages come first and a quiet one raised, only quiet ones ran. -/
theorem runStages_raised_quiet {gs : List Stage} (hq : quietFirst gs = true) {s t : State}
    (h : runStages gs s = .raised t) (ht : ∀ g, FaultedIn g t → g.quiet = true) :
    t.outLen = s.outLen ∧ ∀ a, t.outByte a = s.outByte a := by
  induction gs generalizing s with
  | nil => cases h
  | cons g gs ih =>
    obtain h | ⟨_, u, hu, h⟩ := Run.andThen_eq_raised.mp h
    · have hsame := runStage_of_quiet (ht g (runStage_raised_faulted h)) s
      rwa [h] at hsame
    · by_cases hg : g.quiet = true
      · rw [quietFirst, if_pos hg] at hq
        obtain ⟨hlen, hout⟩ := ih hq h
        have hsame := runStage_of_quiet hg s
        rw [hu] at hsame
        exact ⟨hlen.trans hsame.1, fun a => (hout a).trans (hsame.2 a)⟩
      · rw [quietFirst, if_neg hg, List.all_eq_true] at hq
        obtain ⟨g', hmem, hg'⟩ := runStages_raised_faulted h
        exact absurd (hq g' hmem) (by simp [ht g' hg'])

/-- Settles O53: PHASE tells the stage that raised, and no stage before it has written OUT. -/
theorem earlyFaultsLeaveOutputAlone : Obligations.EarlyFaultsLeaveOutputAlone := by
  intro i s t hnop hclr he hdone h5 h6 h9
  obtain ⟨u, -, hx⟩ | ⟨u, hu, hx⟩ := exec_stages_cases (commandStages_ne_nil hnop hclr) s <;>
    cases hx.symm.trans he
  · cases hdone
  · refine runStages_raised_quiet (s := s.started) (commandStages_quietFirst i) hu fun g hg => ?_
    rw [hg.phase] at h5 h6 h9
    exact Stage.quiet_of_number h5 h6 h9

end Sys2Proof.Machine
end

section
/-! PROOFS. The faults of HPARSE, in the order of its checks and of its reads, and TDES past the capacity
(46_container.md R173, 60_exceptions.md R209 to R211, R217, R224). -/

namespace Sys2Proof.Machine

/-- Reads of readable addresses fill SHAPE and change nothing else. -/
theorem loadShape_ok {n k a : Nat} {s : State}
    (hr : ∀ x, a ≤ x → x < a + n → x < s.platform.inCap.toNat ∧ x ∉ s.platform.inFault) :
    loadShape n k a s = .ok () { s with shape := overwrite k (s.inSeq a n) s.shape } := by
  obtain ⟨-, h⟩ | ⟨j, hj, hbad, -⟩ := loadShape_cases n k a s
  · exact h
  · obtain ⟨hcap, hok⟩ := hr (a + j) (by omega) (by omega)
    exact absurd hbad (not_or.mpr ⟨Nat.not_le.mpr hcap, hok⟩)

/-! ### Where the checks and the copies of R173 fail -/

section
variable {s : State}

theorem parseTree_hdrField (h : 8 * s.shapeByteLen.toNat < s.shapeBitLen.toNat) :
    parseTree s = .raised (faultEntry .hdrField (BitVec.ofNat 64 s.shapeBitLen.toNat) s) :=
  if_pos (Nat.not_le.mpr h)

variable (hbits : s.shapeBitLen.toNat ≤ 8 * s.shapeByteLen.toNat)
include hbits

theorem parseTree_treeCapacity (hcap : ¬ s.WithinTreeCapacity) :
    parseTree s = .raised (faultEntry .treeCapacity 0 s) :=
  (if_neg (not_not.mpr hbits)).trans (if_pos hcap)

variable (hcap : s.WithinTreeCapacity)
include hcap

theorem parseTree_hdrEof (h : s.inLen.toNat < s.treeEnd) :
    parseTree s = .raised (faultEntry .hdrEof (BitVec.ofNat 64 s.treeEnd) s) :=
  (if_neg (not_not.mpr hbits)).trans ((if_neg (not_not.mpr hcap)).trans (if_pos (Nat.not_le.mpr h)))

variable (hend : s.treeEnd ≤ s.inLen.toNat)
include hend

/-- Past the checks the shape bytes are copied, then the leaf bytes. -/
theorem parseTree_copies : parseTree s =
    (loadShape (ceil8 s.shapeBitLen.toNat) 0 Config.hdrBytes s).andThen fun _ s =>
    (loadLeaves s.leafCount.toNat 0 (Config.hdrBytes + s.shapeByteLen.toNat) s).andThen fun _ s =>
    closeStage .hparse { s with payloadOff := BitVec.ofNat 64 s.treeEnd } :=
  (if_neg (not_not.mpr hbits)).trans ((if_neg (not_not.mpr hcap)).trans (if_neg (not_not.mpr hend)))

/-- A shape byte that cannot be read: IoRead there, the shape bytes before it copied (R217). -/
theorem parseTree_shape_ioRead {k : Nat} (hk : k < ceil8 s.shapeBitLen.toNat) (hr : s.inReadable (14 + k))
    (hbad : s.platform.inCap.toNat ≤ 14 + k ∨ 14 + k ∈ s.platform.inFault) :
    parseTree s = .raised (faultEntry .ioRead (BitVec.ofNat 64 (14 + k))
      { s with shape := overwrite 0 (s.inSeq 14 k) s.shape }) := by
  rw [parseTree_copies hbits hcap hend, Config.hdrBytes, loadShape_fault hk (fun x _ => hr x) hbad,
    Run.andThen_raised]

/-- A leaf byte that cannot be read: IoRead there, the shape bytes and the leaf bytes before it copied (R217). -/
theorem parseTree_leaf_ioRead {k : Nat} (hk : k < s.leafCount.toNat)
    (hr : s.inReadable (14 + ceil8 s.shapeBitLen.toNat))
    (hr' : ∀ j < k, 14 + s.shapeByteLen.toNat + j < s.platform.inCap.toNat ∧
      14 + s.shapeByteLen.toNat + j ∉ s.platform.inFault)
    (hbad : s.platform.inCap.toNat ≤ 14 + s.shapeByteLen.toNat + k ∨
      14 + s.shapeByteLen.toNat + k ∈ s.platform.inFault) :
    parseTree s = .raised (faultEntry .ioRead (BitVec.ofNat 64 (14 + s.shapeByteLen.toNat + k))
      { s with
        shape := overwrite 0 (s.inSeq 14 (ceil8 s.shapeBitLen.toNat)) s.shape
        leaves := overwrite 0 (s.inSeq (14 + s.shapeByteLen.toNat) k) s.leaves }) := by
  have hleaves := loadLeaves_fault (n := s.leafCount.toNat) (k := 0) (a := 14 + s.shapeByteLen.toNat)
    (s := { s with shape := overwrite 0 (s.inSeq 14 (ceil8 s.shapeBitLen.toNat)) s.shape }) hk
    (fun x hx hx' => by simpa [Nat.add_sub_cancel' hx] using hr' (x - (14 + s.shapeByteLen.toNat)) (by omega)) hbad
  rw [parseTree_copies hbits hcap hend, Config.hdrBytes, loadShape_ok fun x _ => hr x, Run.andThen_ok]
  exact congrArg (Run.andThen · _) hleaves

end

/-! ### The command HPARSE where it faults (R187, R225) -/

/-- `s` where HPARSE faults on it past the fixed header, `shapes` shape bytes and `leafs` leaf bytes copied. -/
def State.hparseRaised (s : State) (c : Cause) (info shapes leafs : Nat) : State :=
  faultEntry c (BitVec.ofNat 64 info)
    { (s.atStage .hparse).withHeader with
      shape := overwrite 0 (s.inSeq 14 shapes) s.shape
      leaves := overwrite 0 (s.inSeq (14 + ube (s.inSeq 10 2)) leafs) s.leaves }

section
variable {s : State} {c : Cause} {info shapes leafs : Nat}

theorem State.hparseRaised_header :
    (s.hparseRaised c info shapes leafs).origSize.toNat = ube (s.inSeq 0 8) ∧
      (s.hparseRaised c info shapes leafs).shapeBitLen.toNat = ube (s.inSeq 8 2) ∧
      (s.hparseRaised c info shapes leafs).shapeByteLen.toNat = ube (s.inSeq 10 2) ∧
      (s.hparseRaised c info shapes leafs).leafCount.toNat = ube (s.inSeq 12 2) :=
  (s.atStage .hparse).withHeader_fields

theorem State.shapeByte_hparseRaised (h : shapes ≤ 64) (k : Nat) :
    (s.hparseRaised c info shapes leafs).shapeByte k =
      if k < shapes then s.inByte (14 + k) else s.shapeByte k := by
  rw [State.shapeByte_overwrite _ _ s.shape rfl (by rwa [State.length_inSeq])]
  simp [State.inSeq, State.shapeByte]

theorem State.leafByte_hparseRaised (h : leafs ≤ 256) (k : Nat) :
    (s.hparseRaised c info shapes leafs).leafByte k =
      if k < leafs then s.inByte (14 + ube (s.inSeq 10 2) + k) else s.leafByte k := by
  rw [State.leafByte_overwrite _ _ s.leaves rfl (by rwa [State.length_inSeq])]
  simp [State.inSeq, State.leafByte]

end

/-- HPARSE with a readable fixed header raises what its checks and copies raise. -/
theorem exec_hparse_of_parse_raised {s t : State} (hlen : 14 ≤ s.inLen.toNat) (hr : s.inReadable 14)
    (h : parseTree (s.atStage .hparse).withHeader = .raised t) : exec .hparse s = .next t :=
  stageCommand_raised ((stageHparse_eq (s := s.atStage .hparse) hlen hr).trans h)

theorem exec_hparse_short {s : State} (hlen : s.inLen.toNat < 14) :
    exec .hparse s = .next (faultEntry .hdrEof 14
      { s.atStage .hparse with status := Stage.clears .hparse (s.atStage .hparse).status }) :=
  stageCommand_raised (stageHparse_short (s := s.atStage .hparse) (Nat.not_le.mpr hlen))

theorem stageHparse_header_ioRead {s : State} {a : Nat} (hlen : 14 ≤ s.inLen.toNat) (ha : a < 14)
    (hr : s.inReadable a) (hbad : s.platform.inCap.toNat ≤ a ∨ a ∈ s.platform.inFault) :
    stageHparse s = .raised (faultEntry .ioRead (BitVec.ofNat 64 a)
      { s with status := Stage.clears .hparse s.status }) := by
  have hread := readBytes_fault (s := { s with status := Stage.clears .hparse s.status }) (n := 14) (a := 0) ha
    (fun x _ hx => hr x (by omega)) (by simpa using hbad)
  rw [Nat.zero_add] at hread
  rw [stageHparse, openStage_ok rfl, Run.andThen_ok]
  refine (if_neg (not_not.mpr hlen)).trans ?_
  exact congrArg (Run.andThen · _) hread

/-! ### The command's faults, in terms of the header in IN -/

section
variable {s : State} (hlen : 14 ≤ s.inLen.toNat) (hr : s.inReadable 14)
include hlen hr

theorem exec_hparse_hdrField (h : 8 * ube (s.inSeq 10 2) < ube (s.inSeq 8 2)) :
    exec .hparse s = .next (s.hparseRaised .hdrField (ube (s.inSeq 8 2)) 0 0) := by
  obtain ⟨-, hbit, hbyte, -⟩ := (s.atStage .hparse).withHeader_fields
  have hparse := parseTree_hdrField (s := (s.atStage .hparse).withHeader) (by rw [hbit, hbyte]; exact h)
  rw [hbit] at hparse
  exact exec_hparse_of_parse_raised hlen hr hparse

theorem exec_hparse_treeCapacity (hbits : ube (s.inSeq 8 2) ≤ 8 * ube (s.inSeq 10 2))
    (h : 511 < ube (s.inSeq 8 2) ∨ 256 < ube (s.inSeq 12 2)) :
    exec .hparse s = .next (s.hparseRaised .treeCapacity 0 0 0) := by
  obtain ⟨-, hbit, hbyte, hleaf⟩ := (s.atStage .hparse).withHeader_fields
  refine exec_hparse_of_parse_raised hlen hr (parseTree_treeCapacity (by rw [hbit, hbyte]; exact hbits) ?_)
  rw [State.WithinTreeCapacity, hbit, hleaf, not_and_or, Nat.not_le, Nat.not_le]
  exact h

theorem exec_hparse_hdrEof (hbits : ube (s.inSeq 8 2) ≤ 8 * ube (s.inSeq 10 2)) (hmaxBits : ube (s.inSeq 8 2) ≤ 511)
    (hmaxLeaves : ube (s.inSeq 12 2) ≤ 256) (h : s.inLen.toNat < 14 + ube (s.inSeq 10 2) + ube (s.inSeq 12 2)) :
    exec .hparse s = .next
      (s.hparseRaised .hdrEof (14 + ube (s.inSeq 10 2) + ube (s.inSeq 12 2)) 0 0) := by
  obtain ⟨-, hbit, hbyte, hleaf⟩ := (s.atStage .hparse).withHeader_fields
  have hend := (s.atStage .hparse).treeEnd_withHeader
  have hparse := parseTree_hdrEof (s := (s.atStage .hparse).withHeader) (by rw [hbit, hbyte]; exact hbits)
    (by rw [State.WithinTreeCapacity, hbit, hleaf]; exact ⟨hmaxBits, hmaxLeaves⟩) (by rw [hend]; exact h)
  rw [hend] at hparse
  exact exec_hparse_of_parse_raised hlen hr hparse

end

section
variable {s : State} (hfits : s.HeaderFits)
include hfits

/-- A header that fits passes the checks of R173 once it stands in the registers. -/
theorem State.HeaderFits.withHeader :
    (s.atStage .hparse).withHeader.shapeBitLen.toNat ≤ 8 * (s.atStage .hparse).withHeader.shapeByteLen.toNat ∧
      (s.atStage .hparse).withHeader.WithinTreeCapacity ∧
      (s.atStage .hparse).withHeader.treeEnd ≤ s.inLen.toNat := by
  obtain ⟨hbits, hmaxBits, hmaxLeaves, htree⟩ := hfits
  obtain ⟨-, hbit, hbyte, hleaf⟩ := (s.atStage .hparse).withHeader_fields
  rw [State.WithinTreeCapacity, hbit, hbyte, hleaf, State.treeEnd_withHeader]
  exact ⟨hbits, ⟨hmaxBits, hmaxLeaves⟩, htree⟩

variable (hr : s.inReadable 14)
include hr

theorem exec_hparse_shape_ioRead {k : Nat} (hk : k < ceil8 (ube (s.inSeq 8 2))) (hrk : s.inReadable (14 + k))
    (hbad : s.platform.inCap.toNat ≤ 14 + k ∨ 14 + k ∈ s.platform.inFault) :
    exec .hparse s = .next (s.hparseRaised .ioRead (14 + k) k 0) := by
  obtain ⟨hbits, hcap, hend⟩ := hfits.withHeader
  obtain ⟨-, hbit, -, -⟩ := (s.atStage .hparse).withHeader_fields
  exact exec_hparse_of_parse_raised (by have := hfits.tree; omega) hr
    (parseTree_shape_ioRead hbits hcap hend (by rw [hbit]; exact hk) hrk hbad)

theorem exec_hparse_leaf_ioRead {k : Nat} (hk : k < ube (s.inSeq 12 2))
    (hrs : s.inReadable (14 + ceil8 (ube (s.inSeq 8 2))))
    (hrk : ∀ j < k, 14 + ube (s.inSeq 10 2) + j < s.platform.inCap.toNat ∧
      14 + ube (s.inSeq 10 2) + j ∉ s.platform.inFault)
    (hbad : s.platform.inCap.toNat ≤ 14 + ube (s.inSeq 10 2) + k ∨
      14 + ube (s.inSeq 10 2) + k ∈ s.platform.inFault) :
    exec .hparse s = .next
      (s.hparseRaised .ioRead (14 + ube (s.inSeq 10 2) + k) (ceil8 (ube (s.inSeq 8 2))) k) := by
  obtain ⟨hbits, hcap, hend⟩ := hfits.withHeader
  obtain ⟨-, hbit, hbyte, hleaf⟩ := (s.atStage .hparse).withHeader_fields
  have hparse := parseTree_leaf_ioRead (k := k) hbits hcap hend (by rw [hleaf]; exact hk) (by rw [hbit]; exact hrs)
    (by rw [hbyte]; exact hrk) (by rw [hbyte]; exact hbad)
  rw [hbit, hbyte] at hparse
  exact exec_hparse_of_parse_raised (by have := hfits.tree; omega) hr hparse

end

/-! ### The statement -/

/-- Settles O37: HPARSE reads the fixed header, checks it and copies the tree, and each part raises at the first thing
that fails. -/
theorem hparseFaultsInOrder : Obligations.HparseFaultsInOrder := by
  refine ⟨?checks, fun s => exec_hparse_short, fun s hser hcap => ?tdes,
    fun s a hlen ha hr hbad => stageCommand_raised (stageHparse_header_ioRead (s := s.atStage .hparse) hlen ha hr hbad),
    ?copies⟩
  case checks =>
    rintro s _ _ _ _ hr rfl rfl rfl rfl raises hlen
    have hraises : ∀ {c : Cause} {info : Nat}, exec .hparse s = .next (s.hparseRaised c info 0 0) →
        raises c.code info := fun h =>
      have ⟨horig, hbit, hbyte, hleaf⟩ := State.hparseRaised_header
      ⟨_, h, horig, hbit, hbyte, hleaf, rfl⟩
    exact ⟨fun h => hraises (exec_hparse_hdrField hlen hr h),
      fun hbits h => hraises (exec_hparse_treeCapacity hlen hr hbits h),
      fun hbits hmaxBits hmaxLeaves h => hraises (exec_hparse_hdrEof hlen hr hbits hmaxBits hmaxLeaves h)⟩
  case tdes =>
    exact exec_tdes_past_capacity hser fun ⟨hbits, hleaves⟩ =>
      hcap.elim (Nat.not_lt.mpr hbits) (Nat.not_lt.mpr hleaves)
  case copies =>
    rintro s _ _ _ _ hr rfl rfl rfl rfl hbits hmaxBits hmaxLeaves htree fails
    have hfits : s.HeaderFits := ⟨hbits, hmaxBits, hmaxLeaves, htree⟩
    have hshapes : ceil8 (ube (s.inSeq 8 2)) ≤ 64 := by unfold ceil8; omega
    have hfails : ∀ {a shapes leafs : Nat}, shapes ≤ 64 → leafs ≤ 256 →
        exec .hparse s = .next (s.hparseRaised .ioRead a shapes leafs) → fails a shapes leafs := fun h64 h256 h =>
      have ⟨horig, hbit, hbyte, hleaf⟩ := State.hparseRaised_header
      ⟨_, h, horig, hbit, hbyte, hleaf, State.shapeByte_hparseRaised h64, State.leafByte_hparseRaised h256, rfl⟩
    exact ⟨fun k hk hrk hbad => hfails (hk.le.trans hshapes) (Nat.zero_le _)
        (exec_hparse_shape_ioRead hfits hr hk hrk hbad),
      fun k hk hrs hrk hbad => hfails hshapes (hk.le.trans hmaxLeaves)
        (exec_hparse_leaf_ioRead hfits hr hk hrs hrk hbad)⟩

end Sys2Proof.Machine
end

section
/-! SUPPORT. What a run sees of IN, and what it raises once its stage has been opened: on two IN memories that read
alike below IN_LEN every loop and every stage body ends alike, and none of them raises Sequence (20_memory.md R69,
60_exceptions.md R220). -/

namespace Sys2Proof.Machine

/-! ### The same run on another IN memory (R69) -/

/-- `s` with the IN memory `m`. -/
def State.withIn (s : State) (m : Memory) : State := { s with inMem := m }

/-- IN_LEN is `n`, and `m` reads below it as the IN memory of `s` does. -/
structure State.AgreesBelow (m : Memory) (n : Nat) (s : State) : Prop where
  inLen : s.inLen.toNat = n
  inByte : ∀ a < n, (s.withIn m).inByte a = s.inByte a

/-- Where the run ends, with the IN memory `m`. -/
def Run.withIn {α : Type} (m : Memory) : Run α → Run α
  | .ok a s => .ok a (s.withIn m)
  | .raised s => .raised (s.withIn m)

/-- A run that completes leaves the agreement of IN below IN_LEN, and one that raised did not raise Sequence. -/
def Run.Proper {α : Type} (m : Memory) (n : Nat) : Run α → Prop
  | .ok _ s => s.AgreesBelow m n
  | .raised s => s.errCode ≠ Cause.code .sequence

/-- The run `r'` is the run `r` on the IN memory `m`, which no read of it tells from the one `r` ran on. -/
structure Run.Follows {α : Type} (m : Memory) (n : Nat) (r r' : Run α) : Prop where
  withIn : r' = r.withIn m
  proper : r.Proper m n

section
variable {m : Memory} {n : Nat} {α β : Type}

theorem Run.Follows.done {s : State} (h : s.AgreesBelow m n) (a : α) :
    (Run.ok a s).Follows m n (.ok a (s.withIn m)) := ⟨rfl, h⟩

/-- No other cause has the code of Sequence (R207). -/
theorem Cause.code_ne_sequence {c : Cause} (hc : c ≠ .sequence) : c.code ≠ Cause.code .sequence := by
  revert hc; cases c <;> decide

theorem raise_follows {c : Cause} (hc : c ≠ .sequence) (info : Nat) (s : State) :
    (raise (α := α) c info s).Follows m n (raise c info (s.withIn m)) := ⟨rfl, Cause.code_ne_sequence hc⟩

/-- The second part may use what the first one leaves where it completes. -/
theorem Run.Follows.andThen_of_ok {r r' : Run α} {k k' : α → State → Run β} (h : r.Follows m n r')
    (hk : ∀ a s, r = .ok a s → s.AgreesBelow m n → (k a s).Follows m n (k' a (s.withIn m))) :
    (r.andThen k).Follows m n (r'.andThen k') := by
  obtain ⟨rfl, hp⟩ := h
  cases r with
  | ok a s => exact hk a s rfl hp
  | raised s => exact ⟨rfl, hp⟩

theorem Run.Follows.andThen {r r' : Run α} {k k' : α → State → Run β} (h : r.Follows m n r')
    (hk : ∀ a s, s.AgreesBelow m n → (k a s).Follows m n (k' a (s.withIn m))) :
    (r.andThen k).Follows m n (r'.andThen k') := h.andThen_of_ok fun a s _ => hk a s

variable {s : State} (h : s.AgreesBelow m n)
include h

/-! ### The shared operations and the loops -/

theorem memRead_follows {a : Nat} (ha : a < n) : (memRead a s).Follows m n (memRead a (s.withIn m)) := by
  obtain ⟨hcap, hok, he⟩ | ⟨hbad, he⟩ := memRead_cases a s
  · rw [he, memRead_ok (s := s.withIn m) hcap hok, h.inByte a ha]
    exact .done h _
  · rw [he, memRead_fault (s := s.withIn m) hbad]
    exact raise_follows (by decide) a s

theorem emit_follows (b : Byte) : (emit b s).Follows m n (emit b (s.withIn m)) := by
  obtain ⟨hcap, hok, he⟩ | ⟨hbad, he⟩ := emit_cases b s
  · obtain ⟨-, -, he'⟩ | ⟨hbad, -⟩ := emit_cases b (s.withIn m)
    · rw [he, he']
      exact ⟨rfl, h.inLen, h.inByte⟩
    · exact absurd hbad (not_or.mpr ⟨Nat.not_le.mpr hcap, hok⟩)
  · obtain ⟨hcap, hok, -⟩ | ⟨-, he'⟩ := emit_cases b (s.withIn m)
    · exact absurd hbad (not_or.mpr ⟨Nat.not_le.mpr hcap, hok⟩)
    · rw [he, he']
      exact ⟨rfl, Cause.code_ne_sequence (c := .ioWrite) (by decide)⟩

end

section
variable {m : Memory} {n : Nat}

theorem emitAll_follows (bs : ByteSeq) {s : State} (h : s.AgreesBelow m n) :
    (emitAll bs s).Follows m n (emitAll bs (s.withIn m)) := by
  induction bs generalizing s with
  | nil => exact .done h ()
  | cons b bs ih => exact (emit_follows h b).andThen fun _ _ ht => ih ht

theorem readBytes_follows (k : Nat) {a : Nat} (ha : a + k ≤ n) {s : State} (h : s.AgreesBelow m n) :
    (readBytes k a s).Follows m n (readBytes k a (s.withIn m)) := by
  induction k generalizing a s with
  | zero => exact .done h []
  | succ k ih =>
    exact (memRead_follows h (by omega)).andThen fun _ _ ht => (ih (by omega) ht).andThen fun _ _ hu => .done hu _

theorem scanBytes_follows (k : Nat) {i : Nat} (hi : i + k ≤ n) {s : State} (h : s.AgreesBelow m n) :
    (scanBytes k i s).Follows m n (scanBytes k i (s.withIn m)) := by
  induction k generalizing i s with
  | zero => exact .done h ()
  | succ k ih =>
    exact (memRead_follows h (by omega)).andThen fun b t ht =>
      ih (by omega) (s := countByte b t) ⟨ht.inLen, ht.inByte⟩

theorem loadShape_follows (k j : Nat) {a : Nat} (ha : a + k ≤ n) {s : State} (h : s.AgreesBelow m n) :
    (loadShape k j a s).Follows m n (loadShape k j a (s.withIn m)) := by
  induction k generalizing j a s with
  | zero => exact .done h ()
  | succ k ih =>
    exact (memRead_follows h (by omega)).andThen fun b t ht =>
      ih _ (by omega) (s := { t with shape := t.shape.setIfInBounds j b }) ⟨ht.inLen, ht.inByte⟩

theorem loadLeaves_follows (k j : Nat) {a : Nat} (ha : a + k ≤ n) {s : State} (h : s.AgreesBelow m n) :
    (loadLeaves k j a s).Follows m n (loadLeaves k j a (s.withIn m)) := by
  induction k generalizing j a s with
  | zero => exact .done h ()
  | succ k ih =>
    exact (memRead_follows h (by omega)).andThen fun b t ht =>
      ih _ (by omega) (s := { t with leaves := t.leaves.setIfInBounds j b }) ⟨ht.inLen, ht.inByte⟩

theorem flush_follows (acc : BitSeq) {s : State} (h : s.AgreesBelow m n) :
    (flush acc s).Follows m n (flush acc (s.withIn m)) := by
  simp only [flush]
  split
  · exact .done h ()
  · exact emit_follows h _

theorem packBytes_follows (k : Nat) {i : Nat} (hi : i + k ≤ n) (acc : BitSeq) {s : State} (h : s.AgreesBelow m n) :
    (packBytes k i acc s).Follows m n (packBytes k i acc (s.withIn m)) := by
  induction k generalizing i acc s with
  | zero => exact flush_follows acc h
  | succ k ih =>
    refine (memRead_follows h (by omega)).andThen fun b t ht => ?_
    show Run.Follows m n (ite _ _ _) (ite (¬ (t.codeOf b).present = true) _ _)
    split
    · exact raise_follows (by decide) i t
    · exact (emitAll_follows _ ht).andThen fun _ _ hu => ih (by omega) _ hu

theorem walkBit_follows (at' : Nat) (cur : Tree) (bit : Bool) {s : State} (h : s.AgreesBelow m n) :
    (walkBit at' cur bit s).Follows m n (walkBit at' cur bit (s.withIn m)) := by
  simp only [walkBit]
  split
  · exact raise_follows (by decide) at' s
  · split
    · exact (emit_follows h _).andThen fun _ t ht => .done ht t.tree
    · exact .done h _

theorem walkBits_follows (at' : Nat) (bits : BitSeq) (cur : Tree) {s : State} (h : s.AgreesBelow m n) :
    (walkBits at' bits cur s).Follows m n (walkBits at' bits cur (s.withIn m)) := by
  induction bits generalizing cur s with
  | nil => exact .done h cur
  | cons bit bits ih =>
    show Run.Follows m n (ite _ _ _) (ite (s.outLen = s.origSize) _ _)
    split
    · exact .done h cur
    · exact (walkBit_follows at' cur bit h).andThen fun next _ ht => ih next ht

theorem unpackBytes_follows (fuel pos : Nat) (cur : Tree) {s : State} (h : s.AgreesBelow m n) :
    (unpackBytes fuel pos cur s).Follows m n (unpackBytes fuel pos cur (s.withIn m)) := by
  induction fuel generalizing pos cur s with
  | zero =>
    show Run.Follows m n (ite _ _ _) (ite (s.outLen.toNat < s.origSize.toNat) _ _)
    split
    · exact raise_follows (by decide) pos s
    · exact .done h ()
  | succ fuel ih =>
    show Run.Follows m n (ite _ _ _) (ite (¬ s.outLen.toNat < s.origSize.toNat) _ (ite (¬ pos < s.inLen.toNat) _ _))
    split
    · exact .done h ()
    · split
      · exact raise_follows (by decide) pos s
      · next hpos =>
        exact (memRead_follows h (h.inLen ▸ not_not.mp hpos)).andThen fun b _ ht =>
          (walkBits_follows pos (bits8 b) cur ht).andThen fun cur _ hu => ih (pos + 1) cur hu

/-! ### The stage bodies, their preconditions met -/

/-- The body of `g` follows itself on another IN memory, once its preconditions are met. -/
def StageFollows (m : Memory) (n : Nat) (g : Stage) (body : State → Run Unit) : Prop :=
  ∀ s : State, s.AgreesBelow m n → g.requires s.status = true → (body s).Follows m n (body (s.withIn m))

theorem openStage_follows {g : Stage} {s : State} (h : s.AgreesBelow m n) (hr : g.requires s.status = true) :
    (openStage g s).Follows m n (openStage g (s.withIn m)) := by
  rw [openStage_ok hr, openStage_ok (s := s.withIn m) hr]
  exact ⟨rfl, h.inLen, h.inByte⟩

theorem closeStage_follows (g : Stage) {s : State} (h : s.AgreesBelow m n) :
    (closeStage g s).Follows m n (closeStage g (s.withIn m)) := ⟨rfl, h.inLen, h.inByte⟩

theorem stageFscan_follows : StageFollows m n .fscan stageFscan := fun _ h hr =>
  (openStage_follows h hr).andThen fun _ t ht =>
    (scanBytes_follows _ (by rw [ht.inLen]; omega) (s := { t with freq := Vector.replicate 256 0 })
      ⟨ht.inLen, ht.inByte⟩).andThen fun _ u hu =>
    closeStage_follows .fscan (s := { u with origSize := u.inLen }) ⟨hu.inLen, hu.inByte⟩

theorem stageTbuild_follows : StageFollows m n .tbuild stageTbuild := by
  refine fun _ h hr => (openStage_follows h hr).andThen fun _ t ht => ?_
  rw [show (t.withIn m).builtTree = t.builtTree from State.builtTree_congr rfl]
  show Run.Follows m n (ite _ _ _) (ite (t.symbols.length < Config.minLeaves) _ _)
  split
  · exact raise_follows (by decide) _ t
  · cases t.builtTree with
    | some tr => exact closeStage_follows .tbuild (s := { t with tree := tr }) ⟨ht.inLen, ht.inByte⟩
    | none => exact raise_follows (by decide) _ t

theorem stageCbuild_follows : StageFollows m n .cbuild stageCbuild := fun _ h hr =>
  (openStage_follows h hr).andThen fun _ t ht =>
    closeStage_follows .cbuild (s := { t with code := codeTable t.tree }) ⟨ht.inLen, ht.inByte⟩

theorem stageTser_follows : StageFollows m n .tser stageTser := fun _ h hr =>
  (openStage_follows h hr).andThen fun _ t ht =>
    closeStage_follows .tser (s := t.serialized) ⟨ht.inLen, ht.inByte⟩

theorem stageHemit_follows : StageFollows m n .hemit stageHemit := fun _ h hr =>
  (openStage_follows h hr).andThen fun _ t ht =>
    (emitAll_follows _ (s := { t with outLen := 0 }) ⟨ht.inLen, ht.inByte⟩).andThen fun _ _ hu =>
    closeStage_follows .hemit hu

theorem stagePack_follows : StageFollows m n .pack stagePack := by
  refine fun _ h hr => (openStage_follows h hr).andThen fun _ t ht => ?_
  show Run.Follows m n (ite _ _ _) (ite (t.inLen ≠ t.origSize) _ _)
  split
  · exact raise_follows (by decide) _ t
  · exact (packBytes_follows _ (by rw [ht.inLen]; omega) [] ht).andThen fun _ _ hu => closeStage_follows .pack hu

/-- des() does not read IN (R141). -/
theorem des_withIn (s : State) (fuel sp lp : Nat) : des (s.withIn m) fuel sp lp = des s fuel sp lp := by
  induction fuel generalizing sp lp with
  | zero => rfl
  | succ fuel ih =>
    simp only [des, ih]
    rfl

theorem stageTdes_follows : StageFollows m n .tdes stageTdes := by
  refine fun _ h hr => (openStage_follows h hr).andThen fun _ t ht => ?_
  rw [show des (t.withIn m) (t.withIn m).shapeBitLen.toNat 0 0 = des t t.shapeBitLen.toNat 0 0 from des_withIn t _ 0 0]
  show Run.Follows m n (ite _ _ _) (ite (¬ t.WithinTreeCapacity) _ _)
  split
  · exact raise_follows (by decide) 0 t
  · cases hd : des t t.shapeBitLen.toNat 0 0 with
    | bad c info =>
      obtain ⟨rfl, -⟩ | ⟨rfl, -⟩ := of_des_eq_bad hd <;> exact raise_follows (by decide) info t
    | tree tr sp lp =>
      show Run.Follows m n (ite _ _ _) (ite (¬ (sp = t.shapeBitLen.toNat ∧ lp = t.leafCount.toNat)) _ _)
      split
      · exact raise_follows (by decide) sp t
      · exact closeStage_follows .tdes (s := { t with tree := tr }) ⟨ht.inLen, ht.inByte⟩

theorem stageUnpack_follows : StageFollows m n .unpack stageUnpack := fun _ h hr =>
  (openStage_follows h hr).andThen fun _ t ht =>
    (unpackBytes_follows _ _ _ (s := { t with outLen := 0 }) ⟨ht.inLen, ht.inByte⟩).andThen fun _ _ hu =>
    closeStage_follows .unpack hu

theorem parseTree_follows {s : State} (h : s.AgreesBelow m n) :
    (parseTree s).Follows m n (parseTree (s.withIn m)) := by
  show Run.Follows m n (ite _ _ _) (ite (¬ s.shapeBitLen.toNat ≤ 8 * s.shapeByteLen.toNat) _
    (ite (¬ s.WithinTreeCapacity) _ (ite (¬ s.treeEnd ≤ s.inLen.toNat) _ _)))
  split
  · exact raise_follows (by decide) _ s
  · next hbits =>
    split
    · exact raise_follows (by decide) 0 s
    · split
      · exact raise_follows (by decide) _ s
      · next hend =>
        rw [h.inLen, State.treeEnd] at hend
        refine (loadShape_follows _ 0 (by unfold ceil8; omega) h).andThen_of_ok fun _ t he ht => ?_
        have hframe := loadShape_frame (ceil8 s.shapeBitLen.toNat) 0 Config.hdrBytes s
        rw [he] at hframe
        have hleaf : t.leafCount = s.leafCount := hframe .leafCount (by decide)
        have hbyte : t.shapeByteLen = s.shapeByteLen := hframe .shapeByteLen (by decide)
        exact (loadLeaves_follows _ 0 (by rw [hleaf, hbyte]; omega) ht).andThen fun _ u hu =>
          closeStage_follows .hparse (s := { u with payloadOff := BitVec.ofNat 64 u.treeEnd }) ⟨hu.inLen, hu.inByte⟩

theorem stageHparse_follows : StageFollows m n .hparse stageHparse := by
  refine fun _ h hr => (openStage_follows h hr).andThen fun _ t ht => ?_
  show Run.Follows m n (ite _ _ _) (ite (¬ Config.hdrBytes ≤ t.inLen.toNat) _ _)
  split
  · exact raise_follows (by decide) _ t
  · next hlen =>
    exact (readBytes_follows _ (by rw [ht.inLen] at hlen; omega) ht).andThen fun b u hu =>
      parseTree_follows (s := setHeader b u) ⟨hu.inLen, hu.inByte⟩

theorem stageBody_follows (g : Stage) : StageFollows m n g (stageBody g) := by
  cases g
  case fscan => exact stageFscan_follows
  case tbuild => exact stageTbuild_follows
  case cbuild => exact stageCbuild_follows
  case tser => exact stageTser_follows
  case hemit => exact stageHemit_follows
  case pack => exact stagePack_follows
  case hparse => exact stageHparse_follows
  case tdes => exact stageTdes_follows
  case unpack => exact stageUnpack_follows

end

end Sys2Proof.Machine
end

section
/-! PROOFS. A command's outcome depends on IN only below IN_LEN; a stage out of order raises Sequence, and the stages of
COMPRESS and DECOMPRESS are in order (60_exceptions.md R220, 70_reset_and_hazards.md R270). -/

namespace Sys2Proof.Machine

/-! ### A command on another IN memory (R270) -/

section
variable {m : Memory} {n : Nat}

/-- A stage body ends alike on the two IN memories, whether it opens or refuses. -/
theorem stageBody_withIn (g : Stage) {s : State} (h : s.AgreesBelow m n) :
    stageBody g (s.withIn m) = (stageBody g s).withIn m ∧ ∀ t, stageBody g s = .ok () t → t.AgreesBelow m n := by
  obtain ⟨hr, he⟩ | ⟨hr, -⟩ := stageBody_cases g s
  · obtain ⟨-, he'⟩ | ⟨hr', -⟩ := stageBody_cases g (s.withIn m)
    · exact ⟨he'.trans (congrArg (Run.withIn m) he.symm), fun t ht => by cases he.symm.trans ht⟩
    · exact absurd (hr.symm.trans hr') (by decide)
  · obtain ⟨hw, hp⟩ := stageBody_follows g s h hr
    exact ⟨hw, fun t ht => by rwa [ht] at hp⟩

/-- The stages of a command end alike on the two IN memories. -/
theorem runStages_withIn (gs : List Stage) {s : State} (h : s.AgreesBelow m n) :
    runStages gs (s.withIn m) = (runStages gs s).withIn m := by
  induction gs generalizing s with
  | nil => rfl
  | cons g gs ih =>
    obtain ⟨hw, hok⟩ := stageBody_withIn g (s := { s with status := { s.status with phase := g.number } })
      ⟨h.inLen, h.inByte⟩
    have hstage : runStage g (stageBody g) (s.withIn m) = (runStage g (stageBody g) s).withIn m := hw
    rw [runStages, runStages, hstage]
    cases hb : runStage g (stageBody g) s with
    | ok _ t => exact ih (hok t hb)
    | raised t => rfl

end

/-- Settles O54: a stage reads IN below IN_LEN only, at addresses the two memories agree on. -/
theorem inputBeyondInLenIsNotSeen : Obligations.InputBeyondInLenIsNotSeen := by
  intro i s t m hagree he
  by_cases hi : commandStages i = []
  · obtain rfl | rfl := commandStages_eq_nil hi <;> cases he <;> rfl
  · have hrun := runStages_withIn (commandStages i) (s := s.started) (m := m) (n := s.inLen.toNat) ⟨rfl, hagree⟩
    rw [exec_eq_runStages hi] at he ⊢
    obtain ⟨u, hu, hx⟩ | ⟨u, hu, hx⟩ := runCommand_cases (runStages (commandStages i)) s
    · cases hx.symm.trans he
      exact runCommand_ok (s := s.withIn m) (hrun.trans (congrArg (Run.withIn m) hu))
    · cases hx.symm.trans he
      exact runCommand_raised (s := s.withIn m) (hrun.trans (congrArg (Run.withIn m) hu))

/-! ### Stages out of order (R40, R220) -/

theorem Stage.requires_atStage (g : Stage) (s : State) : g.requires (s.atStage g).status = g.requires s.status := by
  cases g <;> rfl

theorem exec_stage_outOfOrder {g : Stage} {s : State} (h : g.requires s.status = false) :
    exec g.command s = .next (faultEntry .sequence ((encode g.command).setWidth 64) (s.atStage g)) := by
  rw [exec_stage]
  obtain ⟨-, he⟩ | ⟨hr, -⟩ := stageBody_cases g (s.atStage g)
  · exact stageCommand_raised he
  · exact absurd (h.symm.trans ((g.requires_atStage s).symm.trans hr)) (by decide)

/-- From STATUS `st` each stage finds its preconditions met if those before it complete. -/
def stagesInOrder : List Stage → Status → Bool
  | [], _ => true
  | g :: gs, st =>
    g.requires { st with phase := g.number } && stagesInOrder gs (g.sets (g.clears { st with phase := g.number }))

/-- Stages in order do not raise Sequence. -/
theorem runStages_errCode_ne_sequence {gs : List Stage} {s : State} (ho : stagesInOrder gs s.status = true)
    (hc : s.errCode ≠ Cause.code .sequence) : (runStages gs s).final.errCode ≠ Cause.code .sequence := by
  induction gs generalizing s with
  | nil => exact hc
  | cons g gs ih =>
    obtain ⟨hr, ho⟩ := Bool.and_eq_true_iff.mp ho
    rw [runStages, runStage_eq]
    obtain ⟨hr', -⟩ | ⟨-, hends⟩ := stageBody_cases g { s with status := { s.status with phase := g.number } }
    · exact absurd (hr.symm.trans hr') (by decide)
    · obtain ⟨-, hproper⟩ := stageBody_follows (m := s.inMem) (n := s.inLen.toNat) g
        { s with status := { s.status with phase := g.number } } ⟨rfl, fun _ _ => rfl⟩ hr
      cases hb : stageBody g { s with status := { s.status with phase := g.number } } with
      | ok _ t =>
        rw [hb] at hends
        obtain ⟨hstatus, hcode, -⟩ := hends
        exact ih (hstatus ▸ ho) (hcode ▸ hc)
      | raised t =>
        rw [hb] at hproper
        exact hproper

theorem exec_errCode_ne_sequence {i : Instr} {s t : State} (hi : commandStages i ≠ [])
    (ho : stagesInOrder (commandStages i) s.started.status = true) (hc : s.errCode ≠ Cause.code .sequence)
    (he : exec i s = .next t) : t.errCode ≠ Cause.code .sequence := by
  have hrun := runStages_errCode_ne_sequence (s := s.started) ho hc
  obtain ⟨u, hu, hx⟩ | ⟨u, hu, hx⟩ := exec_stages_cases hi s <;> cases hx.symm.trans he <;> rw [hu] at hrun <;>
    exact hrun

/-- Settles O19: a stage checks its preconditions first; in COMPRESS and DECOMPRESS the first stage has none, and the
stages before any other one set the flags it requires. -/
theorem stageOutOfOrderRaisesSequence : Obligations.StageOutOfOrderRaisesSequence := by
  refine ⟨fun s => ?stages, ?inOrder⟩
  case stages =>
    exact ⟨exec_stage_outOfOrder (g := .tbuild), exec_stage_outOfOrder (g := .cbuild),
      exec_stage_outOfOrder (g := .tser), fun h => exec_stage_outOfOrder (g := .hemit) (Bool.and_eq_false_iff.mpr h),
      fun h => exec_stage_outOfOrder (g := .pack) (Bool.and_eq_false_iff.mpr h), exec_stage_outOfOrder (g := .tdes),
      fun h => exec_stage_outOfOrder (g := .unpack) (Bool.and_eq_false_iff.mpr h)⟩
  case inOrder =>
    rintro s t i hi he - hcode
    have hnone : s.errCode ≠ Cause.code .sequence := by rw [hcode]; decide
    obtain rfl | rfl := hi <;> exact exec_errCode_ne_sequence (by decide) rfl hnone he

end Sys2Proof.Machine
end
